-- ==== Sys2Proof/Word.lean ====
section
/-! DEFINITION. The word types of the block (00_scope.md R8): bytes, 16-bit registers and sequences of line bits. -/

namespace Sys2Proof

/-- A byte: 8 bits, bit 0 least significant (00_scope.md R8). -/
abbrev Byte := BitVec 8

/-- A 16-bit register value (`TIMEOUT`, `TX_BITS`, `CRC_RES`, ...). -/
abbrev Half := BitVec 16

/-- A line frame: single bits in transmission order, parity bits included (00_scope.md R9). -/
abbrev LineBits := List Bool

end Sys2Proof
end

