-- ==== Sys2Proof/Machine/Crc.lean ====
section
/-! DEFINITION. The CRC functions of unit 1 (40_crc_engine.md R110, R111, R122) and the split of a 16-bit value into bytes. -/

namespace Sys2Proof.Machine

/-- Bits 7:0 of a 16-bit value. -/
def loByte (h : Half) : Byte := h.setWidth 8

/-- Bits 15:8 of a 16-bit value. -/
def hiByte (h : Half) : Byte := (h >>> 8).setWidth 8

/-- The 16-bit value with the given low and high byte (20_memory.md R64). -/
def halfOf (lo hi : Byte) : Half := hi ++ lo

/-- `ceil8(n)`: the number of bytes that hold `n` bits (00_scope.md R8). -/
def ceil8 (n : Nat) : Nat := (n + 7) / 8

/-- One step of the CRC loop, byte-at-a-time ("nibble-swap") form (40_crc_engine.md R110). -/
def crcUpdate (w : Half) (b : Byte) : Half :=
  let t : Byte := b ^^^ loByte w
  let t : Byte := t ^^^ (t <<< 4)
  let t : Half := t.setWidth 16
  (w >>> 8) ^^^ (t <<< 8) ^^^ (t <<< 3) ^^^ (t >>> 4)

/-- `CrcA(d)`: preset 0x6363, no final complement (40_crc_engine.md R110). -/
def crcA (d : List Byte) : Half := d.foldl crcUpdate 0x6363

/-- The loop of `CrcB` before its final complement: preset 0xFFFF (40_crc_engine.md R111). -/
def crcBLoop (d : List Byte) : Half := d.foldl crcUpdate 0xFFFF

/-- `CrcB(d)`: the loop with preset 0xFFFF, then a complement (40_crc_engine.md R111). -/
def crcB (d : List Byte) : Half := ~~~ (crcBLoop d)

/-- The two result bytes of a CRC, low byte first (20_memory.md R65b). -/
def crcBytes (c : Half) : List Byte := [loByte c, hiByte c]

/-- One bit of the bit-serial form (40_crc_engine.md R122). -/
def crcBit (w : Half) (x : Bool) : Half :=
  if x ^^ w.getLsbD 0 then (w >>> 1) ^^^ 0x8408 else w >>> 1

/-- The eight bits of a byte, bit 0 first (20_memory.md R65c). -/
def byteBits (b : Byte) : List Bool :=
  [b.getLsbD 0, b.getLsbD 1, b.getLsbD 2, b.getLsbD 3, b.getLsbD 4, b.getLsbD 5, b.getLsbD 6, b.getLsbD 7]

/-- The bit-serial form of one CRC step, bit 0 of the byte first (40_crc_engine.md R122). -/
def crcUpdateSerial (w : Half) (b : Byte) : Half := (byteBits b).foldl crcBit w

end Sys2Proof.Machine
end

