-- ==== Sys2Proof/Syntax.lean ====
section
/-! DEFINITION. The instructions: one constructor for each of the 42 rows of spec/opcode_table.json, that is 25 host
commands (30_encoding.md R80 to R83), 13 transmitted frames (R86 to R93) and 4 received frames (R94 to R97). -/

namespace Sys2Proof

/-- A frame: bytes and an explicit bit length, which may end mid-byte (00_scope.md R9). -/
structure Frame where
  bytes : List Byte
  nbits : Nat
deriving DecidableEq, Repr

/-- The three cascade levels ("max CL3", 30_encoding.md R98). -/
inductive Level where
  | cl1
  | cl2
  | cl3
deriving DecidableEq, Repr

/-- The instructions of the block. Operands of host commands are bytes "used as written" (30_encoding.md R81): a value out
of its legal set is encodable and ends the command with `InvalidParameter`. A byte that a command ignores is no operand. -/
inductive Instr where
  -- host commands: system (44_system.md)
  | nop
  | initInitiator
  | configure (option enabled : Byte)
  -- host commands: CRC engine (40_crc_engine.md)
  | crcA (src : Byte)
  | crcB (src : Byte)
  | crcAAppend
  | crcBAppend
  | crcACheck (src : Byte)
  | crcBCheck (src : Byte)
  | locateHist (src : Byte)
  -- host commands: frame codec (41_frame_codec.md)
  | buildReqa
  | buildWupa (variant : Byte)
  | buildAnticoll (lvl : Byte)
  | buildSelect (lvl fromRx : Byte)
  | buildHalt
  | buildRats (param : Byte)
  | bccCalc
  | parseAnticoll (lvl src : Byte)
  | parseSak (src : Byte)
  | assembleUid (levels : Byte)
  -- host commands: bit transceive (42_bit_transceive.md)
  | xcvBits
  | xcvBytes
  -- host commands: activation (43_activation.md)
  | activate (wake : Byte)
  | deselect
  | poll (attempts period : Byte)
  -- transmitted frames (30_encoding.md R86 to R93)
  | reqa
  | wupa
  | wake40
  | anticollCl1
  | anticollCl2
  | anticollCl3
  | selectCl1 (u0 u1 u2 u3 bcc : Byte)
  | selectCl2 (u0 u1 u2 u3 bcc : Byte)
  | selectCl3 (u0 u1 u2 u3 bcc : Byte)
  | halt
  | rats (param : Byte)
  | magic43
  | magic41
  -- received frames (30_encoding.md R94 to R97)
  | atqa (a0 a1 : Byte)
  | anticollAnswer (u0 u1 u2 u3 bcc : Byte)
  | sakAnswer (sak : Byte)
  /-- `ats` is what follows the length byte TL: `T0 [TA] [TB] [TC] Tk...`, possibly empty (R97). -/
  | ratsAnswer (ats : List Byte)
deriving DecidableEq, Repr

end Sys2Proof
end

