-- ==== Sys2Proof/Machine/Frames.lean ====
section
/-! DEFINITION. The frame templates of 30_encoding.md (R86 to R98) and the pure functions of the frame codec
(41_frame_codec.md R138, R142, R144). -/

namespace Sys2Proof.Machine

/-- The number 1, 2 or 3 of a cascade level. -/
def levelNum : Level → Nat
  | .cl1 => 1
  | .cl2 => 2
  | .cl3 => 3

/-- The level after this one, if there is one ("max CL3", 43_activation.md R203). -/
def levelNext : Level → Option Level
  | .cl1 => some .cl2
  | .cl2 => some .cl3
  | .cl3 => none

/-- `SelCode(n)`: the cascade prefix (30_encoding.md R98). -/
def selCode : Level → Byte
  | .cl1 => 0x93
  | .cl2 => 0x95
  | .cl3 => 0x97

/-- A frame of whole bytes. -/
def byteFrame (bytes : List Byte) : Frame := ⟨bytes, 8 * bytes.length⟩

/-- A frame of whole bytes followed by its CRC_A, low byte first (20_memory.md R65b). -/
def frameWithCrcA (bytes : List Byte) : Frame := byteFrame (bytes ++ crcBytes (crcA bytes))

/-- REQA (30_encoding.md R86). -/
def reqaFrame : Frame := ⟨[0x26], 7⟩

/-- WUPA (30_encoding.md R87). -/
def wupaFrame : Frame := ⟨[0x52], 7⟩

/-- The vendor "strange wakeup" (30_encoding.md R88). -/
def wake40Frame : Frame := ⟨[0x40], 7⟩

/-- Anti-collision SELECT of a level (30_encoding.md R89). -/
def anticollFrame (n : Level) : Frame := byteFrame [selCode n, 0x20]

/-- SELECT confirm of a level (30_encoding.md R90). -/
def selectFrame (n : Level) (u0 u1 u2 u3 bcc : Byte) : Frame := frameWithCrcA [selCode n, 0x70, u0, u1, u2, u3, bcc]

/-- HALT (30_encoding.md R91, 43_activation.md R213). -/
def haltFrame : Frame := byteFrame [0x50, 0x00, 0x57, 0xCD]

/-- RATS with its parameter byte (30_encoding.md R92). -/
def ratsFrame (param : Byte) : Frame := frameWithCrcA [0xE0, param]

/-- The answer to RATS, CRC included: TL, ATS, CRC_A (30_encoding.md R97). -/
def ratsAnswerFrame (ats : List Byte) : Frame := frameWithCrcA (BitVec.ofNat 8 (ats.length + 1) :: ats)

/-- `Bcc(u0, u1, u2, u3)` (41_frame_codec.md R138). -/
def bcc (u0 u1 u2 u3 : Byte) : Byte := u0 ^^^ u1 ^^^ u2 ^^^ u3

/-- `BccOk(a)` for a five-byte sequence (41_frame_codec.md R138). -/
def bccOk (a : List Byte) : Bool := bcc (a.getD 0 0) (a.getD 1 0) (a.getD 2 0) (a.getD 3 0) = a.getD 4 0

/-- `Cascade(s)`: bit 2 of a SAK (41_frame_codec.md R142). -/
def cascade (sak : Byte) : Bool := sak &&& 0x04 ≠ 0

/-- `AtsSupported(s)`: bit 5 of a SAK (41_frame_codec.md R142). -/
def atsSupported (sak : Byte) : Bool := sak &&& 0x20 ≠ 0

/-- `UidAssemble(raw, L)` (41_frame_codec.md R144): a non-final level contributes its bytes 1..3, the final one all four. -/
def uidAssemble (raw : Vector Byte 12) : Level → List Byte
  | .cl1 => [raw[0], raw[1], raw[2], raw[3]]
  | .cl2 => [raw[1], raw[2], raw[3], raw[4], raw[5], raw[6], raw[7]]
  | .cl3 => [raw[1], raw[2], raw[3], raw[5], raw[6], raw[7], raw[8], raw[9], raw[10], raw[11]]

/-- The number of bytes (0 or 1) that one presence bit of T0 announces (40_crc_engine.md R119). -/
def interfaceByte (t0 mask : Byte) : Nat := if t0 &&& mask ≠ 0 then 1 else 0

/-- Offset of the first byte after T0 and the TA, TB, TC bytes that T0 announces (40_crc_engine.md R119). -/
def histOffset (t0 : Byte) : Nat := 1 + interfaceByte t0 0x10 + interfaceByte t0 0x20 + interfaceByte t0 0x40

/-- `locate_historical_bytes` (40_crc_engine.md R119): offset and length of the historical bytes, or none. -/
def locateHistorical : List Byte → Option (Nat × Nat)
  | [] => none
  | t0 :: rest =>
    if histOffset t0 < (t0 :: rest).length then some (histOffset t0, (t0 :: rest).length - histOffset t0) else none

end Sys2Proof.Machine
end

