-- ==== Sys2Proof/Config.lean ====
section
/-! DEFINITION. The constants the spec fixes for the block, and the FREE VALUES: opaque constants with no body, so that
nothing in Lean can evaluate one or prove a value of it. A claim that holds in this model holds whatever they are. -/

namespace Sys2Proof.Config

/-- `MAX_FRAME_LEN`, in bytes (00_scope.md R6). -/
def maxFrameLen : Nat := 264

/-- `8 * MAX_FRAME_LEN`: the longest legal `TX_BITS` (10_state.md R37). -/
def maxFrameBits : Nat := 2112

/-- Number of host addresses, 0x000 to 0x7FF (20_memory.md R60). -/
def hostSpace : Nat := 2048

/-- Host address of `TXBUF[0]` (20_memory.md R62). -/
def txBase : Nat := 0x100

/-- Host address of `RXBUF[0]` (20_memory.md R62). -/
def rxBase : Nat := 0x300

/-- Host address of `ATSBUF[0]` (20_memory.md R62). -/
def atsBase : Nat := 0x500

/-- The "block forever" sentinel of `TIMEOUT` (10_state.md R27). -/
def foreverTimeout : Half := 0xFFFF

/-- The cascade tag (00_scope.md R6). -/
def cascadeTag : Byte := 0x88

/-- Value of `RATS_PARAM` at reset (10_state.md R39). -/
def ratsParamReset : Byte := 0x50

/-- FREE VALUE (DESIGN CHOICE, logs 1 to 3): the byte at a buffer address that holds no specified value. The first argument
counts how many times the buffer's contents have become unspecified, the second is the host address
(93_implementation_defined.md U3, U4). -/
opaque ramByte : Nat → Nat → Byte

/-- FREE VALUE (DESIGN CHOICE, log 8): what a host read of anything but `STATUS` returns while `BUSY = 1`
(93_implementation_defined.md U2). -/
opaque busyReadByte : Nat → Byte

/-- FREE VALUE (DESIGN CHOICE, log 6): whether the answer is taken when it and the end of a finite timeout coincide
(93_implementation_defined.md U5, 60_exceptions.md R252 item 4). -/
opaque answerBeatsTimeout : Nat → Bool

/-- FREE VALUE (DESIGN CHOICE, log 7): with `TIMEOUT = 0x0000`, whether an answer is already there at the moment of
sending (93_implementation_defined.md U6, 60_exceptions.md R262). -/
opaque pollAnswerThere : Nat → Bool

/-- OPEN parameter `TIMEOUT_UNIT` (92_eei_decisions.md D14): the duration of one count. No rule depends on it and nothing
in the model reads it (log 16). -/
opaque timeoutUnit : Nat

/-- OPEN parameter `POLL_PERIOD_UNIT` (92_eei_decisions.md D17). No rule depends on it and nothing in the model reads it
(log 16). -/
opaque pollPeriodUnit : Nat

end Sys2Proof.Config
end

