-- ==== Sys2Proof/Machine/Memory.lean ====
section
/-! DEFINITION. The block's memory, the three 264-byte buffers, as one list of (host address, byte) pairs in ONE canonical
form: addresses strictly rising. An unlisted address holds no value; what it then reads as is `State.bufByte`
(Machine/Ops.lean). Host accesses are single bytes at any address (20_memory.md R61, R66). -/

namespace Sys2Proof.Machine

/-- The bytes the buffers hold, by host address. -/
abbrev Memory := List Host.Cell

/-- The canonical form: addresses strictly rising. Every entry holds a byte, so no entry equals what an unlisted address
holds (no value). -/
def Memory.wf : Memory → Bool
  | [] => true
  | [_] => true
  | c :: d :: rest => c.1 < d.1 && Memory.wf (d :: rest)

/-- The byte an address holds, if it holds one. -/
def Memory.get : Memory → Nat → Option Byte
  | [], _ => none
  | (k, v) :: rest, a => if k = a then some v else Memory.get rest a

/-- Store one byte. -/
def Memory.put : Memory → Nat → Byte → Memory
  | [], a, v => [(a, v)]
  | (k, w) :: rest, a, v =>
    if a < k then (a, v) :: (k, w) :: rest
    else if a = k then (a, v) :: rest
    else (k, w) :: Memory.put rest a v

/-- Store bytes at consecutive addresses. -/
def Memory.putList : Memory → Nat → List Byte → Memory
  | m, _, [] => m
  | m, a, b :: bs => Memory.putList (Memory.put m a b) (a + 1) bs

/-- Drop the `n` addresses from `lo`: their contents become unspecified. -/
def Memory.forget (m : Memory) (lo n : Nat) : Memory := m.filter fun c => c.1 < lo || lo + n ≤ c.1

end Sys2Proof.Machine
end

