-- ==== Sys2Proof/Machine/State.lean ====
section
/-! DEFINITION. The state of the block (10_state.md R20) as plain data, the inputs that act on it, the two reasons a step can
stop, and the state after reset (70_reset_and_hazards.md R281). -/

namespace Sys2Proof.Machine

/-- The values of `ERR`: no error, or one of the 16 kinds of 60_exceptions.md R246. -/
inductive ErrKind where
  | noError
  | timeout
  | crcMismatch
  | parityError
  | bitCountError
  | framingError
  | bitCollision
  | bufferTooSmall
  | bufferOverflow
  | rfTimeout
  | rfProtocolError
  | invalidParameter
  | commandNotSupported
  /-- reserved, raised by no rule (R276) -/
  | deviceNotSupported
  /-- reserved, raised by no rule (R277) -/
  | notImplemented
  | aborted
  | ioError
deriving DecidableEq, Repr

/-- The states of the activation sequencer (10_state.md R23, 43_activation.md R190). -/
inductive AsmState where
  | idle
  | reqSent
  | arbitration (n : Level)
  | selected (n : Level)
  | ratsSent
  | activated
  | noTag
deriving DecidableEq, Repr

/-- The option bits of `CFG` (10_state.md R25); bits 7:4 hold nothing and read 0 (R44). -/
structure Cfg where
  handleCrc : Bool
  easyFraming : Bool
  autoIso14443_4 : Bool
  infiniteSelect : Bool
deriving DecidableEq, Repr

/-- The bits of `WARN` (10_state.md R28); bits 7:5 hold nothing and read 0 (R44). -/
structure Warn where
  bcc1 : Bool
  bcc2 : Bool
  bcc3 : Bool
  ct1 : Bool
  ct2 : Bool
deriving DecidableEq, Repr

/-- What the RF environment can answer (42_bit_transceive.md R161). `line []` is not an answer: R161 asks for at least one
bit, and the machine ignores it (log 15). -/
inductive Answer where
  | line (bits : LineBits)
  | rfTimeout
  | framingError
  | bitCollision
  | ioError
deriving DecidableEq, Repr

/-- `XCH`: an outstanding exchange (10_state.md R42). -/
structure Exchange where
  lineTx : LineBits
  rxCrc : Bool
  timeout : Half
deriving DecidableEq, Repr

/-- Which exchange of its pseudocode a command performs (43_activation.md R190; `raw` is that of XCV_BITS and XCV_BYTES,
`halt` that of DESELECT). -/
inductive Due where
  | raw
  | wake
  | anticoll (n : Level)
  | select (n : Level)
  | rats
  | halt
deriving DecidableEq, Repr

/-- Where a transceiving command stands: about to hand a frame to the RF port, waiting for the outcome of that exchange, or
in POLL's pause (00_scope.md R5, 42_bit_transceive.md R163, 43_activation.md R214). -/
inductive Point where
  | transmit (d : Due)
  | await (d : Due)
  | pause
deriving DecidableEq, Repr

/-- The transceiving command in progress with the operands its control flow needs, as sampled at acceptance
(44_system.md R230): `HANDLE_CRC`, REQA or WUPA, the attempts of POLL (its period is a pause of
unmodelled length, log 16). -/
inductive Job where
  | xcvBits
  | xcvBytes (handleCrc : Bool)
  | activate (wupa : Bool)
  | deselect
  | poll (attempts : Byte)
deriving DecidableEq, Repr

/-- The place in its pseudocode at which the command in progress stands, with `TIMEOUT` and `RATS_PARAM` as sampled at
acceptance (44_system.md R230). -/
structure Run where
  job : Job
  point : Point
  timeout : Half
  ratsParam : Byte
deriving DecidableEq, Repr

/-- One move of an agent other than the block, or (`proceed`) leave for the block to make its own next move. Moves take
effect in the order of the inbox (00_scope.md R5, 20_memory.md R69, log 4). -/
inductive Input where
  /-- `MemWrite(addr, 1, v)` (20_memory.md R61) -/
  | hostWrite (addr : Nat) (v : Byte)
  /-- `MemRead(addr, 1)` (20_memory.md R61) -/
  | hostRead (addr : Nat)
  /-- the block makes its own next move: hands over the frame that is due, or ends POLL's pause -/
  | proceed
  /-- `RfAnswer(A)` (42_bit_transceive.md R160) -/
  | answer (a : Answer)
  /-- the timeout of the outstanding exchange runs out (60_exceptions.md R262) -/
  | timeout
  /-- an answer arrives and the timeout runs out at the same moment (93_implementation_defined.md U5) -/
  | answerAtTimeout (a : Answer)
  /-- hardware reset (70_reset_and_hazards.md R280, U14) -/
  | reset
deriving DecidableEq, Repr

/-- The faults of the machine. The block itself has none: its errors are codes in `ERR` (60_exceptions.md R245). -/
inductive Fault where
  /-- Raised by a host access above 0x7FF, which "cannot be presented" (20_memory.md R61). SAFE: the machine stops where
  the hardware has no such event. -/
  | noSuchAddress
deriving DecidableEq, Repr

/-- The refusals of the machine. -/
inductive Refusal where
  /-- Raised by the arm of an instruction that has no meaning yet. SAFE. -/
  | notModelled (mnemonic : String)
  /-- Raised by a host write to anything but `ABORT`, a command included, while `BUSY = 1`: undefined behaviour that the spec
  tells a model to refuse (93_implementation_defined.md U1). SAFE: the machine stops. -/
  | hostWriteWhileBusy
  /-- Raised by a transmitted-frame row in a state in which the block is not about to send that very frame; the block sends
  frames only inside its commands (42_bit_transceive.md R163). SAFE: the machine stops. -/
  | noFrameDue
deriving DecidableEq, Repr

/-- The state of the block (10_state.md R20) and, last, the model's own fields. -/
structure State where
  /-- `CMD` (R21) -/
  cmd : Byte
  /-- `STATUS.BUSY` (R22) -/
  busy : Bool
  /-- `STATUS.DONE` (R22) -/
  done : Bool
  /-- `STATUS.MATCH` (R22) -/
  matched : Bool
  /-- `STATUS.FOUND` (R22) -/
  found : Bool
  /-- `ERR` (R24) -/
  err : ErrKind
  /-- `CFG` (R25) -/
  cfg : Cfg
  /-- `P0` (R26) -/
  p0 : Byte
  /-- `P1` (R26) -/
  p1 : Byte
  /-- `TIMEOUT` (R27) -/
  timeout : Half
  /-- `ASM_STATE` (R23) -/
  asm : AsmState
  /-- `WARN` (R28) -/
  warn : Warn
  /-- `CL` (R29): none reads 0 -/
  cl : Option Level
  /-- `SAK` (R30) -/
  sak : Byte
  /-- `ATQA[0]` (R31) -/
  atqa0 : Byte
  /-- `ATQA[1]` (R31) -/
  atqa1 : Byte
  /-- `UID_LEN` (R32) -/
  uidLen : Byte
  /-- `UID[0..10)` (R32) -/
  uid : Vector Byte 10
  /-- `RAWUID[0..12)` (R33) -/
  rawUid : Vector Byte 12
  /-- `RAWBCC[0..3)` (R33) -/
  rawBcc : Vector Byte 3
  /-- `ATS_LEN` (R34) -/
  atsLen : Half
  /-- `CRC_RES` (R35) -/
  crcRes : Half
  /-- `HB_OFF` (R36) -/
  hbOff : Half
  /-- `HB_LEN` (R36) -/
  hbLen : Half
  /-- `TX_BITS` (R37) -/
  txBits : Half
  /-- `RX_BITS` (R38) -/
  rxBits : Half
  /-- `RATS_PARAM` (R39) -/
  ratsParam : Byte
  /-- `POLL_CNT` (R40) -/
  pollCnt : Byte
  /-- `TXBUF`, `RXBUF`, `ATSBUF` (R37, R38, R34) at their host addresses -/
  mem : Memory
  /-- `ABORT_REQ` (R41), hidden -/
  abortReq : Bool
  /-- `XCH` (R42), hidden -/
  xch : Option Exchange
  /-- where the transceiving command in progress stands, hidden -/
  run : Option Run
  /-- MODEL: the moves of the other agents still to come (log 4) -/
  inbox : List Input
  /-- MODEL: the line frames put on the RF port so far, oldest first (00_scope.md R13) -/
  rfOut : List LineBits
  /-- MODEL: what the last host read returned (20_memory.md R61) -/
  readData : Option Byte
  /-- MODEL: the counter the free values of U2, U5 and U6 are applied to (logs 6 to 8) -/
  fresh : Nat
  /-- MODEL: how many times the contents of `TXBUF` have become unspecified (log 2) -/
  txGen : Nat
  /-- MODEL: how many times the contents of `RXBUF` have become unspecified (log 2) -/
  rxGen : Nat
  /-- MODEL: how many times the contents of `ATSBUF` have become unspecified (log 2) -/
  atsGen : Nat
deriving DecidableEq, Repr

/-- No option enabled. -/
def Cfg.none : Cfg := ⟨false, false, false, false⟩

/-- No warning. -/
def Warn.none : Warn := ⟨false, false, false, false, false⟩

/-- The state after reset (70_reset_and_hazards.md R281). The buffers list nothing, so each of their bytes reads as a free
value (log 1). -/
def State.reset : State where
  cmd := 0x00
  busy := false
  done := false
  matched := false
  found := false
  err := .noError
  cfg := Cfg.none
  p0 := 0x00
  p1 := 0x00
  timeout := 0x0000
  asm := .idle
  warn := Warn.none
  cl := none
  sak := 0x00
  atqa0 := 0x00
  atqa1 := 0x00
  uidLen := 0x00
  uid := Vector.replicate 10 0x00
  rawUid := Vector.replicate 12 0x00
  rawBcc := Vector.replicate 3 0x00
  atsLen := 0x0000
  crcRes := 0x0000
  hbOff := 0x0000
  hbLen := 0x0000
  txBits := 0x0000
  rxBits := 0x0000
  ratsParam := Config.ratsParamReset
  pollCnt := 0x00
  mem := []
  abortReq := false
  xch := none
  run := none
  inbox := []
  rfOut := []
  readData := none
  fresh := 0
  txGen := 0
  rxGen := 0
  atsGen := 0

/-- The outcome of a step of this machine. -/
abbrev Outcome := Host.Outcome State Fault Refusal

end Sys2Proof.Machine
end

