-- ==== Sys2Proof/Machine/Line.lean ====
section
/-! DEFINITION. The line coding and the reading of an RF answer (42_bit_transceive.md R163, R165 to R167). -/

namespace Sys2Proof.Machine

/-- `Par(b)`: the odd-parity bit (42_bit_transceive.md R167). -/
def par (b : Byte) : Bool :=
  true ^^ b.getLsbD 0 ^^ b.getLsbD 1 ^^ b.getLsbD 2 ^^ b.getLsbD 3 ^^ b.getLsbD 4 ^^ b.getLsbD 5 ^^ b.getLsbD 6
    ^^ b.getLsbD 7

/-- The sum of `bits[k] << k`, for at most 8 bits (42_bit_transceive.md R166). -/
def bitsToByte : List Bool → Byte
  | [] => 0
  | x :: xs => (bitsToByte xs <<< 1) ||| (if x then 1 else 0)

/-- `LineEncode(bytes, nbits)` (42_bit_transceive.md R165): each complete byte, bit 0 first, then its parity bit; a trailing
partial byte without one. -/
def lineEncode : List Byte → Nat → LineBits
  | [], _ => []
  | b :: bs, n => if 8 ≤ n then byteBits b ++ par b :: lineEncode bs (n - 8) else (byteBits b).take n

/-- The line frame of a frame. -/
def frameLine (f : Frame) : LineBits := lineEncode f.bytes f.nbits

/-- The outcome of an exchange: `Ok(frame)` or `Err(kind)` (42_bit_transceive.md R163). -/
inductive XResult where
  | ok (f : Frame)
  | err (e : ErrKind)
deriving DecidableEq, Repr

/-- One more complete byte in front of a decoded frame. -/
def consByte (b : Byte) : XResult → XResult
  | .ok f => .ok ⟨b :: f.bytes, 8 + f.nbits⟩
  | .err e => .err e

/-- Nine-bit groups, parity checked, then a short rest (the loop of 42_bit_transceive.md R166). -/
def decodeGroups : LineBits → XResult
  | x0 :: x1 :: x2 :: x3 :: x4 :: x5 :: x6 :: x7 :: p :: rest =>
    let b := bitsToByte [x0, x1, x2, x3, x4, x5, x6, x7]
    if p = par b then consByte b (decodeGroups rest) else .err .parityError
  | [] => .ok ⟨[], 0⟩
  | rest => .ok ⟨[bitsToByte rest], rest.length⟩

/-- `LineDecode(L)` (42_bit_transceive.md R166), its checks in that order. -/
def lineDecode (bits : LineBits) : XResult :=
  if bits.length % 9 = 8 then .err .bitCountError
  else if Config.maxFrameLen < (bits.length + 8) / 9 then .err .bufferOverflow
  else decodeGroups bits

/-- The CRC check and removal of `Decode` (42_bit_transceive.md R163). -/
def checkCrcA (f : Frame) : XResult :=
  let k := f.nbits / 8
  if f.nbits % 8 ≠ 0 then .err .bitCountError
  else if k < 2 then .err .crcMismatch
  else if f.bytes.drop (k - 2) = crcBytes (crcA (f.bytes.take (k - 2))) then .ok ⟨f.bytes.take (k - 2), 8 * (k - 2)⟩
  else .err .crcMismatch

/-- A received line frame, with or without the CRC check (`Decode(Line(L))`, 42_bit_transceive.md R163). -/
def decodeLine (rxCrc : Bool) (bits : LineBits) : XResult :=
  match lineDecode bits with
  | .err e => .err e
  | .ok f => if rxCrc then checkCrcA f else .ok f

/-- `Decode(A)` (42_bit_transceive.md R163). -/
def decodeAnswer (rxCrc : Bool) : Answer → XResult
  | .line bits => decodeLine rxCrc bits
  | .rfTimeout => .err .rfTimeout
  | .framingError => .err .framingError
  | .bitCollision => .err .bitCollision
  | .ioError => .err .ioError

end Sys2Proof.Machine
end

