-- ==== Sys2Proof/Machine/Flags.lean ====
section
/-! DEFINITION. The codes and flag bytes a host reads (10_state.md R22 to R30, 60_exceptions.md R246) and every flag
computation: WARN bits, CFG bits. -/

namespace Sys2Proof.Machine

/-- The number of an error kind (60_exceptions.md R246). -/
def errCode : ErrKind → Byte
  | .noError => 0x00
  | .timeout => 0x01
  | .crcMismatch => 0x02
  | .parityError => 0x03
  | .bitCountError => 0x04
  | .framingError => 0x05
  | .bitCollision => 0x06
  | .bufferTooSmall => 0x07
  | .bufferOverflow => 0x08
  | .rfTimeout => 0x09
  | .rfProtocolError => 0x0A
  | .invalidParameter => 0x0B
  | .commandNotSupported => 0x0C
  | .deviceNotSupported => 0x0D
  | .notImplemented => 0x0E
  | .aborted => 0x0F
  | .ioError => 0x10

/-- The number of a sequencer state (10_state.md R23). -/
def asmCode : AsmState → Byte
  | .idle => 0x00
  | .reqSent => 0x01
  | .arbitration .cl1 => 0x02
  | .selected .cl1 => 0x03
  | .arbitration .cl2 => 0x04
  | .selected .cl2 => 0x05
  | .arbitration .cl3 => 0x06
  | .selected .cl3 => 0x07
  | .ratsSent => 0x08
  | .activated => 0x09
  | .noTag => 0x0A

/-- The value of `CL` (10_state.md R29). -/
def clCode : Option Level → Byte
  | none => 0x00
  | some n => BitVec.ofNat 8 (levelNum n)

/-- `STATUS.ERRF` (10_state.md R22): "always equal to that comparison". -/
def errFlag (s : State) : Bool := errCode s.err ≠ 0x00

/-- `WARN` as a byte (10_state.md R28). -/
def warnByte (w : Warn) : Byte := bitsToByte [w.bcc1, w.bcc2, w.bcc3, w.ct1, w.ct2]

/-- `STATUS.WARNF` (10_state.md R22): "always equal to that comparison". -/
def warnFlag (s : State) : Bool := warnByte s.warn ≠ 0x00

/-- `STATUS` as a byte (10_state.md R22); bit 7 reads 0. -/
def statusByte (s : State) : Byte :=
  bitsToByte [s.busy, s.done, errFlag s, s.matched, s.found, warnFlag s, s.abortReq]

/-- `CFG` as a byte (10_state.md R25); bits 7:4 read 0. -/
def cfgByte (c : Cfg) : Byte := bitsToByte [c.handleCrc, c.easyFraming, c.autoIso14443_4, c.infiniteSelect]

/-- `SAK_FLAGS` (10_state.md R30): a pure function of `SAK`. -/
def sakFlags (sak : Byte) : Byte := bitsToByte [cascade sak, atsSupported sak]

/-- `CFG[option] <- enabled` (44_system.md R234), for an option index 0..3; any other index changes nothing. -/
def setOption (c : Cfg) (option : Byte) (enabled : Bool) : Cfg :=
  match option.toNat with
  | 0 => { c with handleCrc := enabled }
  | 1 => { c with easyFraming := enabled }
  | 2 => { c with autoIso14443_4 := enabled }
  | 3 => { c with infiniteSelect := enabled }
  | _ => c

/-- `WARN.BCC<n> <- v` (10_state.md R28). -/
def setBccWarn (w : Warn) (n : Level) (v : Bool) : Warn :=
  match n with
  | .cl1 => { w with bcc1 := v }
  | .cl2 => { w with bcc2 := v }
  | .cl3 => { w with bcc3 := v }

/-- `WARN.BCC<n>` (10_state.md R28). -/
def bccWarn (w : Warn) : Level → Bool
  | .cl1 => w.bcc1
  | .cl2 => w.bcc2
  | .cl3 => w.bcc3

/-- `WARN.CT<n> <- 1` for a non-final level (10_state.md R28); level 3 is always final and has no such bit. -/
def setCtWarn (w : Warn) (n : Level) : Warn :=
  match n with
  | .cl1 => { w with ct1 := true }
  | .cl2 => { w with ct2 := true }
  | .cl3 => w

end Sys2Proof.Machine
end

