-- ==== Sys2Proof/Machine/Ops.lean ====
section
/-! DEFINITION. The named operations over the state: buffers and register arrays, the command handshake (44_system.md R230,
R231), RAISING AN ERROR as one shared operation (60_exceptions.md R248; there is no return, R250), and what several commands
share (43_activation.md R193; 42_bit_transceive.md R163, R173). -/

namespace Sys2Proof.Machine

/-! ### Buffers and register arrays -/

/-- The address is one of the `n` from `lo`. -/
def inRange (a lo n : Nat) : Bool := lo ≤ a && a < lo + n

/-- How many times the buffer that holds this host address has become unspecified (log 2). -/
def State.genAt (s : State) (a : Nat) : Nat :=
  if inRange a Config.txBase Config.maxFrameLen then s.txGen
  else if inRange a Config.rxBase Config.maxFrameLen then s.rxGen
  else if inRange a Config.atsBase Config.maxFrameLen then s.atsGen
  else 0

/-- What an address of a buffer holds; where it holds no value, a FREE byte (93_implementation_defined.md U3, U4). The one
definition of what an unlisted address reads as. -/
def State.bufByte (s : State) (a : Nat) : Byte :=
  match Memory.get s.mem a with
  | some v => v
  | none => Config.ramByte (s.genAt a) a

/-- `n` consecutive bytes of a buffer from a host address. -/
def State.bufBytes (s : State) (a : Nat) : Nat → List Byte
  | 0 => []
  | n + 1 => s.bufByte a :: s.bufBytes (a + 1) n

/-- `TXBUF[i]`. -/
def State.txByte (s : State) (i : Nat) : Byte := s.bufByte (Config.txBase + i)

/-- `TXBUF[i..i+n)`. -/
def State.txBytes (s : State) (i n : Nat) : List Byte := s.bufBytes (Config.txBase + i) n

/-- `RXBUF[0..n)`. -/
def State.rxBytes (s : State) (n : Nat) : List Byte := s.bufBytes Config.rxBase n

/-- `ATSBUF[0..n)`. -/
def State.atsBytes (s : State) (n : Nat) : List Byte := s.bufBytes Config.atsBase n

/-- `TXBUF[i..) <- bytes`. -/
def State.writeTx (s : State) (i : Nat) (bytes : List Byte) : State :=
  { s with mem := Memory.putList s.mem (Config.txBase + i) bytes }

/-- A frame into `TXBUF` from index 0 and its length into `TX_BITS`; every other byte of `TXBUF` stays (41_frame_codec.md
R130). -/
def State.putTxFrame (s : State) (f : Frame) : State :=
  { s.writeTx 0 f.bytes with txBits := BitVec.ofNat 16 f.nbits }

/-- The received frame into `RXBUF` and `RX_BITS`; the bytes beyond the frame become unspecified (42_bit_transceive.md R163,
R173). -/
def State.landRx (s : State) (f : Frame) : State :=
  { s with
    mem := Memory.putList (Memory.forget s.mem Config.rxBase Config.maxFrameLen) Config.rxBase f.bytes
    rxGen := s.rxGen + 1
    rxBits := BitVec.ofNat 16 f.nbits }

/-- After an exchange that returned `Err`: `RX_BITS <- 0`, the contents of `RXBUF` unspecified (42_bit_transceive.md R173). -/
def State.dropRx (s : State) : State :=
  { s with
    mem := Memory.forget s.mem Config.rxBase Config.maxFrameLen
    rxGen := s.rxGen + 1
    rxBits := 0 }

/-- The ATS into `ATSBUF` and `ATS_LEN`; the bytes beyond it are unspecified (43_activation.md R209, 10_state.md R34). -/
def State.landAts (s : State) (ats : List Byte) : State :=
  { s with
    mem := Memory.putList (Memory.forget s.mem Config.atsBase Config.maxFrameLen) Config.atsBase ats
    atsGen := s.atsGen + 1
    atsLen := BitVec.ofNat 16 ats.length }

/-- The four bytes of a level in `RAWUID` (10_state.md R33). -/
def rawPart (raw : Vector Byte 12) : Level → List Byte
  | .cl1 => [raw[0], raw[1], raw[2], raw[3]]
  | .cl2 => [raw[4], raw[5], raw[6], raw[7]]
  | .cl3 => [raw[8], raw[9], raw[10], raw[11]]

/-- `RAWUID[4(n-1) .. 4n) <- u0 u1 u2 u3` (10_state.md R33). -/
def setRawPart (raw : Vector Byte 12) (n : Level) (u0 u1 u2 u3 : Byte) : Vector Byte 12 :=
  match n with
  | .cl1 => (((raw.set 0 u0).set 1 u1).set 2 u2).set 3 u3
  | .cl2 => (((raw.set 4 u0).set 5 u1).set 6 u2).set 7 u3
  | .cl3 => (((raw.set 8 u0).set 9 u1).set 10 u2).set 11 u3

/-- The first byte of a level in `RAWUID`, where the cascade tag stands (43_activation.md R204). -/
def rawFirst (raw : Vector Byte 12) : Level → Byte
  | .cl1 => raw[0]
  | .cl2 => raw[4]
  | .cl3 => raw[8]

/-- `RAWBCC[n-1]` (10_state.md R33). -/
def rawBccAt (v : Vector Byte 3) : Level → Byte
  | .cl1 => v[0]
  | .cl2 => v[1]
  | .cl3 => v[2]

/-- `RAWBCC[n-1] <- b` (10_state.md R33). -/
def setRawBcc (v : Vector Byte 3) (n : Level) (b : Byte) : Vector Byte 3 :=
  match n with
  | .cl1 => v.set 0 b
  | .cl2 => v.set 1 b
  | .cl3 => v.set 2 b

/-- A UID of at most 10 bytes with the bytes above its length 0x00 (10_state.md R32). -/
def uidFill (u : List Byte) : Vector Byte 10 :=
  #v[u.getD 0 0, u.getD 1 0, u.getD 2 0, u.getD 3 0, u.getD 4 0, u.getD 5 0, u.getD 6 0, u.getD 7 0, u.getD 8 0, u.getD 9 0]

/-- `UID <- UidAssemble(RAWUID, n)` and `UID_LEN` (41_frame_codec.md R143, 43_activation.md R206). -/
def State.assembleUid (s : State) (n : Level) : State :=
  { s with
    uid := uidFill (uidAssemble s.rawUid n)
    uidLen := BitVec.ofNat 8 (uidAssemble s.rawUid n).length }

/-- The five bytes of an anti-collision answer into `RAWUID` and `RAWBCC` (41_frame_codec.md R140, 43_activation.md R199). -/
def State.storeAnticoll (s : State) (n : Level) (a : List Byte) : State :=
  { s with
    rawUid := setRawPart s.rawUid n (a.getD 0 0) (a.getD 1 0) (a.getD 2 0) (a.getD 3 0)
    rawBcc := setRawBcc s.rawBcc n (a.getD 4 0) }

/-! ### The command handshake -/

/-- Acceptance of an opcode (44_system.md R230). The operands are sampled by each command's own rule, in this same step. -/
def State.accept (s : State) (op : Byte) : State :=
  { s with
    cmd := op
    busy := true
    done := false
    err := .noError
    matched := false
    found := false
    abortReq := false }

/-- `complete` (44_system.md R231). No exchange is outstanding and the command stands nowhere any more. -/
def State.complete (s : State) : State :=
  { s with busy := false, done := true, abortReq := false, xch := none, run := none }

/-- `raise E` (60_exceptions.md R248): the one thing taking an error does. Nothing is saved, control goes nowhere. -/
def State.raise (s : State) (e : ErrKind) : State :=
  { s with err := e, busy := false, done := true, abortReq := false, xch := none, run := none }

/-- The host issues a command: accepted while `BUSY = 0`, then the rule of its opcode runs in the same step (44_system.md
R230). While `BUSY = 1` it is a move the host never makes (93_implementation_defined.md U1). -/
def issue (op : Byte) (rule : State → State) (s : State) : Outcome :=
  if s.busy then .refused .hostWriteWhileBusy else .next (rule (s.accept op))

/-- A transceiving command begins: the exchange `d` is due, `TIMEOUT` and `RATS_PARAM` are sampled (44_system.md R230). -/
def State.beginRun (s : State) (job : Job) (d : Due) : State :=
  { s with run := some ⟨job, .transmit d, s.timeout, s.ratsParam⟩ }

/-- The command in progress goes on to another point. -/
def State.goTo (s : State) (r : Run) (p : Point) : State := { s with run := some { r with point := p } }

/-! ### What several commands share -/

/-- `ClearTransaction()` (43_activation.md R193). -/
def State.clearTransaction (s : State) : State :=
  { s with
    cl := none
    sak := 0x00
    atqa0 := 0x00
    atqa1 := 0x00
    uid := Vector.replicate 10 0x00
    uidLen := 0x00
    rawUid := Vector.replicate 12 0x00
    rawBcc := Vector.replicate 3 0x00
    atsLen := 0x0000
    warn := Warn.none
    rxBits := 0x0000 }

/-- Every element at its reset value, buffer contents unspecified (70_reset_and_hazards.md R281). The moves still to come,
what the RF port and the host port have carried, and the counters of the free values go on (U14, logs 2, 18). -/
def State.clearAll (s : State) : State :=
  { State.reset with
    inbox := s.inbox
    rfOut := s.rfOut
    readData := s.readData
    fresh := s.fresh
    txGen := s.txGen + 1
    rxGen := s.rxGen + 1
    atsGen := s.atsGen + 1 }

end Sys2Proof.Machine
end

