-- ==== Sys2Proof/Machine/Operands.lean ====
section
/-! DEFINITION. The operand forms of the host commands (30_encoding.md R81): source select, level, whole-byte frames. -/

namespace Sys2Proof.Machine

/-- The frame `(TXBUF, TX_BITS)` (10_state.md R37). -/
def txFrame (s : State) : Frame := ⟨s.txBytes 0 (ceil8 s.txBits.toNat), s.txBits.toNat⟩

/-- The frame `(RXBUF, RX_BITS)` (10_state.md R38). -/
def rxFrame (s : State) : Frame := ⟨s.rxBytes (ceil8 s.rxBits.toNat), s.rxBits.toNat⟩

/-- `ATSBUF[0..ATS_LEN)` taken as a frame (30_encoding.md R81a). -/
def atsFrame (s : State) : Frame := ⟨s.atsBytes s.atsLen.toNat, 8 * s.atsLen.toNat⟩

/-- `Src(src)` (30_encoding.md R81a): none for 3..255, which raise `InvalidParameter`. -/
def source (src : Byte) (s : State) : Option Frame :=
  match src.toNat with
  | 0 => some (txFrame s)
  | 1 => some (rxFrame s)
  | 2 => some (atsFrame s)
  | _ => none

/-- The level an operand names (30_encoding.md R81b): none for any value but 1, 2, 3. -/
def levelOperand (lvl : Byte) : Option Level :=
  match lvl.toNat with
  | 1 => some .cl1
  | 2 => some .cl2
  | 3 => some .cl3
  | _ => none

/-- The bytes of a frame that must be whole bytes and within bounds (40_crc_engine.md R113, R115). -/
def wholeBytes (f : Frame) : Option (List Byte) :=
  if Config.maxFrameBits < f.nbits ∨ f.nbits % 8 ≠ 0 then none else some f.bytes

/-- The bytes of the source frame of a CRC-engine command, or none where it raises `InvalidParameter`
(40_crc_engine.md R113 to R119). -/
def sourceBytes (src : Byte) (s : State) : Option (List Byte) :=
  match source src s with
  | none => none
  | some f => wholeBytes f

end Sys2Proof.Machine
end

