-- ==== Sys2Proof/Machine/CrcEngine.lean ====
section
/-! DEFINITION. The commands of unit 1, the CRC engine (40_crc_engine.md R113 to R119). -/

namespace Sys2Proof.Machine

/-- A CRC over the source frame into `CRC_RES` (40_crc_engine.md R113, R114). -/
def crcRule (crc : List Byte → Half) (src : Byte) (s : State) : State :=
  match sourceBytes src s with
  | none => s.raise .invalidParameter
  | some a => { s with crcRes := crc a }.complete

/-- CRC_A (40_crc_engine.md R113). -/
def execCrcA (src : Byte) (s : State) : Outcome := issue 0x10 (crcRule crcA src) s

/-- CRC_B (40_crc_engine.md R114). -/
def execCrcB (src : Byte) (s : State) : Outcome := issue 0x11 (crcRule crcB src) s

/-- The two result bytes appended to the frame in `TXBUF` (40_crc_engine.md R115, R116). -/
def crcAppendRule (crc : List Byte → Half) (s : State) : State :=
  match wholeBytes (txFrame s) with
  | none => s.raise .invalidParameter
  | some a =>
    let n := s.txBits.toNat / 8
    if Config.maxFrameLen < n + 2 then s.raise .bufferTooSmall
    else { s.writeTx n (crcBytes (crc a)) with txBits := s.txBits + 16, crcRes := crc a }.complete

/-- CRC_A_APPEND (40_crc_engine.md R115). -/
def execCrcAAppend (s : State) : Outcome := issue 0x12 (crcAppendRule crcA) s

/-- CRC_B_APPEND (40_crc_engine.md R116). -/
def execCrcBAppend (s : State) : Outcome := issue 0x13 (crcAppendRule crcB) s

/-- The last two bytes of the source frame against the CRC of the rest (40_crc_engine.md R117, R118). A mismatch is no
error. -/
def crcCheckRule (crc : List Byte → Half) (src : Byte) (s : State) : State :=
  match sourceBytes src s with
  | none => s.raise .invalidParameter
  | some a =>
    if a.length < 2 then { s with matched := false }.complete
    else
      let c := crc (a.take (a.length - 2))
      { s with crcRes := c, matched := a.drop (a.length - 2) = crcBytes c }.complete

/-- CRC_A_CHECK (40_crc_engine.md R117). -/
def execCrcACheck (src : Byte) (s : State) : Outcome := issue 0x14 (crcCheckRule crcA src) s

/-- CRC_B_CHECK (40_crc_engine.md R118). -/
def execCrcBCheck (src : Byte) (s : State) : Outcome := issue 0x15 (crcCheckRule crcB src) s

/-- The historical bytes of the source frame, as an offset and a length (40_crc_engine.md R119). "none" is no error. -/
def locateHistRule (src : Byte) (s : State) : State :=
  match sourceBytes src s with
  | none => s.raise .invalidParameter
  | some a =>
    match locateHistorical a with
    | some (off, len) => { s with found := true, hbOff := BitVec.ofNat 16 off, hbLen := BitVec.ofNat 16 len }.complete
    | none => { s with found := false, hbOff := 0, hbLen := 0 }.complete

/-- LOCATE_HIST (40_crc_engine.md R119). -/
def execLocateHist (src : Byte) (s : State) : Outcome := issue 0x16 (locateHistRule src) s

end Sys2Proof.Machine
end

