-- ==== Sys2Proof/WellFormed.lean ====
section
/-! DEFINITION. Which instructions have an encoding (`wellFormed`), and which host commands carry legal parameters
(`paramsLegal`: the legal values of the "fields" of spec/opcode_table.json, 60_exceptions.md R274). -/

namespace Sys2Proof

/-- The instruction has an encoding: every operand fits its field. Operands are bytes, so only the RATS answer can fail:
its length byte TL counts itself and the ATS in one byte (30_encoding.md R97). -/
def Instr.wellFormed : Instr → Bool
  | .ratsAnswer ats => ats.length ≤ 254
  | .nop | .initInitiator | .configure _ _ => true
  | .crcA _ | .crcB _ | .crcAAppend | .crcBAppend | .crcACheck _ | .crcBCheck _ | .locateHist _ => true
  | .buildReqa | .buildWupa _ | .buildAnticoll _ | .buildSelect _ _ | .buildHalt | .buildRats _ => true
  | .bccCalc | .parseAnticoll _ _ | .parseSak _ | .assembleUid _ => true
  | .xcvBits | .xcvBytes | .activate _ | .deselect | .poll _ _ => true
  | .reqa | .wupa | .wake40 | .anticollCl1 | .anticollCl2 | .anticollCl3 => true
  | .selectCl1 _ _ _ _ _ | .selectCl2 _ _ _ _ _ | .selectCl3 _ _ _ _ _ => true
  | .halt | .rats _ | .magic43 | .magic41 => true
  | .atqa _ _ | .anticollAnswer _ _ _ _ _ | .sakAnswer _ => true

/-- `src` is 0, 1 or 2 (30_encoding.md R81a). -/
def srcLegal (src : Byte) : Bool := src.toNat ≤ 2

/-- `lvl` is 1, 2 or 3 (30_encoding.md R81b). -/
def lvlLegal (lvl : Byte) : Bool := 1 ≤ lvl.toNat && lvl.toNat ≤ 3

/-- The parameter bytes are in the legal set of the command's row. Implicit operands (`TX_BITS`, `RX_BITS`) are not
parameters. -/
def Instr.paramsLegal : Instr → Bool
  | .configure option enabled => option.toNat ≤ 3 && enabled.toNat ≤ 1
  | .crcA src => srcLegal src
  | .crcB src => srcLegal src
  | .crcACheck src => srcLegal src
  | .crcBCheck src => srcLegal src
  | .locateHist src => srcLegal src
  | .buildWupa variant => variant.toNat ≤ 1
  | .buildAnticoll lvl => lvlLegal lvl
  | .buildSelect lvl fromRx => lvlLegal lvl && fromRx.toNat ≤ 1
  | .parseAnticoll lvl src => lvlLegal lvl && srcLegal src
  | .parseSak src => srcLegal src
  | .assembleUid levels => lvlLegal levels
  | .activate wake => wake.toNat ≤ 1
  | .poll attempts _ => attempts.toNat ≠ 0
  | .nop | .initInitiator | .crcAAppend | .crcBAppend | .buildReqa | .buildHalt | .buildRats _ | .bccCalc => true
  | .xcvBits | .xcvBytes | .deselect => true
  | .reqa | .wupa | .wake40 | .anticollCl1 | .anticollCl2 | .anticollCl3 => true
  | .selectCl1 _ _ _ _ _ | .selectCl2 _ _ _ _ _ | .selectCl3 _ _ _ _ _ => true
  | .halt | .rats _ | .magic43 | .magic41 => true
  | .atqa _ _ | .anticollAnswer _ _ _ _ _ | .sakAnswer _ | .ratsAnswer _ => true

end Sys2Proof
end

