-- ==== Sys2Proof/Decode.lean ====
section
/-! DEFINITION. The decoder, total on any frame, rejecting by name, and the encoder, both from 30_encoding.md: host command
words (R80, R82), transmitted frames (R86 to R93), received frames (R94 to R97). -/

namespace Sys2Proof

/-- Which encoding a bit pattern is read as. A received frame is "of that kind" only by what the block awaits
(30_encoding.md R84, 43_activation.md R190). -/
inductive FrameKind where
  | hostCommand
  | transmit
  | atqa
  | anticollAnswer
  | sakAnswer
  | ratsAnswer
deriving DecidableEq, Repr

/-- Why the decoder refuses a bit pattern. -/
inductive Reject where
  /-- the length is not that of any encoding of the kind asked for -/
  | wrongLength (nbits : Nat)
  /-- an opcode outside the map (30_encoding.md R83); the machine accepts it and raises `CommandNotSupported` -/
  | undefinedOpcode (op : Byte)
  /-- bytes that no transmitted-frame row has; XCV_BITS and XCV_BYTES still send them -/
  | notATransmitFrame
  /-- the last two bytes are not the CRC_A of the rest -/
  | badCrc
  /-- the first byte of a RATS answer is not its length -/
  | badLengthByte
deriving DecidableEq, Repr

/-- What the decoder answers. -/
inductive Decoded where
  | instr (i : Instr)
  | rejected (r : Reject)
deriving DecidableEq, Repr

namespace Machine

/-- The opcode map (30_encoding.md R82): the opcode alone selects the command. -/
def decodeOpcode (op p0 p1 : Byte) : Decoded :=
  match op.toNat with
  | 0x00 => .instr .nop
  | 0x01 => .instr .initInitiator
  | 0x02 => .instr (.configure p0 p1)
  | 0x10 => .instr (.crcA p0)
  | 0x11 => .instr (.crcB p0)
  | 0x12 => .instr .crcAAppend
  | 0x13 => .instr .crcBAppend
  | 0x14 => .instr (.crcACheck p0)
  | 0x15 => .instr (.crcBCheck p0)
  | 0x16 => .instr (.locateHist p0)
  | 0x20 => .instr .buildReqa
  | 0x21 => .instr (.buildWupa p0)
  | 0x22 => .instr (.buildAnticoll p0)
  | 0x23 => .instr (.buildSelect p0 p1)
  | 0x24 => .instr .buildHalt
  | 0x25 => .instr (.buildRats p0)
  | 0x26 => .instr .bccCalc
  | 0x27 => .instr (.parseAnticoll p0 p1)
  | 0x28 => .instr (.parseSak p0)
  | 0x29 => .instr (.assembleUid p0)
  | 0x30 => .instr .xcvBits
  | 0x31 => .instr .xcvBytes
  | 0x40 => .instr (.activate p0)
  | 0x41 => .instr .deselect
  | 0x42 => .instr (.poll p0 p1)
  | _ => .rejected (.undefinedOpcode op)

/-- The three bytes of a command word, opcode first (30_encoding.md R80). -/
def decodeHostCommand (f : Frame) : Decoded :=
  match f.nbits, f.bytes with
  | 24, [op, p0, p1] => decodeOpcode op p0 p1
  | n, _ => .rejected (.wrongLength n)

/-- A 7-bit frame, its unused bit ignored (30_encoding.md R86 to R88, 70_reset_and_hazards.md R295). -/
def decodeShortFrame (b : Byte) : Decoded :=
  if b &&& 0x7F = 0x26 then .instr .reqa
  else if b &&& 0x7F = 0x52 then .instr .wupa
  else if b &&& 0x7F = 0x40 then .instr .wake40
  else .rejected .notATransmitFrame

/-- A one-byte frame (30_encoding.md R93). -/
def decodeMagic (b : Byte) : Decoded :=
  if b = 0x43 then .instr .magic43 else if b = 0x41 then .instr .magic41 else .rejected .notATransmitFrame

/-- The cascade level a prefix byte names (30_encoding.md R98). -/
def levelOfSelCode (b : Byte) : Option Level :=
  if b = 0x93 then some .cl1 else if b = 0x95 then some .cl2 else if b = 0x97 then some .cl3 else none

/-- A two-byte frame: anti-collision SELECT (30_encoding.md R89). -/
def decodeAnticoll (b0 b1 : Byte) : Decoded :=
  if b1 = 0x20 then
    match levelOfSelCode b0 with
    | some .cl1 => .instr .anticollCl1
    | some .cl2 => .instr .anticollCl2
    | some .cl3 => .instr .anticollCl3
    | none => .rejected .notATransmitFrame
  else .rejected .notATransmitFrame

/-- A nine-byte frame: SELECT confirm, if its CRC_A is right (30_encoding.md R90). -/
def decodeSelect (b0 b1 u0 u1 u2 u3 bcc c0 c1 : Byte) : Decoded :=
  if b1 = 0x70 then
    if [c0, c1] = crcBytes (crcA [b0, b1, u0, u1, u2, u3, bcc]) then
      match levelOfSelCode b0 with
      | some .cl1 => .instr (.selectCl1 u0 u1 u2 u3 bcc)
      | some .cl2 => .instr (.selectCl2 u0 u1 u2 u3 bcc)
      | some .cl3 => .instr (.selectCl3 u0 u1 u2 u3 bcc)
      | none => .rejected .notATransmitFrame
    else .rejected .badCrc
  else .rejected .notATransmitFrame

/-- A four-byte frame: HALT or RATS, if its CRC_A is right (30_encoding.md R91, R92). -/
def decodeHaltRats (b0 b1 c0 c1 : Byte) : Decoded :=
  if [c0, c1] = crcBytes (crcA [b0, b1]) then
    if b0 = 0xE0 then .instr (.rats b1)
    else if b0 = 0x50 ∧ b1 = 0x00 then .instr .halt
    else .rejected .notATransmitFrame
  else .rejected .badCrc

/-- The transmitted-frame rows (30_encoding.md R86 to R93). -/
def decodeTransmit (f : Frame) : Decoded :=
  match f.nbits, f.bytes with
  | 7, [b] => decodeShortFrame b
  | 8, [b] => decodeMagic b
  | 16, [b0, b1] => decodeAnticoll b0 b1
  | 32, [b0, b1, c0, c1] => decodeHaltRats b0 b1 c0 c1
  | 72, [b0, b1, u0, u1, u2, u3, bcc, c0, c1] => decodeSelect b0 b1 u0 u1 u2 u3 bcc c0 c1
  | n, _ => .rejected (.wrongLength n)

/-- An ATQA: any two bytes (30_encoding.md R94). -/
def decodeAtqa (f : Frame) : Decoded :=
  match f.nbits, f.bytes with
  | 16, [a0, a1] => .instr (.atqa a0 a1)
  | n, _ => .rejected (.wrongLength n)

/-- An anti-collision answer: any five bytes (30_encoding.md R95). -/
def decodeAnticollAnswer (f : Frame) : Decoded :=
  match f.nbits, f.bytes with
  | 40, [u0, u1, u2, u3, bcc] => .instr (.anticollAnswer u0 u1 u2 u3 bcc)
  | n, _ => .rejected (.wrongLength n)

/-- A SAK with its CRC_A (30_encoding.md R96). -/
def decodeSakAnswer (f : Frame) : Decoded :=
  match f.nbits, f.bytes with
  | 24, [sak, c0, c1] => if [c0, c1] = crcBytes (crcA [sak]) then .instr (.sakAnswer sak) else .rejected .badCrc
  | n, _ => .rejected (.wrongLength n)

/-- A RATS answer with its CRC_A: TL counts itself and the ATS (30_encoding.md R97). -/
def decodeRatsAnswer (f : Frame) : Decoded :=
  if f.nbits = 8 * f.bytes.length then
    let payload := f.bytes.take (f.bytes.length - 2)
    if f.bytes.drop (f.bytes.length - 2) = crcBytes (crcA payload) then
      match payload with
      | [] => .rejected .badLengthByte
      | tl :: ats => if tl.toNat = ats.length + 1 then .instr (.ratsAnswer ats) else .rejected .badLengthByte
    else .rejected .badCrc
  else .rejected (.wrongLength f.nbits)

end Machine

/-- The decoder: reads a frame as one of the encodings, total, rejecting by name. -/
def decode : FrameKind → Frame → Decoded
  | .hostCommand, f => Machine.decodeHostCommand f
  | .transmit, f => Machine.decodeTransmit f
  | .atqa, f => Machine.decodeAtqa f
  | .anticollAnswer, f => Machine.decodeAnticollAnswer f
  | .sakAnswer, f => Machine.decodeSakAnswer f
  | .ratsAnswer, f => Machine.decodeRatsAnswer f

/-- Which of the encodings an instruction belongs to. -/
def Instr.kind : Instr → FrameKind
  | .nop | .initInitiator | .configure _ _ => .hostCommand
  | .crcA _ | .crcB _ | .crcAAppend | .crcBAppend | .crcACheck _ | .crcBCheck _ | .locateHist _ => .hostCommand
  | .buildReqa | .buildWupa _ | .buildAnticoll _ | .buildSelect _ _ | .buildHalt | .buildRats _ => .hostCommand
  | .bccCalc | .parseAnticoll _ _ | .parseSak _ | .assembleUid _ => .hostCommand
  | .xcvBits | .xcvBytes | .activate _ | .deselect | .poll _ _ => .hostCommand
  | .reqa | .wupa | .wake40 | .anticollCl1 | .anticollCl2 | .anticollCl3 => .transmit
  | .selectCl1 _ _ _ _ _ | .selectCl2 _ _ _ _ _ | .selectCl3 _ _ _ _ _ => .transmit
  | .halt | .rats _ | .magic43 | .magic41 => .transmit
  | .atqa _ _ => .atqa
  | .anticollAnswer _ _ _ _ _ => .anticollAnswer
  | .sakAnswer _ => .sakAnswer
  | .ratsAnswer _ => .ratsAnswer

/-- The command word of an opcode and its parameters, opcode first (30_encoding.md R80). -/
def commandWord (op p0 p1 : Byte) : Frame := ⟨[op, p0, p1], 24⟩

/-- The encoder: the command word of a host command (an ignored byte is encoded 0), the frame of a frame row. -/
def encode : Instr → Frame
  | .nop => commandWord 0x00 0 0
  | .initInitiator => commandWord 0x01 0 0
  | .configure option enabled => commandWord 0x02 option enabled
  | .crcA src => commandWord 0x10 src 0
  | .crcB src => commandWord 0x11 src 0
  | .crcAAppend => commandWord 0x12 0 0
  | .crcBAppend => commandWord 0x13 0 0
  | .crcACheck src => commandWord 0x14 src 0
  | .crcBCheck src => commandWord 0x15 src 0
  | .locateHist src => commandWord 0x16 src 0
  | .buildReqa => commandWord 0x20 0 0
  | .buildWupa variant => commandWord 0x21 variant 0
  | .buildAnticoll lvl => commandWord 0x22 lvl 0
  | .buildSelect lvl fromRx => commandWord 0x23 lvl fromRx
  | .buildHalt => commandWord 0x24 0 0
  | .buildRats param => commandWord 0x25 param 0
  | .bccCalc => commandWord 0x26 0 0
  | .parseAnticoll lvl src => commandWord 0x27 lvl src
  | .parseSak src => commandWord 0x28 src 0
  | .assembleUid levels => commandWord 0x29 levels 0
  | .xcvBits => commandWord 0x30 0 0
  | .xcvBytes => commandWord 0x31 0 0
  | .activate wake => commandWord 0x40 wake 0
  | .deselect => commandWord 0x41 0 0
  | .poll attempts period => commandWord 0x42 attempts period
  | .reqa => Machine.reqaFrame
  | .wupa => Machine.wupaFrame
  | .wake40 => Machine.wake40Frame
  | .anticollCl1 => Machine.anticollFrame .cl1
  | .anticollCl2 => Machine.anticollFrame .cl2
  | .anticollCl3 => Machine.anticollFrame .cl3
  | .selectCl1 u0 u1 u2 u3 bcc => Machine.selectFrame .cl1 u0 u1 u2 u3 bcc
  | .selectCl2 u0 u1 u2 u3 bcc => Machine.selectFrame .cl2 u0 u1 u2 u3 bcc
  | .selectCl3 u0 u1 u2 u3 bcc => Machine.selectFrame .cl3 u0 u1 u2 u3 bcc
  | .halt => Machine.haltFrame
  | .rats param => Machine.ratsFrame param
  | .magic43 => Machine.byteFrame [0x43]
  | .magic41 => Machine.byteFrame [0x41]
  | .atqa a0 a1 => Machine.byteFrame [a0, a1]
  | .anticollAnswer u0 u1 u2 u3 bcc => Machine.byteFrame [u0, u1, u2, u3, bcc]
  | .sakAnswer sak => Machine.frameWithCrcA [sak]
  | .ratsAnswer ats => Machine.ratsAnswerFrame ats

/-- The `n` bytes of a number, least significant byte first: a frame's byte 0 is bits 7..0 of its number. -/
def bytesOfNat : Nat → Nat → List Byte
  | 0, _ => []
  | n + 1, w => BitVec.ofNat 8 w :: bytesOfNat n (w / 256)

/-- The 24-bit command word of a number: opcode in bits 23..16 (30_encoding.md R80). -/
def commandOfNat (w : Nat) : Frame :=
  commandWord (BitVec.ofNat 8 (w / 65536)) (BitVec.ofNat 8 (w / 256)) (BitVec.ofNat 8 w)

/-- The instruction, if the decoder gives one. -/
def Decoded.toOption : Decoded → Option Instr
  | .instr i => some i
  | .rejected _ => none

/-- The first of several readings of a number as a frame that the decoder accepts. -/
def firstDecoded : List (FrameKind × Frame) → Option Instr
  | [] => none
  | (k, f) :: rest =>
    match decode k f with
    | .instr i => some i
    | .rejected _ => firstDecoded rest

/-- The readings of a number of `nbits` bits: 24 bits are a host command word, or, if their opcode is not in the map, a SAK with
its CRC_A; any other length is a frame, read first as a transmitted frame (7-bit frames occupy one whole byte), then as a
received one (log 22). -/
def tableReadings (nbits w : Nat) : List (FrameKind × Frame) :=
  let bytes := bytesOfNat ((nbits + 7) / 8) w
  if nbits = 24 then [(.hostCommand, commandOfNat w), (.sakAnswer, ⟨bytes, nbits⟩)]
  else [(.transmit, ⟨bytes, nbits⟩), (.transmit, ⟨bytes, nbits - 1⟩), (.atqa, ⟨bytes, nbits⟩),
    (.anticollAnswer, ⟨bytes, nbits⟩), (.ratsAnswer, ⟨bytes, nbits⟩)]

/-- The instruction the decoder reads from an instruction of `nbits` bits whose bits are `w`, numbered as
spec/opcode_table.json numbers them. -/
def decodeTableWord (nbits w : Nat) : Option Instr := firstDecoded (tableReadings nbits w)

end Sys2Proof
end

