-- ==== Sys2Proof/Machine/Codec.lean ====
section
/-! DEFINITION. The commands of unit 2, the frame codec (41_frame_codec.md R130 to R143). -/

namespace Sys2Proof.Machine

/-- The CRC that stands in the last two bytes of a built frame, as a 16-bit value. -/
def frameCrc (f : Frame) : Half :=
  halfOf (f.bytes.getD (f.bytes.length - 2) 0) (f.bytes.getD (f.bytes.length - 1) 0)

/-- A frame that carries a CRC into `TXBUF`, `TX_BITS` and `CRC_RES` (41_frame_codec.md R130). -/
def State.putCrcFrame (s : State) (f : Frame) : State := { s.putTxFrame f with crcRes := frameCrc f }

/-- BUILD_REQA (41_frame_codec.md R131). -/
def execBuildReqa (s : State) : Outcome := issue 0x20 (fun s => (s.putTxFrame reqaFrame).complete) s

/-- BUILD_WUPA's rule (41_frame_codec.md R132). -/
def buildWupaRule (variant : Byte) (s : State) : State :=
  if variant = 0 then (s.putTxFrame wupaFrame).complete
  else if variant = 1 then (s.putTxFrame wake40Frame).complete
  else s.raise .invalidParameter

/-- BUILD_WUPA (41_frame_codec.md R132). -/
def execBuildWupa (variant : Byte) (s : State) : Outcome := issue 0x21 (buildWupaRule variant) s

/-- BUILD_ANTICOLL's rule (41_frame_codec.md R133). -/
def buildAnticollRule (lvl : Byte) (s : State) : State :=
  match levelOperand lvl with
  | none => s.raise .invalidParameter
  | some n => (s.putTxFrame (anticollFrame n)).complete

/-- BUILD_ANTICOLL (41_frame_codec.md R133). -/
def execBuildAnticoll (lvl : Byte) (s : State) : Outcome := issue 0x22 (buildAnticollRule lvl) s

/-- A SELECT confirm with the five UID and BCC bytes that stand in `TXBUF[2..7)`, sent as found (41_frame_codec.md R134). -/
def buildSelectInPlace (n : Level) (s : State) : State :=
  (s.putCrcFrame (selectFrame n (s.txByte 2) (s.txByte 3) (s.txByte 4) (s.txByte 5) (s.txByte 6))).complete

/-- BUILD_SELECT's rule (41_frame_codec.md R134). -/
def buildSelectRule (lvl fromRx : Byte) (s : State) : State :=
  match levelOperand lvl with
  | none => s.raise .invalidParameter
  | some n =>
    if fromRx = 1 then
      if s.rxBits.toNat ≠ 40 then s.raise .invalidParameter
      else buildSelectInPlace n (s.writeTx 2 (s.rxBytes 5))
    else if fromRx = 0 then buildSelectInPlace n s
    else s.raise .invalidParameter

/-- BUILD_SELECT (41_frame_codec.md R134). -/
def execBuildSelect (lvl fromRx : Byte) (s : State) : Outcome := issue 0x23 (buildSelectRule lvl fromRx) s

/-- BUILD_HALT (41_frame_codec.md R135). -/
def execBuildHalt (s : State) : Outcome := issue 0x24 (fun s => (s.putCrcFrame haltFrame).complete) s

/-- BUILD_RATS (41_frame_codec.md R136). -/
def execBuildRats (param : Byte) (s : State) : Outcome :=
  issue 0x25 (fun s => (s.putCrcFrame (ratsFrame param)).complete) s

/-- BCC_CALC's rule (41_frame_codec.md R139). -/
def bccCalcRule (s : State) : State :=
  (s.writeTx 6 [bcc (s.txByte 2) (s.txByte 3) (s.txByte 4) (s.txByte 5)]).complete

/-- BCC_CALC (41_frame_codec.md R139). -/
def execBccCalc (s : State) : Outcome := issue 0x26 bccCalcRule s

/-- PARSE_ANTICOLL's rule (41_frame_codec.md R140): the checks in that order; a BCC mismatch is no error. -/
def parseAnticollRule (lvl src : Byte) (s : State) : State :=
  match levelOperand lvl with
  | none => s.raise .invalidParameter
  | some n =>
    match source src s with
    | none => s.raise .invalidParameter
    | some f =>
      if f.nbits ≠ 40 then s.raise .invalidParameter
      else
        { s.storeAnticoll n f.bytes with
          warn := setBccWarn s.warn n (!bccOk f.bytes)
          matched := bccOk f.bytes }.complete

/-- PARSE_ANTICOLL (41_frame_codec.md R140). -/
def execParseAnticoll (lvl src : Byte) (s : State) : Outcome := issue 0x27 (parseAnticollRule lvl src) s

/-- PARSE_SAK's rule (41_frame_codec.md R141). -/
def parseSakRule (src : Byte) (s : State) : State :=
  match source src s with
  | none => s.raise .invalidParameter
  | some f => if f.nbits ≠ 8 then s.raise .invalidParameter else { s with sak := f.bytes.getD 0 0 }.complete

/-- PARSE_SAK (41_frame_codec.md R141). -/
def execParseSak (src : Byte) (s : State) : Outcome := issue 0x28 (parseSakRule src) s

/-- ASSEMBLE_UID's rule (41_frame_codec.md R143): both cascade-tag bits are assigned. -/
def assembleUidRule (levels : Byte) (s : State) : State :=
  match levelOperand levels with
  | none => s.raise .invalidParameter
  | some n =>
    { s.assembleUid n with
      warn := { s.warn with
        ct1 := n ≠ Level.cl1 ∧ s.rawUid[0] ≠ Config.cascadeTag
        ct2 := n = Level.cl3 ∧ s.rawUid[4] ≠ Config.cascadeTag } }.complete

/-- ASSEMBLE_UID (41_frame_codec.md R143). -/
def execAssembleUid (levels : Byte) (s : State) : Outcome := issue 0x29 (assembleUidRule levels) s

end Sys2Proof.Machine
end

