-- ==== Sys2Proof/Machine/Transceive.lean ====
section
/-! DEFINITION. Unit 3, the parity/framing handler: the transmit step of an exchange (42_bit_transceive.md R163 steps 1 to 3)
and the commands XCV_BITS and XCV_BYTES (R168, R169). -/

namespace Sys2Proof.Machine

/-! ### Which frame is due, and handing it over -/

/-- The wake-up frame of the command in progress (43_activation.md R194; POLL always sends REQA, R214). -/
def wakeFrame : Job → Frame
  | .activate true => wupaFrame
  | .activate false => reqaFrame
  | .xcvBits => reqaFrame
  | .xcvBytes _ => reqaFrame
  | .deselect => reqaFrame
  | .poll _ => reqaFrame

/-- The frame XCV_BITS or XCV_BYTES sends: `(TXBUF, TX_BITS)`, with its CRC_A when HANDLE_CRC was sampled as 1
(42_bit_transceive.md R168, R169). -/
def rawFrame (job : Job) (s : State) : Frame :=
  match job with
  | .xcvBytes true =>
    ⟨(txFrame s).bytes ++ crcBytes (crcA (txFrame s).bytes), (txFrame s).nbits + 16⟩
  | .xcvBytes false => txFrame s
  | .xcvBits => txFrame s
  | .activate _ => txFrame s
  | .deselect => txFrame s
  | .poll _ => txFrame s

/-- The SELECT confirm of a level: the anti-collision answer verbatim (43_activation.md R201). -/
def asmSelectFrame (n : Level) (s : State) : Frame :=
  selectFrame n ((rawPart s.rawUid n).getD 0 0) ((rawPart s.rawUid n).getD 1 0) ((rawPart s.rawUid n).getD 2 0)
    ((rawPart s.rawUid n).getD 3 0) (rawBccAt s.rawBcc n)

/-- The frame of an exchange (43_activation.md R190). -/
def frameFor (r : Run) (d : Due) (s : State) : Frame :=
  match d with
  | .raw => rawFrame r.job s
  | .wake => wakeFrame r.job
  | .anticoll n => anticollFrame n
  | .select n => asmSelectFrame n s
  | .rats => ratsFrame r.ratsParam
  | .halt => haltFrame

/-- Whether the answer's CRC_A is checked and removed (43_activation.md R190, R213; 42_bit_transceive.md R168, R169). -/
def rxCrcFor (r : Run) : Due → Bool
  | .raw => r.job = .xcvBytes true
  | .wake => false
  | .anticoll _ => false
  | .select _ => true
  | .rats => true
  | .halt => false

/-- The registers a command writes as it hands a frame to the RF port (43_activation.md R194, R197, R201, R207, R213; XCV_BITS
and XCV_BYTES write none, 42_bit_transceive.md R168, R169). -/
def prepareSend (d : Due) (f : Frame) (s : State) : State :=
  match d with
  | .raw => s
  | .wake => { s.putTxFrame f with asm := .reqSent }
  | .anticoll n => { s.putTxFrame f with cl := some n, asm := .arbitration n }
  | .select n => { s.putCrcFrame f with asm := .selected n }
  | .rats => { s.putCrcFrame f with asm := .ratsSent }
  | .halt => s.putCrcFrame f

/-- Steps 1 to 3 of an exchange (42_bit_transceive.md R163): encode, open `XCH`, `RfSend`. -/
def State.openExchange (s : State) (r : Run) (d : Due) (f : Frame) : State :=
  { s with
    xch := some ⟨frameLine f, rxCrcFor r d, r.timeout⟩
    rfOut := s.rfOut ++ [frameLine f]
    run := some { r with point := .await d } }

/-- The frame the block is about to hand to the RF port, if it is about to hand one over. -/
def dueFrame (s : State) : Option Frame :=
  match s.run with
  | some ⟨job, .transmit d, t, p⟩ => some (frameFor ⟨job, .transmit d, t, p⟩ d s)
  | some ⟨_, .await _, _, _⟩ => none
  | some ⟨_, .pause, _, _⟩ => none
  | none => none

/-- Hand the due frame to the RF port; nothing where no frame is due. -/
def sendDue (s : State) : State :=
  match s.run with
  | some ⟨job, .transmit d, t, p⟩ =>
    let r : Run := ⟨job, .transmit d, t, p⟩
    (prepareSend d (frameFor r d s) s).openExchange r d (frameFor r d s)
  | some ⟨_, .await _, _, _⟩ => s
  | some ⟨_, .pause, _, _⟩ => s
  | none => s

/-- A given frame goes to the RF port: it must be the one the block is about to send. Two frames are the same if their line
frames are (the unused bits of a partial byte are ignored, 70_reset_and_hazards.md R295). -/
def sendFrame (f : Frame) (s : State) : Outcome :=
  match dueFrame s with
  | some g => if frameLine g = frameLine f then .next (sendDue s) else .refused .noFrameDue
  | none => .refused .noFrameDue

/-! ### The commands -/

/-- XCV_BITS's rule up to its exchange (42_bit_transceive.md R168). -/
def xcvBitsRule (s : State) : State :=
  if s.txBits.toNat = 0 ∨ Config.maxFrameBits < s.txBits.toNat then s.raise .invalidParameter
  else s.beginRun .xcvBits .raw

/-- XCV_BITS (42_bit_transceive.md R168). -/
def execXcvBits (s : State) : Outcome := issue 0x30 xcvBitsRule s

/-- XCV_BYTES's rule up to its exchange (42_bit_transceive.md R169). -/
def xcvBytesRule (s : State) : State :=
  if s.txBits.toNat = 0 ∨ Config.maxFrameBits < s.txBits.toNat ∨ s.txBits.toNat % 8 ≠ 0 then s.raise .invalidParameter
  else if s.cfg.handleCrc ∧ Config.maxFrameLen < s.txBits.toNat / 8 + 2 then s.raise .bufferTooSmall
  else s.beginRun (.xcvBytes s.cfg.handleCrc) .raw

/-- XCV_BYTES (42_bit_transceive.md R169). -/
def execXcvBytes (s : State) : Outcome := issue 0x31 xcvBytesRule s

/-- XCV_BITS and XCV_BYTES after their exchange (42_bit_transceive.md R168, R169). -/
def finishRaw (r : Run) (x : XResult) (s : State) : State :=
  match x with
  | .err e => s.dropRx.raise e
  | .ok f =>
    if r.job ≠ .xcvBits ∧ f.nbits % 8 ≠ 0 then s.dropRx.raise .bitCountError
    else (s.landRx f).complete

end Sys2Proof.Machine
end

