-- ==== Sys2Proof/Machine/Activation.lean ====
section
/-! DEFINITION. Unit 4, the activation sequencer (43_activation.md): ACTIVATE, DESELECT, POLL, and what each of their exchanges
does with its outcome. -/

namespace Sys2Proof.Machine

/-! ### The commands -/

/-- ACTIVATE's rule up to its first exchange (43_activation.md R191 to R194). -/
def activateRule (wake : Byte) (s : State) : State :=
  if wake = 0 then s.clearTransaction.beginRun (.activate false) .wake
  else if wake = 1 then s.clearTransaction.beginRun (.activate true) .wake
  else s.raise .invalidParameter

/-- ACTIVATE (43_activation.md R191). -/
def execActivate (wake : Byte) (s : State) : Outcome := issue 0x40 (activateRule wake) s

/-- DESELECT's rule: from `Activated` a HALT is due, otherwise the command ends at once (43_activation.md R213). -/
def deselectRule (s : State) : State :=
  if s.asm = .activated then s.beginRun .deselect .halt
  else { s.clearTransaction with asm := .idle }.complete

/-- DESELECT (43_activation.md R213). -/
def execDeselect (s : State) : Outcome := issue 0x41 deselectRule s

/-- POLL's rule up to its first exchange: attempt 1 (43_activation.md R214). -/
def pollRule (attempts : Byte) (s : State) : State :=
  if attempts = 0 then s.raise .invalidParameter
  else { s.clearTransaction with pollCnt := 1 }.beginRun (.poll attempts) .wake

/-- POLL (43_activation.md R214). The period is a pause of unmodelled length (60_exceptions.md R256, log 16). -/
def execPoll (attempts _period : Byte) (s : State) : Outcome := issue 0x42 (pollRule attempts) s

/-- POLL's pause is over: the next attempt (43_activation.md R214). -/
def nextAttempt (r : Run) (s : State) : State :=
  { s.clearTransaction with pollCnt := s.pollCnt + 1 }.goTo r (.transmit .wake)

/-! ### After an exchange -/

/-- Success (43_activation.md R210). -/
def State.activated (s : State) : State := { s with asm := .activated, found := true }.complete

/-- `RX_BITS <- 0; state <- NoTag` (43_activation.md R196). -/
def State.noTag (s : State) : State := { s.dropRx with asm := .noTag }

/-- No tag: ACTIVATE ends; POLL pauses if attempts are left (43_activation.md R196, R214). -/
def wakeSilence (r : Run) (s : State) : State :=
  match r.job with
  | .poll attempts => if s.pollCnt.toNat < attempts.toNat then s.noTag.goTo r .pause else s.noTag.complete
  | .activate _ => s.noTag.complete
  | .xcvBits => s.noTag.complete
  | .xcvBytes _ => s.noTag.complete
  | .deselect => s.noTag.complete

/-- The answer to the wake-up frame delivered, its two bytes into `ATQA` (43_activation.md R197). -/
def State.landAtqa (s : State) (f : Frame) : State :=
  { s.landRx f with atqa0 := f.bytes.getD 0 0, atqa1 := f.bytes.getD 1 0 }

/-- `StepWake` after its exchange (43_activation.md R195 to R197). -/
def finishWake (r : Run) (x : XResult) (s : State) : State :=
  match x with
  | .err e => if e = .timeout ∨ e = .rfTimeout then wakeSilence r s else s.dropRx.raise e
  | .ok f =>
    if f.nbits ≠ 16 then (s.landRx f).raise .rfProtocolError
    else (s.landAtqa f).goTo r (.transmit (.anticoll .cl1))

/-- The anti-collision answer of level `n` delivered, its five bytes into `RAWUID` and `RAWBCC`, a BCC that does not match into `WARN`
(43_activation.md R199, R200). -/
def State.landAnticoll (s : State) (n : Level) (f : Frame) : State :=
  { (s.landRx f).storeAnticoll n f.bytes with warn := if bccOk f.bytes then s.warn else setBccWarn s.warn n true }

/-- `StepAnticoll(n)` after its exchange (43_activation.md R199, R200). -/
def finishAnticoll (n : Level) (r : Run) (x : XResult) (s : State) : State :=
  match x with
  | .err e => s.dropRx.raise e
  | .ok f =>
    if f.nbits ≠ 40 then (s.landRx f).raise .rfProtocolError
    else (s.landAnticoll n f).goTo r (.transmit (.select n))

/-- The answer to a SELECT confirm delivered, its byte into `SAK` (43_activation.md R202). -/
def State.landSak (s : State) (f : Frame) : State := { s.landRx f with sak := f.bytes.getD 0 0 }

/-- `WARN.CT<n>` where the first byte of level `n`, which is not final, is not the cascade tag (43_activation.md R204). -/
def State.checkCascadeTag (s : State) (n : Level) : State :=
  { s with warn := if rawFirst s.rawUid n ≠ Config.cascadeTag then setCtWarn s.warn n else s.warn }

/-- A SAK with the cascade bit set: the cascade-tag check and the next level, or the error at level 3
(43_activation.md R203 to R205). -/
def nextLevel (n : Level) (r : Run) (s : State) : State :=
  match levelNext n with
  | none => s.raise .rfProtocolError
  | some m => (s.checkCascadeTag n).goTo r (.transmit (.anticoll m))

/-- `ATS_LEN <- 0` (43_activation.md R191). -/
def State.clearAts (s : State) : State := { s with atsLen := 0x0000 }

/-- A SAK with the cascade bit clear: the UID, then RATS or the end (43_activation.md R206, R207, R210). -/
def finalLevel (n : Level) (r : Run) (s : State) : State :=
  if atsSupported s.sak then (s.assembleUid n).goTo r (.transmit .rats)
  else (s.assembleUid n).clearAts.activated

/-- `StepSelect(n)` after its exchange (43_activation.md R202). -/
def finishSelect (n : Level) (r : Run) (x : XResult) (s : State) : State :=
  match x with
  | .err e => s.dropRx.raise e
  | .ok f =>
    if f.nbits ≠ 8 then (s.landRx f).raise .rfProtocolError
    else if cascade (f.bytes.getD 0 0) then nextLevel n r (s.landSak f)
    else finalLevel n r (s.landSak f)

/-- `StepRats()` after its exchange (43_activation.md R209). -/
def finishRats (x : XResult) (s : State) : State :=
  match x with
  | .err e => s.dropRx.raise e
  | .ok f =>
    if f.nbits / 8 < 1 ∨ (f.bytes.getD 0 0).toNat ≠ f.nbits / 8 then (s.landRx f).raise .rfProtocolError
    else ((s.landRx f).landAts (f.bytes.drop 1)).activated

/-- `ClearTransaction(); state <- Idle` after the exchange of a HALT, whose answer is not delivered (43_activation.md R213, log
14). -/
def State.released (s : State) : State := { s.dropRx.clearTransaction with asm := .idle }

/-- DESELECT after its exchange: `Idle` and the Target cleared in every case; silence is success (43_activation.md R213). -/
def finishHalt (x : XResult) (s : State) : State :=
  match x with
  | .err e => if e = .timeout ∨ e = .rfTimeout then s.released.complete else s.released.raise e
  | .ok _ => s.released.raise .rfProtocolError

/-- What the command in progress does with the outcome of its exchange `d`. -/
def finish (r : Run) (d : Due) (x : XResult) (s : State) : State :=
  match d with
  | .raw => finishRaw r x s
  | .wake => finishWake r x s
  | .anticoll n => finishAnticoll n r x s
  | .select n => finishSelect n r x s
  | .rats => finishRats x s
  | .halt => finishHalt x s

end Sys2Proof.Machine
end

