-- ==== Sys2Proof/Machine/RfPort.lean ====
section
/-! DEFINITION. The wait of an exchange (42_bit_transceive.md R163 step 4): an abort, an RF answer, the end of the timeout;
their priority (60_exceptions.md R252) and what is discarded (R164). -/

namespace Sys2Proof.Machine

/-- The outstanding exchange ends with an outcome (42_bit_transceive.md R163 steps 5 and 6); nothing where none is
outstanding. -/
def endExchange (x : XResult) (s : State) : State :=
  match s.run with
  | some ⟨job, .await d, t, p⟩ => finish ⟨job, .await d, t, p⟩ d x { s with xch := none }
  | some ⟨_, .transmit _, _, _⟩ => s
  | some ⟨_, .pause, _, _⟩ => s
  | none => s

/-- The command in progress is waiting: for the outcome of an exchange, or in POLL's pause. -/
def waiting (s : State) : Bool :=
  match s.run with
  | some ⟨_, .await _, _, _⟩ => s.xch ≠ none
  | some ⟨_, .pause, _, _⟩ => true
  | some ⟨_, .transmit _, _, _⟩ => false
  | none => false

/-- An abort request ends the wait: the exchange returns `Err(Aborted)` (R163 step 4a), or the pause raises `Aborted`
(43_activation.md R214). -/
def takeAbort (s : State) : State :=
  match s.xch with
  | some _ => endExchange (.err .aborted) s
  | none => s.raise .aborted

/-- The RF answer `A` arrives (R163 step 4b). It is discarded when no exchange is outstanding (R164); an abort request wins
(60_exceptions.md R252 item 3); with `TIMEOUT = 0x0000` whether it is already there is a free choice (R262, U6). -/
def answerArrives (a : Answer) (s : State) : State :=
  match s.xch with
  | none => s
  | some x =>
    if a = .line [] then s
    else if s.abortReq then takeAbort s
    else if x.timeout = 0 then
      if Config.pollAnswerThere s.fresh then endExchange (decodeAnswer x.rxCrc a) { s with fresh := s.fresh + 1 }
      else endExchange (.err .timeout) { s with fresh := s.fresh + 1 }
    else endExchange (decodeAnswer x.rxCrc a) s

/-- The timeout of the outstanding exchange runs out (R163 step 4c): never with the "forever" sentinel (R262). -/
def timeoutExpires (s : State) : State :=
  match s.xch with
  | none => s
  | some x =>
    if s.abortReq then takeAbort s
    else if x.timeout = Config.foreverTimeout then s
    else endExchange (.err .timeout) s

/-- An answer and the end of a finite timeout at one moment: either may be taken (60_exceptions.md R252 item 4, U5), a free
choice; with the "forever" sentinel only the answer is there. -/
def answerAtTimeout (a : Answer) (s : State) : State :=
  match s.xch with
  | none => s
  | some x =>
    if a = .line [] then timeoutExpires s
    else if s.abortReq then takeAbort s
    else if x.timeout = Config.foreverTimeout then answerArrives a s
    else if Config.answerBeatsTimeout s.fresh then answerArrives a { s with fresh := s.fresh + 1 }
    else timeoutExpires { s with fresh := s.fresh + 1 }

/-- Which kind of answer the outstanding exchange awaits (43_activation.md R190); XCV_BITS and XCV_BYTES accept any
(30_encoding.md R84), a HALT awaits none. -/
def awaitedKind (s : State) : Option FrameKind :=
  match s.run with
  | some ⟨_, .await .wake, _, _⟩ => some .atqa
  | some ⟨_, .await (.anticoll _), _, _⟩ => some .anticollAnswer
  | some ⟨_, .await (.select _), _, _⟩ => some .sakAnswer
  | some ⟨_, .await .rats, _, _⟩ => some .ratsAnswer
  | some ⟨_, .await .raw, _, _⟩ => none
  | some ⟨_, .await .halt, _, _⟩ => none
  | some ⟨_, .transmit _, _, _⟩ => none
  | some ⟨_, .pause, _, _⟩ => none
  | none => none

/-- The received-frame row that a line frame is, by the kind of answer awaited. -/
def receivedInstr (s : State) (bits : LineBits) : Option Instr :=
  match awaitedKind s, lineDecode bits with
  | some k, .ok f => (decode k f).toOption
  | some _, .err _ => none
  | none, _ => none

end Sys2Proof.Machine
end

