-- ==== Sys2Proof/Machine/LineFrames.lean ====
section
/-! DEFINITION. The meanings of the frame rows. A transmitted frame (30_encoding.md R86 to R93) is the transmit step of an
exchange with that frame (42_bit_transceive.md R163 steps 1 to 3); a received frame (R94 to R97) is its arrival as the RF
answer (R163 step 4b, R164). Logs 11 and 12. -/

namespace Sys2Proof.Machine

/-- REQA goes to the RF port (30_encoding.md R86, 43_activation.md R194). -/
def execReqa (s : State) : Outcome := sendFrame reqaFrame s

/-- WUPA goes to the RF port (30_encoding.md R87, 43_activation.md R194). -/
def execWupa (s : State) : Outcome := sendFrame wupaFrame s

/-- The 0x40 wake-up goes to the RF port (30_encoding.md R88, 41_frame_codec.md R137): only XCV_BITS sends it. -/
def execWake40 (s : State) : Outcome := sendFrame wake40Frame s

/-- Anti-collision SELECT of level 1 goes to the RF port (30_encoding.md R89, 43_activation.md R197). -/
def execAnticollCl1 (s : State) : Outcome := sendFrame (anticollFrame .cl1) s

/-- Anti-collision SELECT of level 2 goes to the RF port (30_encoding.md R89, 43_activation.md R197). -/
def execAnticollCl2 (s : State) : Outcome := sendFrame (anticollFrame .cl2) s

/-- Anti-collision SELECT of level 3 goes to the RF port (30_encoding.md R89, 43_activation.md R197). -/
def execAnticollCl3 (s : State) : Outcome := sendFrame (anticollFrame .cl3) s

/-- SELECT confirm of level 1 goes to the RF port (30_encoding.md R90, 43_activation.md R201). -/
def execSelectCl1 (u0 u1 u2 u3 bcc : Byte) (s : State) : Outcome := sendFrame (selectFrame .cl1 u0 u1 u2 u3 bcc) s

/-- SELECT confirm of level 2 goes to the RF port (30_encoding.md R90, 43_activation.md R201). -/
def execSelectCl2 (u0 u1 u2 u3 bcc : Byte) (s : State) : Outcome := sendFrame (selectFrame .cl2 u0 u1 u2 u3 bcc) s

/-- SELECT confirm of level 3 goes to the RF port (30_encoding.md R90, 43_activation.md R201). -/
def execSelectCl3 (u0 u1 u2 u3 bcc : Byte) (s : State) : Outcome := sendFrame (selectFrame .cl3 u0 u1 u2 u3 bcc) s

/-- HALT goes to the RF port (30_encoding.md R91, 43_activation.md R213). -/
def execHalt (s : State) : Outcome := sendFrame haltFrame s

/-- RATS goes to the RF port (30_encoding.md R92, 43_activation.md R207). -/
def execRats (param : Byte) (s : State) : Outcome := sendFrame (ratsFrame param) s

/-- The unlock byte 0x43 goes to the RF port (30_encoding.md R93, 41_frame_codec.md R137): only XCV_BITS or XCV_BYTES sends
it. -/
def execMagic43 (s : State) : Outcome := sendFrame (byteFrame [0x43]) s

/-- The unlock byte 0x41 goes to the RF port (30_encoding.md R93, 41_frame_codec.md R137): only XCV_BITS or XCV_BYTES sends
it. -/
def execMagic41 (s : State) : Outcome := sendFrame (byteFrame [0x41]) s

/-- A frame arrives from the RF environment as a line frame. -/
def receiveFrame (f : Frame) (s : State) : Outcome := .next (answerArrives (.line (frameLine f)) s)

/-- An ATQA arrives (30_encoding.md R94, 43_activation.md R197). -/
def execAtqa (a0 a1 : Byte) (s : State) : Outcome := receiveFrame (byteFrame [a0, a1]) s

/-- An anti-collision answer arrives (30_encoding.md R95, 43_activation.md R199, R200). -/
def execAnticollAnswer (u0 u1 u2 u3 bcc : Byte) (s : State) : Outcome := receiveFrame (byteFrame [u0, u1, u2, u3, bcc]) s

/-- A SAK with its CRC_A arrives (30_encoding.md R96, 43_activation.md R202). -/
def execSakAnswer (sak : Byte) (s : State) : Outcome := receiveFrame (frameWithCrcA [sak]) s

/-- A RATS answer with its CRC_A arrives (30_encoding.md R97, 43_activation.md R209). -/
def execRatsAnswer (ats : List Byte) (s : State) : Outcome := receiveFrame (ratsAnswerFrame ats) s

end Sys2Proof.Machine
end

