-- ==== Sys2Proof/Machine/System.lean ====
section
/-! DEFINITION. The system commands (44_system.md): NOP, INIT_INITIATOR, CONFIGURE. -/

namespace Sys2Proof.Machine

/-- NOP (44_system.md R232). -/
def execNop (s : State) : Outcome := issue 0x00 State.complete s

/-- INIT_INITIATOR's rule (44_system.md R233): every element to its reset value but `CMD` and the handshake. -/
def initRule (s : State) : State := { s.clearAll with cmd := s.cmd }.complete

/-- INIT_INITIATOR (44_system.md R233). -/
def execInitInitiator (s : State) : Outcome := issue 0x01 initRule s

/-- CONFIGURE's rule (44_system.md R234). -/
def configureRule (option enabled : Byte) (s : State) : State :=
  if 3 < option.toNat ∨ 1 < enabled.toNat then s.raise .invalidParameter
  else { s with cfg := setOption s.cfg option (enabled = 1) }.complete

/-- CONFIGURE (44_system.md R234). -/
def execConfigure (option enabled : Byte) (s : State) : Outcome := issue 0x02 (configureRule option enabled) s

end Sys2Proof.Machine
end

