-- ==== Sys2Proof/Machine/Dispatch.lean ====
section
/-! DEFINITION. exec: one arm per instruction, each one direct call of its meaning. -/

namespace Sys2Proof.Machine

def exec (i : Instr) (s : State) : Host.Outcome State Fault Refusal :=
  match i with
  | .nop => Sys2Proof.Machine.execNop s
  | .initInitiator => Sys2Proof.Machine.execInitInitiator s
  | .configure option enabled => Sys2Proof.Machine.execConfigure option enabled s
  | .crcA src => Sys2Proof.Machine.execCrcA src s
  | .crcB src => Sys2Proof.Machine.execCrcB src s
  | .crcAAppend => Sys2Proof.Machine.execCrcAAppend s
  | .crcBAppend => Sys2Proof.Machine.execCrcBAppend s
  | .crcACheck src => Sys2Proof.Machine.execCrcACheck src s
  | .crcBCheck src => Sys2Proof.Machine.execCrcBCheck src s
  | .locateHist src => Sys2Proof.Machine.execLocateHist src s
  | .buildReqa => Sys2Proof.Machine.execBuildReqa s
  | .buildWupa variant => Sys2Proof.Machine.execBuildWupa variant s
  | .buildAnticoll lvl => Sys2Proof.Machine.execBuildAnticoll lvl s
  | .buildSelect lvl fromRx => Sys2Proof.Machine.execBuildSelect lvl fromRx s
  | .buildHalt => Sys2Proof.Machine.execBuildHalt s
  | .buildRats param => Sys2Proof.Machine.execBuildRats param s
  | .bccCalc => Sys2Proof.Machine.execBccCalc s
  | .parseAnticoll lvl src => Sys2Proof.Machine.execParseAnticoll lvl src s
  | .parseSak src => Sys2Proof.Machine.execParseSak src s
  | .assembleUid levels => Sys2Proof.Machine.execAssembleUid levels s
  | .xcvBits => Sys2Proof.Machine.execXcvBits s
  | .xcvBytes => Sys2Proof.Machine.execXcvBytes s
  | .activate wake => Sys2Proof.Machine.execActivate wake s
  | .deselect => Sys2Proof.Machine.execDeselect s
  | .poll attempts period => Sys2Proof.Machine.execPoll attempts period s
  | .reqa => Sys2Proof.Machine.execReqa s
  | .wupa => Sys2Proof.Machine.execWupa s
  | .wake40 => Sys2Proof.Machine.execWake40 s
  | .anticollCl1 => Sys2Proof.Machine.execAnticollCl1 s
  | .anticollCl2 => Sys2Proof.Machine.execAnticollCl2 s
  | .anticollCl3 => Sys2Proof.Machine.execAnticollCl3 s
  | .selectCl1 u0 u1 u2 u3 bcc => Sys2Proof.Machine.execSelectCl1 u0 u1 u2 u3 bcc s
  | .selectCl2 u0 u1 u2 u3 bcc => Sys2Proof.Machine.execSelectCl2 u0 u1 u2 u3 bcc s
  | .selectCl3 u0 u1 u2 u3 bcc => Sys2Proof.Machine.execSelectCl3 u0 u1 u2 u3 bcc s
  | .halt => Sys2Proof.Machine.execHalt s
  | .rats param => Sys2Proof.Machine.execRats param s
  | .magic43 => Sys2Proof.Machine.execMagic43 s
  | .magic41 => Sys2Proof.Machine.execMagic41 s
  | .atqa a0 a1 => Sys2Proof.Machine.execAtqa a0 a1 s
  | .anticollAnswer u0 u1 u2 u3 bcc => Sys2Proof.Machine.execAnticollAnswer u0 u1 u2 u3 bcc s
  | .sakAnswer sak => Sys2Proof.Machine.execSakAnswer sak s
  | .ratsAnswer ats => Sys2Proof.Machine.execRatsAnswer ats s

end Sys2Proof.Machine
end

