-- ==== Sys2Proof/Machine/HostPort.lean ====
section
/-! DEFINITION. The host port (20_memory.md R60 to R68): the address map R62, byte reads and writes, what a host may do while a
command executes (R68), and the fetch of a command from the `CMD` write and `P0`, `P1` (30_encoding.md R80). -/

namespace Sys2Proof.Machine

/-- A byte of `RXBUF`: unspecified, so a FREE byte, at and beyond its frame (10_state.md R38, U4). -/
def readRx (a : Nat) (s : State) : Byte :=
  if a - Config.rxBase < ceil8 s.rxBits.toNat then s.bufByte a else Config.ramByte s.rxGen a

/-- A byte of `ATSBUF`: unspecified, so a FREE byte, at and beyond `ATS_LEN` (10_state.md R34, U4). -/
def readAts (a : Nat) (s : State) : Byte :=
  if a - Config.atsBase < s.atsLen.toNat then s.bufByte a else Config.ramByte s.atsGen a

/-- A byte of the arrays and buffers (20_memory.md R62); an unmapped address reads 0x00 (R63). -/
def readArray (a : Nat) (s : State) : Byte :=
  if inRange a 0x040 10 then s.uid.toList.getD (a - 0x040) 0
  else if inRange a 0x050 12 then s.rawUid.toList.getD (a - 0x050) 0
  else if inRange a 0x05C 3 then s.rawBcc.toList.getD (a - 0x05C) 0
  else if inRange a Config.txBase Config.maxFrameLen then s.bufByte a
  else if inRange a Config.rxBase Config.maxFrameLen then readRx a s
  else if inRange a Config.atsBase Config.maxFrameLen then readAts a s
  else 0x00

/-- `MemRead(addr, 1)` while no command executes (20_memory.md R61 to R64). No read has a side effect (R67). -/
def readByte (a : Nat) (s : State) : Byte :=
  match a with
  | 0x000 => s.cmd
  | 0x001 => statusByte s
  | 0x002 => errCode s.err
  | 0x003 => cfgByte s.cfg
  | 0x004 => s.p0
  | 0x005 => s.p1
  | 0x006 => loByte s.timeout
  | 0x007 => hiByte s.timeout
  | 0x008 => asmCode s.asm
  | 0x009 => warnByte s.warn
  | 0x00A => clCode s.cl
  | 0x00B => s.sak
  | 0x00C => s.atqa0
  | 0x00D => s.atqa1
  | 0x00E => s.uidLen
  | 0x00F => 0x00
  | 0x010 => loByte s.atsLen
  | 0x011 => hiByte s.atsLen
  | 0x012 => loByte s.crcRes
  | 0x013 => hiByte s.crcRes
  | 0x014 => loByte s.hbOff
  | 0x015 => hiByte s.hbOff
  | 0x016 => loByte s.hbLen
  | 0x017 => hiByte s.hbLen
  | 0x018 => loByte s.txBits
  | 0x019 => hiByte s.txBits
  | 0x01A => loByte s.rxBits
  | 0x01B => hiByte s.rxBits
  | 0x01C => s.ratsParam
  | 0x01D => s.pollCnt
  | 0x01E => sakFlags s.sak
  | a => readArray a s

/-- A plain store to a host-writable location (20_memory.md R62, R67); any other address, the read-only ones included, changes
nothing (R63). -/
def storeByte (a : Nat) (v : Byte) (s : State) : State :=
  match a with
  | 0x004 => { s with p0 := v }
  | 0x005 => { s with p1 := v }
  | 0x006 => { s with timeout := halfOf v (hiByte s.timeout) }
  | 0x007 => { s with timeout := halfOf (loByte s.timeout) v }
  | 0x018 => { s with txBits := halfOf v (hiByte s.txBits) }
  | 0x019 => { s with txBits := halfOf (loByte s.txBits) v }
  | 0x01C => { s with ratsParam := v }
  | a => if inRange a Config.txBase Config.maxFrameLen then { s with mem := Memory.put s.mem a v } else s

/-- A write to `ABORT` (10_state.md R41): sets `ABORT_REQ` while a command executes, otherwise nothing. -/
def writeAbort (s : State) : State := if s.busy then { s with abortReq := true } else s

/-- A write of `op` to `CMD`: the command word is `op`, `P0`, `P1` as they stand (30_encoding.md R80). A defined opcode runs as
its instruction; an undefined one is accepted and ends with `CommandNotSupported` (R83, 60_exceptions.md R275). -/
def issueCommand (op : Byte) (s : State) : Outcome :=
  match decode .hostCommand (commandWord op s.p0 s.p1) with
  | .instr i => exec i s
  | .rejected _ => issue op (fun s => s.raise .commandNotSupported) s

/-- `MemWrite(addr, 1, v)` (20_memory.md R61). While `BUSY = 1` only `ABORT` may be written (R68, U1). -/
def hostWrites (a : Nat) (v : Byte) (s : State) : Outcome :=
  if Config.hostSpace ≤ a then .fault .noSuchAddress
  else if a = 0x00F then .next (writeAbort s)
  else if a = 0x000 then issueCommand v s
  else if s.busy then .refused .hostWriteWhileBusy
  else .next (storeByte a v s)

/-- `MemRead(addr, 1)` (20_memory.md R61). While `BUSY = 1` anything but `STATUS` reads as a FREE byte (R68, U2). -/
def hostReads (a : Nat) (s : State) : Outcome :=
  if Config.hostSpace ≤ a then .fault .noSuchAddress
  else if s.busy ∧ a ≠ 0x001 then
    .next { s with readData := some (Config.busyReadByte s.fresh), fresh := s.fresh + 1 }
  else .next { s with readData := some (readByte a s) }

end Sys2Proof.Machine
end

