-- ==== Sys2Proof/Machine/Moves.lean ====
section
/-! DEFINITION. One step of the system of host, block and RF environment (00_scope.md R5): which move comes next and what it
does. Step.lean only calls `nextMove` and `placeWord`. -/

namespace Sys2Proof.Machine

/-- The transmit step: the frame that is due goes to the RF port; if it is a frame row, as that instruction
(42_bit_transceive.md R163). -/
def runDueFrame (s : State) : Outcome :=
  match dueFrame s with
  | none => .next s
  | some f =>
    match decode .transmit f with
    | .instr i => exec i s
    | .rejected _ => .next (sendDue s)

/-- The block's own next move: hand over the frame that is due, or end POLL's pause; nothing while it is idle or waits for the
outcome of an exchange. -/
def ownMove (s : State) : Outcome :=
  match s.run with
  | some ⟨_, .transmit _, _, _⟩ => runDueFrame s
  | some ⟨job, .pause, t, p⟩ => .next (nextAttempt ⟨job, .pause, t, p⟩ s)
  | some ⟨_, .await _, _, _⟩ => .next s
  | none => .next s

/-- No agent has a move left: the block makes its own; a wait with a finite timeout ends by it ("with a finite timeout an
exchange always ends"), one without never ends (60_exceptions.md R262, U7, log 5). -/
def silentMove (s : State) : Outcome :=
  match s.run with
  | some ⟨_, .await _, _, _⟩ => .next (timeoutExpires s)
  | some ⟨_, .transmit _, _, _⟩ => ownMove s
  | some ⟨_, .pause, _, _⟩ => ownMove s
  | none => .next s

/-- An RF answer arrives: a line frame that is the frame row awaited runs as that instruction, any other answer as it is
(42_bit_transceive.md R161, R163). -/
def answerMove (a : Answer) (s : State) : Outcome :=
  match a with
  | .line bits =>
    match receivedInstr s bits with
    | some i => exec i s
    | none => .next (answerArrives a s)
  | .rfTimeout => .next (answerArrives a s)
  | .framingError => .next (answerArrives a s)
  | .bitCollision => .next (answerArrives a s)
  | .ioError => .next (answerArrives a s)

/-- One move, already taken from the inbox. -/
def makeMove (m : Input) (s : State) : Outcome :=
  match m with
  | .hostWrite a v => hostWrites a v s
  | .hostRead a => hostReads a s
  | .proceed => ownMove s
  | .answer a => answerMove a s
  | .timeout => .next (timeoutExpires s)
  | .answerAtTimeout a => .next (answerAtTimeout a s)
  | .reset => .next s.clearAll

/-- The next move is the hardware reset. -/
def resetNext (s : State) : Bool := s.inbox.head? = some .reset

/-- One step. Hardware reset "may occur at any moment" (93_implementation_defined.md U14), so where it is next nothing comes before
it. A pending abort request is taken as soon as the command waits, before any other move (60_exceptions.md R252 item 3,
44_system.md R235); otherwise the next move of the inbox happens. -/
def nextMove (s : State) : Outcome :=
  if s.abortReq && waiting s && !resetNext s then .next (takeAbort s)
  else
    match s.inbox with
    | [] => silentMove s
    | m :: rest => makeMove m { s with inbox := rest }

/-! ### Placing an instruction where the next step takes it from -/

/-- A host command word: `P0` and `P1` hold its parameters and the host's next move writes its opcode to `CMD`. -/
def placeCommand (w : Nat) (s : State) : State :=
  { s with
    p0 := BitVec.ofNat 8 (w / 256)
    p1 := BitVec.ofNat 8 w
    inbox := .hostWrite 0x000 (BitVec.ofNat 8 (w / 65536)) :: s.inbox }

/-- A transmitted frame: it stands in `TXBUF` and `TX_BITS` and an XCV_BITS command is about to send it. -/
def placeTransmit (f : Frame) (s : State) : State :=
  { (s.accept 0x30).putTxFrame f with run := some ⟨.xcvBits, .transmit .raw, s.timeout, s.ratsParam⟩, inbox := .proceed :: s.inbox }

/-- The exchange of ACTIVATE that awaits a kind of answer. -/
def dueOfKind : FrameKind → Due
  | .atqa => .wake
  | .anticollAnswer => .anticoll .cl1
  | .sakAnswer => .select .cl1
  | .ratsAnswer => .rats
  | .hostCommand => .raw
  | .transmit => .raw

/-- A received frame: an ACTIVATE command, blocking forever, awaits it and it is the next answer. -/
def placeReceive (k : FrameKind) (f : Frame) (s : State) : State :=
  let r : Run := ⟨.activate false, .transmit (dueOfKind k), Config.foreverTimeout, s.ratsParam⟩
  { ((prepareSend (dueOfKind k) (frameFor r (dueOfKind k) s) (s.accept 0x40)).openExchange r (dueOfKind k)
      (frameFor r (dueOfKind k) s)) with
    inbox := .answer (.line (frameLine f)) :: s.inbox }

/-- A decoded frame row placed where the next step takes it from. -/
def placeInstr (i : Instr) (s : State) : State :=
  match i.kind with
  | .hostCommand => s
  | .transmit => placeTransmit (encode i) s
  | .atqa => placeReceive .atqa (encode i) s
  | .anticollAnswer => placeReceive .anticollAnswer (encode i) s
  | .sakAnswer => placeReceive .sakAnswer (encode i) s
  | .ratsAnswer => placeReceive .ratsAnswer (encode i) s

/-- An instruction word of `nbits` bits, numbered as spec/opcode_table.json numbers them, placed where the next step takes it
from. -/
def placeWord (nbits w : Nat) (s : State) : State :=
  match decodeTableWord nbits w with
  | some i => if i.kind = .hostCommand then placeCommand w s else placeInstr i s
  | none => if nbits = 24 then placeCommand w s else s

end Sys2Proof.Machine
end

