-- ==== Sys2Proof/Machine/Step.lean ====
section
/-! DEFINITION. The step, and where it takes an instruction from. The block fetches nothing (00_scope.md R2): a host command runs
when the host writes its opcode to `CMD`, a frame when it is due or arrives. -/

namespace Sys2Proof.Machine

/-- One step of the machine. -/
def step (s : State) : Host.Outcome State Fault Refusal := nextMove s

/-- The state with an instruction word placed so that the very next step runs it (log 4). -/
def State.withFetchWord (s : State) (nbits w : Nat) : State := placeWord nbits w s

end Sys2Proof.Machine
end

