-- ==== Sys2Proof/Machine/Assembler.lean ====
section
/-! DEFINITION. The textual form of host programs (30_encoding.md R100, R101) as the host moves it expands to. -/

namespace Sys2Proof.Machine

/-- A statement of a host program (30_encoding.md R100) or a pseudo-instruction (R101). -/
inductive Stmt where
  | wr (addr : Nat) (val : Byte)
  | rd (addr : Nat)
  | wait
  | abort
  /-- a command with the values of the parameters it uses -/
  | command (op : Byte) (p0 p1 : Option Byte)
  /-- `START`: a command statement without its final `WAIT` -/
  | start (op : Byte) (p0 p1 : Option Byte)
  | txFrame (bytes : List Byte) (nbits : Nat)
  | setTimeout (v : Half)
  | setRats (v : Byte)
  | rd16 (addr : Nat)
deriving DecidableEq, Repr

/-- The write of a parameter, if the command uses it. -/
def paramWrite (addr : Nat) : Option Byte → List Input
  | none => []
  | some v => [.hostWrite addr v]

/-- `START MNEMONIC`: the parameter writes and the write of the opcode (30_encoding.md R100, R101). -/
def startMoves (op : Byte) (p0 p1 : Option Byte) : List Input :=
  paramWrite 0x004 p0 ++ paramWrite 0x005 p1 ++ [.hostWrite 0x000 op]

/-- Byte writes at consecutive addresses. -/
def writeMoves : Nat → List Byte → List Input
  | _, [] => []
  | a, b :: bs => .hostWrite a b :: writeMoves (a + 1) bs

/-- The two byte writes of a 16-bit register, low byte first (20_memory.md R64). -/
def writeHalf (addr : Nat) (v : Half) : List Input := [.hostWrite addr (loByte v), .hostWrite (addr + 1) (hiByte v)]

/-- The host moves of a statement (30_encoding.md R100, R101). `WAIT` repeats a read of `STATUS` until `BUSY` reads 0; in the
order of an inbox it is that many reads among the moves of the other agents, the last of which is given here. -/
def expand : Stmt → List Input
  | .wr addr val => [.hostWrite addr val]
  | .rd addr => [.hostRead addr]
  | .wait => [.hostRead 0x001]
  | .abort => [.hostWrite 0x00F 0x01]
  | .command op p0 p1 => startMoves op p0 p1 ++ [.hostRead 0x001]
  | .start op p0 p1 => startMoves op p0 p1
  | .txFrame bytes nbits => writeMoves Config.txBase bytes ++ writeHalf 0x018 (BitVec.ofNat 16 nbits)
  | .setTimeout v => writeHalf 0x006 v
  | .setRats v => [.hostWrite 0x01C v]
  | .rd16 addr => [.hostRead addr, .hostRead (addr + 1)]

/-- `WAIT` is over: the last host read returned a `STATUS` with `BUSY = 0` (30_encoding.md R100). -/
def waitOver (s : State) : Bool :=
  match s.readData with
  | some b => !b.getLsbD 0
  | none => false

end Sys2Proof.Machine
end

