-- ==== Sys2Proof/Safety.lean ====
section
/-! DEFINITION. What counts as a well-formed state of the block (`Inv`), and the terms in which the statements speak of a
command's end, of memory and of the sequencer's transitions. -/

namespace Sys2Proof.Machine

/-- A buffer address: inside `TXBUF`, `RXBUF` or `ATSBUF` (20_memory.md R62). -/
def bufferAddress (a : Nat) : Bool :=
  inRange a Config.txBase Config.maxFrameLen || inRange a Config.rxBase Config.maxFrameLen
    || inRange a Config.atsBase Config.maxFrameLen

/-- The bytes at host address `lo` and on are stored, every other address holds what it held. -/
def Stores (s t : State) (lo : Nat) (bytes : List Byte) : Prop :=
  ∀ a, t.bufByte a = if lo ≤ a ∧ a < lo + bytes.length then bytes.getD (a - lo) 0 else s.bufByte a

/-- A received frame stands in `RXBUF` from index 0; no byte outside `RXBUF` has changed. The bytes of `RXBUF` beyond the frame
are unspecified (42_bit_transceive.md R163, R173). -/
def LandsRx (s t : State) (bytes : List Byte) : Prop :=
  (∀ i, i < bytes.length → t.bufByte (0x300 + i) = bytes.getD i 0)
    ∧ ∀ a, inRange a 0x300 264 = false → t.bufByte a = s.bufByte a

/-- The anti-collision SELECT row of a level. -/
def anticollOf : Level → Instr
  | .cl1 => .anticollCl1
  | .cl2 => .anticollCl2
  | .cl3 => .anticollCl3

/-- The SELECT confirm row of a level. -/
def selectOf (u0 u1 u2 u3 bcc : Byte) : Level → Instr
  | .cl1 => .selectCl1 u0 u1 u2 u3 bcc
  | .cl2 => .selectCl2 u0 u1 u2 u3 bcc
  | .cl3 => .selectCl3 u0 u1 u2 u3 bcc

/-- The state in which command `op`, issued in `s`, has ended with `e` and has changed nothing but the handshake
(44_system.md R230, R231, 60_exceptions.md R248). -/
def ended (op : Byte) (e : ErrKind) (s : State) : State :=
  { s with
    cmd := op
    busy := false
    done := true
    err := e
    matched := false
    found := false
    abortReq := false
    xch := none
    run := none }

/-- The state in which command `op`, issued in `s`, has been accepted, has changed nothing else, and is about to hand the frame
of exchange `d` to the RF port (44_system.md R230). -/
def begun (op : Byte) (job : Job) (d : Due) (s : State) : State :=
  { s with
    cmd := op
    busy := true
    done := false
    err := .noError
    matched := false
    found := false
    abortReq := false
    run := some ⟨job, .transmit d, s.timeout, s.ratsParam⟩ }

/-- The command in progress waits for the outcome of exchange `d`, whose `XCH` is `x`. -/
def Awaits (s : State) (r : Run) (d : Due) (x : Exchange) : Prop :=
  s.run = some r ∧ r.point = .await d ∧ s.xch = some x

/-- The command in progress is about to hand the frame of exchange `d` to the RF port. -/
def Sends (s : State) (r : Run) (d : Due) : Prop := s.run = some r ∧ r.point = .transmit d

/-- The next move `m` ends the outstanding exchange `x` with outcome `o`: an RF answer, not under the poll timeout (where it may
not count, 60_exceptions.md R262), or the end of a finite timeout (42_bit_transceive.md R163 step 4). -/
def Delivers (m : Input) (x : Exchange) (o : XResult) : Prop :=
  (∃ a, m = .answer a ∧ a ≠ .line [] ∧ x.timeout ≠ 0x0000 ∧ decodeAnswer x.rxCrc a = o)
    ∨ (m = .timeout ∧ x.timeout ≠ 0xFFFF ∧ o = .err .timeout)

/-- The command in progress has ended with `e`; nothing but the handshake has changed (44_system.md R231, 60_exceptions.md
R248). -/
def closed (e : ErrKind) (s : State) : State :=
  { s with err := e, busy := false, done := true, abortReq := false, xch := none, run := none }

/-- `ClearTransaction()` written out (43_activation.md R193). -/
def targetCleared (s : State) : State :=
  { s with
    cl := none
    sak := 0x00
    atqa0 := 0x00
    atqa1 := 0x00
    uid := Vector.replicate 10 0x00
    uidLen := 0x00
    rawUid := Vector.replicate 12 0x00
    rawBcc := Vector.replicate 3 0x00
    atsLen := 0x0000
    warn := ⟨false, false, false, false, false⟩
    rxBits := 0x0000 }

/-- The line frame `line` has been handed to the RF port for exchange `d` of the command `r`; nothing else has changed
(42_bit_transceive.md R163 steps 1 to 3). -/
def handed (r : Run) (d : Due) (line : LineBits) (rxCrc : Bool) (s : State) : State :=
  { s with
    xch := some ⟨line, rxCrc, r.timeout⟩
    rfOut := s.rfOut ++ [line]
    run := some { r with point := .await d } }

/-- No byte outside `RXBUF` has changed; the bytes of `RXBUF` are unspecified (42_bit_transceive.md R173). -/
def LosesRx (s t : State) : Prop := ∀ a, inRange a 0x300 264 = false → t.bufByte a = s.bufByte a

/-- Instruction `i` is issued and builds the frame `(bytes, nbits)` in `TXBUF`; only `TX_BITS`, those bytes and the handshake
change (41_frame_codec.md R130). -/
def Builds (i : Instr) (op : Byte) (bytes : List Byte) (nbits : Half) (s : State) : Prop :=
  ∃ t, exec i s = .next t ∧ t = { ended op .noError s with txBits := nbits, mem := t.mem } ∧ Stores s t 0x100 bytes

/-- As `Builds`, for a frame that carries the CRC `crc`, which also goes into `CRC_RES` (41_frame_codec.md R130). -/
def BuildsWithCrc (i : Instr) (op : Byte) (bytes : List Byte) (nbits crc : Half) (s : State) : Prop :=
  ∃ t, exec i s = .next t ∧ t = { ended op .noError s with txBits := nbits, crcRes := crc, mem := t.mem }
    ∧ Stores s t 0x100 bytes

/-- Instruction `i` is issued and appends the CRC of the frame in `TXBUF` to it; only those two bytes, `TX_BITS`, `CRC_RES` and
the handshake change (40_crc_engine.md R115). -/
def Appends (i : Instr) (op : Byte) (crc : Half) (s : State) : Prop :=
  ∃ t, exec i s = .next t ∧ t = { ended op .noError s with txBits := s.txBits + 16, crcRes := crc, mem := t.mem }
    ∧ Stores s t (0x100 + s.txBits.toNat / 8) [loByte crc, hiByte crc]

/-- Instruction `i` is issued and ends at once with `InvalidParameter`, "before the command changes any state other than the
handshake" (30_encoding.md R81). -/
def Rejects (i : Instr) (op : Byte) (s : State) : Prop := exec i s = .next (ended op .invalidParameter s)

/-- The jobs that perform an exchange (43_activation.md R190, R213; 42_bit_transceive.md R168, R169). -/
def jobPerforms : Job → Due → Bool
  | .xcvBits, .raw => true
  | .xcvBytes _, .raw => true
  | .deselect, .halt => true
  | .activate _, .wake | .activate _, .anticoll _ | .activate _, .select _ | .activate _, .rats => true
  | .poll _, .wake | .poll _, .anticoll _ | .poll _, .select _ | .poll _, .rats => true
  | _, _ => false

/-- `ASM_STATE` while an exchange is outstanding (43_activation.md R190); XCV_BITS and XCV_BYTES leave it at any value, a HALT is
sent from `Activated` (R213). -/
def asmAwaits : Due → AsmState → Bool
  | .raw, _ => true
  | .wake, a => a = .reqSent
  | .anticoll n, a => a = .arbitration n
  | .select n, a => a = .selected n
  | .rats, a => a = .ratsSent
  | .halt, a => a = .activated

/-- `ASM_STATE` just before the frame of an exchange is handed over: the state of the exchange before it (43_activation.md
R215). -/
def asmBefore : Due → AsmState → Bool
  | .raw, _ => true
  | .wake, _ => true
  | .anticoll .cl1, a => a = .reqSent
  | .anticoll .cl2, a => a = .selected .cl1
  | .anticoll .cl3, a => a = .selected .cl2
  | .select n, a => a = .arbitration n
  | .rats, .selected _ => true
  | .rats, _ => false
  | .halt, a => a = .activated

/-- Where the command in progress stands agrees with its kind, with `ASM_STATE`, `XCH` and `POLL_CNT`. -/
def runConsistent (s : State) : Bool :=
  match s.run with
  | none => s.xch = none
  | some r =>
    match r.point with
    | .transmit d => s.xch = none && jobPerforms r.job d && asmBefore d s.asm
    | .await d =>
      s.xch = some ⟨frameLine (frameFor r d s), rxCrcFor r d, r.timeout⟩ && jobPerforms r.job d && asmAwaits d s.asm
    | .pause =>
      match r.job with
      | .poll attempts => s.xch = none && s.asm = .noTag && s.pollCnt.toNat < attempts.toNat
      | _ => false

/-- A well-formed state of the block. `Inv` is no rule of the spec as a whole: it gathers what single rules say of every
state the block can be in. -/
structure Inv (s : State) : Prop where
  /-- memory is in its canonical form -/
  memWf : Memory.wf s.mem = true
  /-- only buffer addresses hold bytes (20_memory.md R74) -/
  memMapped : ∀ c ∈ s.mem, bufferAddress c.1 = true
  /-- "BUSY and DONE are never both 1" (10_state.md R22) -/
  notBusyDone : ¬(s.busy = true ∧ s.done = true)
  /-- a transceiving command stands somewhere exactly while `BUSY = 1` (44_system.md R230) -/
  busyRun : s.busy = s.run.isSome
  /-- "`XCH ≠ none` implies `STATUS.BUSY = 1`" and what the place of the command says (10_state.md R42, 43_activation.md R190) -/
  running : runConsistent s = true
  /-- an abort request is pending only while a command executes (10_state.md R41) -/
  abortBusy : s.abortReq = true → s.busy = true
  /-- `ERR` stays 0x00 from acceptance to the end of a command (10_state.md R24) -/
  noErrorBusy : s.busy = true → s.err = .noError
  /-- `RX_BITS` is in 0..2112 (10_state.md R38) -/
  rxBitsLegal : s.rxBits.toNat ≤ 2112
  /-- `ATS_LEN` is in 0..261 (10_state.md R34) -/
  atsLenLegal : s.atsLen.toNat ≤ 261
  /-- `UID_LEN` is 0, 4, 7 or 10 (10_state.md R32) -/
  uidLenLegal : s.uidLen = 0 ∨ s.uidLen = 4 ∨ s.uidLen = 7 ∨ s.uidLen = 10
  /-- "Bytes at index `UID_LEN` and above read 0x00" (10_state.md R32) -/
  uidTail : ∀ i, s.uidLen.toNat ≤ i → s.uid.toList.getD i 0 = 0

/-- The transitions of `ASM_STATE` that 43_activation.md R215 lists (staying in a state is not one). -/
inductive AsmTransition : AsmState → AsmState → Prop where
  /-- a wake-up frame is sent: ACTIVATE or POLL accepted in any state, or the next attempt of POLL -/
  | wake (a : AsmState) : AsmTransition a .reqSent
  | silence : AsmTransition .reqSent .noTag
  | firstLevel : AsmTransition .reqSent (.arbitration .cl1)
  | selectLevel (n : Level) : AsmTransition (.arbitration n) (.selected n)
  | secondLevel : AsmTransition (.selected .cl1) (.arbitration .cl2)
  | thirdLevel : AsmTransition (.selected .cl2) (.arbitration .cl3)
  | rats (n : Level) : AsmTransition (.selected n) .ratsSent
  | activatedPlain (n : Level) : AsmTransition (.selected n) .activated
  | activatedAts : AsmTransition .ratsSent .activated
  /-- DESELECT, INIT_INITIATOR or reset -/
  | toIdle (a : AsmState) : AsmTransition a .idle

/-- The instructions that may write `CRC_RES` (10_state.md R35): the CRC commands, and the frames that carry a CRC where the codec
builds them or the sequencer sends them. -/
def writesCrcRes : Instr → Bool
  | .crcA _ | .crcB _ | .crcAAppend | .crcBAppend | .crcACheck _ | .crcBCheck _ => true
  | .buildSelect _ _ | .buildHalt | .buildRats _ => true
  | .selectCl1 _ _ _ _ _ | .selectCl2 _ _ _ _ _ | .selectCl3 _ _ _ _ _ | .halt | .rats _ => true
  | .nop | .initInitiator | .configure _ _ | .locateHist _ | .buildReqa | .buildWupa _ | .buildAnticoll _ | .bccCalc => false
  | .parseAnticoll _ _ | .parseSak _ | .assembleUid _ | .xcvBits | .xcvBytes | .activate _ | .deselect | .poll _ _ => false
  | .reqa | .wupa | .wake40 | .anticollCl1 | .anticollCl2 | .anticollCl3 | .magic43 | .magic41 => false
  | .atqa _ _ | .anticollAnswer _ _ _ _ _ | .sakAnswer _ | .ratsAnswer _ => false

end Sys2Proof.Machine
end

