-- ==== Sys2Proof/Certificates/Slice0/Obligations.lean ====
section
/-! DEFINITION. The statements for the provers. A next state that is written out as one record update of the state before says
that every field it does not name is unchanged, memory included; where `mem := t.mem` stands, `Stores`, `LandsRx` or `LosesRx`
says what every address reads as. -/

section

open Sys2Proof Sys2Proof.Machine

/-! ### System commands (44_system.md) -/

/-- 44_system.md R232: NOP completes and changes nothing but the handshake. -/
def Obligations.NopOnlyCompletes : Prop :=
  ∀ s : State, s.busy = false → exec .nop s = .next (ended 0x00 .noError s)

/-- 44_system.md R233: INIT_INITIATOR brings every element to its reset value but `CMD` and the handshake it writes itself; the
buffers become unspecified, so nothing is said of them. -/
def Obligations.InitInitiatorRestoresResetValues : Prop :=
  ∀ s : State, s.busy = false →
    ∃ t, exec .initInitiator s = .next t
      ∧ t = { State.reset with
          cmd := 0x01
          done := true
          mem := t.mem
          txGen := t.txGen
          rxGen := t.rxGen
          atsGen := t.atsGen
          inbox := s.inbox
          rfOut := s.rfOut
          readData := s.readData
          fresh := s.fresh }

/-- 44_system.md R234: CONFIGURE assigns bit `P0` of `CFG` and no other; an illegal parameter raises `InvalidParameter`. -/
def Obligations.ConfigureAssignsOneOption : Prop :=
  ∀ (option enabled : Byte) (s : State), s.busy = false →
    (option.toNat ≤ 3 → enabled.toNat ≤ 1 →
      ∃ t, exec (.configure option enabled) s = .next t ∧ t = { ended 0x02 .noError s with cfg := t.cfg }
        ∧ ∀ k, k < 8 → (cfgByte t.cfg).getLsbD k =
            if k = option.toNat then decide (enabled.toNat = 1) else (cfgByte s.cfg).getLsbD k)
    ∧ (3 < option.toNat ∨ 1 < enabled.toNat → Rejects (.configure option enabled) 0x02 s)

/-! ### Unit 1: the CRC engine (40_crc_engine.md) -/

/-- 30_encoding.md R81 (a): the source select. -/
def Obligations.SourceSelectNamesTheFrame : Prop :=
  ∀ s : State,
    (∃ f, source 0 s = some f ∧ f.nbits = s.txBits.toNat ∧ f.bytes.length = (s.txBits.toNat + 7) / 8
      ∧ ∀ i, i < f.bytes.length → f.bytes.getD i 0 = s.bufByte (0x100 + i))
    ∧ (∃ f, source 1 s = some f ∧ f.nbits = s.rxBits.toNat ∧ f.bytes.length = (s.rxBits.toNat + 7) / 8
      ∧ ∀ i, i < f.bytes.length → f.bytes.getD i 0 = s.bufByte (0x300 + i))
    ∧ (∃ f, source 2 s = some f ∧ f.nbits = 8 * s.atsLen.toNat ∧ f.bytes.length = s.atsLen.toNat
      ∧ ∀ i, i < f.bytes.length → f.bytes.getD i 0 = s.bufByte (0x500 + i))
    ∧ ∀ src : Byte, 2 < src.toNat → source src s = none

/-- 40_crc_engine.md R113, R114: CRC_A and CRC_B leave the CRC of a whole-byte source frame in `CRC_RES` and change nothing else; that
of an empty frame is 0x6363 and 0x0000; any other source raises `InvalidParameter`. -/
def Obligations.CrcCommandsLeaveTheCrc : Prop :=
  ∀ (src : Byte) (s : State), s.busy = false →
    (∀ f, source src s = some f → f.nbits ≤ 2112 → f.nbits % 8 = 0 →
      exec (.crcA src) s = .next { ended 0x10 .noError s with crcRes := crcA (f.bytes.take (f.nbits / 8)) }
        ∧ exec (.crcB src) s = .next { ended 0x11 .noError s with crcRes := crcB (f.bytes.take (f.nbits / 8)) })
    ∧ (∀ f, source src s = some f → f.nbits = 0 →
      exec (.crcA src) s = .next { ended 0x10 .noError s with crcRes := 0x6363 }
        ∧ exec (.crcB src) s = .next { ended 0x11 .noError s with crcRes := 0x0000 })
    ∧ ((2 < src.toNat ∨ ∃ f, source src s = some f ∧ (2112 < f.nbits ∨ f.nbits % 8 ≠ 0)) →
      Rejects (.crcA src) 0x10 s ∧ Rejects (.crcB src) 0x11 s)


/-- 40_crc_engine.md R115, R116: CRC_A_APPEND and CRC_B_APPEND write two bytes after the frame, low byte first; a frame that is not
whole bytes raises `InvalidParameter`, one that leaves no room `BufferTooSmall` and nothing is written. -/
def Obligations.CrcAppendWritesTwoBytes : Prop :=
  ∀ s : State, s.busy = false →
    (s.txBits.toNat % 8 = 0 → s.txBits.toNat / 8 + 2 ≤ 264 →
      Appends .crcAAppend 0x12 (crcA (s.txBytes 0 (s.txBits.toNat / 8))) s
        ∧ Appends .crcBAppend 0x13 (crcB (s.txBytes 0 (s.txBits.toNat / 8))) s)
    ∧ (s.txBits.toNat % 8 = 0 → s.txBits.toNat ≤ 2112 → 264 < s.txBits.toNat / 8 + 2 →
      exec .crcAAppend s = .next (ended 0x12 .bufferTooSmall s) ∧ exec .crcBAppend s = .next (ended 0x13 .bufferTooSmall s))
    ∧ (2112 < s.txBits.toNat ∨ s.txBits.toNat % 8 ≠ 0 → Rejects .crcAAppend 0x12 s ∧ Rejects .crcBAppend 0x13 s)

/-- 40_crc_engine.md R117, R118: the checks compare the last two bytes with the CRC of the rest; fewer than two bytes do not match
and leave `CRC_RES`; a mismatch is no error. -/
def Obligations.CrcCheckComparesTheLastTwoBytes : Prop :=
  ∀ (src : Byte) (s : State), s.busy = false →
    (∀ f n, source src s = some f → f.nbits ≤ 2112 → f.nbits = 8 * n → 2 ≤ n →
      exec (.crcACheck src) s = .next { ended 0x14 .noError s with
          crcRes := crcA (f.bytes.take (n - 2))
          matched := decide (f.bytes.getD (n - 2) 0 = loByte (crcA (f.bytes.take (n - 2)))
            ∧ f.bytes.getD (n - 1) 0 = hiByte (crcA (f.bytes.take (n - 2)))) }
        ∧ exec (.crcBCheck src) s = .next { ended 0x15 .noError s with
          crcRes := crcB (f.bytes.take (n - 2))
          matched := decide (f.bytes.getD (n - 2) 0 = loByte (crcB (f.bytes.take (n - 2)))
            ∧ f.bytes.getD (n - 1) 0 = hiByte (crcB (f.bytes.take (n - 2)))) })
    ∧ (∀ f, source src s = some f → f.nbits = 0 ∨ f.nbits = 8 →
      exec (.crcACheck src) s = .next (ended 0x14 .noError s) ∧ exec (.crcBCheck src) s = .next (ended 0x15 .noError s))
    ∧ ((2 < src.toNat ∨ ∃ f, source src s = some f ∧ (2112 < f.nbits ∨ f.nbits % 8 ≠ 0)) →
      Rejects (.crcACheck src) 0x14 s ∧ Rejects (.crcBCheck src) 0x15 s)

/-- 40_crc_engine.md R119: LOCATE_HIST skips T0 and the interface bytes that bits 0x10, 0x20 and 0x40 of T0 announce; nothing left
is no error. -/
def Obligations.LocateHistSkipsInterfaceBytes : Prop :=
  ∀ (src : Byte) (s : State), s.busy = false →
    (∀ f n off, source src s = some f → f.nbits ≤ 2112 → f.nbits = 8 * n →
      off = 1 + ((f.bytes.getD 0 0).getLsbD 4).toNat + ((f.bytes.getD 0 0).getLsbD 5).toNat
        + ((f.bytes.getD 0 0).getLsbD 6).toNat →
      (off < n → exec (.locateHist src) s = .next { ended 0x16 .noError s with
          found := true
          hbOff := BitVec.ofNat 16 off
          hbLen := BitVec.ofNat 16 (n - off) })
        ∧ (n = 0 ∨ n ≤ off →
          exec (.locateHist src) s = .next { ended 0x16 .noError s with hbOff := 0x0000, hbLen := 0x0000 }))
    ∧ ((2 < src.toNat ∨ ∃ f, source src s = some f ∧ (2112 < f.nbits ∨ f.nbits % 8 ≠ 0)) →
      Rejects (.locateHist src) 0x16 s)

/-- 40_crc_engine.md R120: what an append command wrote is the CRC of the frame before it, and the check command that follows
matches; for the empty frame too. -/
def Obligations.AppendThenCheckMatches : Prop :=
  ∀ (s : State) (n : Nat), s.busy = false → s.txBits.toNat = 8 * n → n ≤ 262 →
    (∃ t u, exec .crcAAppend s = .next t ∧ t.txByte n = loByte (crcA (t.txBytes 0 n))
      ∧ t.txByte (n + 1) = hiByte (crcA (t.txBytes 0 n)) ∧ exec (.crcACheck 0) t = .next u ∧ u.matched = true)
    ∧ ∃ t u, exec .crcBAppend s = .next t ∧ t.txByte n = loByte (crcB (t.txBytes 0 n))
      ∧ t.txByte (n + 1) = hiByte (crcB (t.txBytes 0 n)) ∧ exec (.crcBCheck 0) t = .next u ∧ u.matched = true

/-- 40_crc_engine.md R121: the residues of a frame followed by its own CRC; no other two bytes leave them, so the residue accepts the
same buffers as the comparison of R117. -/
def Obligations.CrcResidueIsConstant : Prop :=
  ∀ (d : List Byte) (b0 b1 : Byte),
    (crcA (d ++ [b0, b1]) = 0x0000 ↔ b0 = loByte (crcA d) ∧ b1 = hiByte (crcA d))
      ∧ (crcBLoop (d ++ [b0, b1]) = 0xF0B8 ↔ b0 = loByte (crcB d) ∧ b1 = hiByte (crcB d))
      ∧ (crcB (d ++ [b0, b1]) = 0x0F47 ↔ b0 = loByte (crcB d) ∧ b1 = hiByte (crcB d))

/-- 40_crc_engine.md R110, R111, R122: CRC_A starts from 0x6363 and has no final step, CRC_B starts from 0xFFFF and is complemented at
the end, and each further byte is eight steps of division by x^16 + x^12 + x^5 + 1. -/
def Obligations.CrcUpdateIsBitSerialDivision : Prop :=
  (∀ (w : Half) (b : Byte), crcUpdate w b = crcUpdateSerial w b)
  ∧ crcA [] = 0x6363 ∧ crcB [] = 0x0000
  ∧ (∀ (d : List Byte) (b : Byte), crcA (d ++ [b]) = crcUpdateSerial (crcA d) b
      ∧ crcB (d ++ [b]) = ~~~ (crcUpdateSerial (~~~ (crcB d)) b))
  ∧ crcA [0x12, 0x34] = 0xCF26 ∧ crcB [0x00, 0x00, 0x00] = 0xC6CC


/-! ### Unit 2: the frame codec (41_frame_codec.md) -/

/-- 41_frame_codec.md R131, R132, R133, R135, R136: BUILD_REQA, BUILD_WUPA, BUILD_ANTICOLL, BUILD_HALT and BUILD_RATS. -/
def Obligations.TemplateFramesAreBuilt : Prop :=
  ∀ (param : Byte) (s : State), s.busy = false →
    Builds .buildReqa 0x20 [0x26] 7 s
    ∧ Builds (.buildWupa 0) 0x21 [0x52] 7 s ∧ Builds (.buildWupa 1) 0x21 [0x40] 7 s
    ∧ (1 < param.toNat → Rejects (.buildWupa param) 0x21 s)
    ∧ Builds (.buildAnticoll 1) 0x22 [0x93, 0x20] 16 s ∧ Builds (.buildAnticoll 2) 0x22 [0x95, 0x20] 16 s
    ∧ Builds (.buildAnticoll 3) 0x22 [0x97, 0x20] 16 s
    ∧ (param.toNat = 0 ∨ 3 < param.toNat → Rejects (.buildAnticoll param) 0x22 s)
    ∧ BuildsWithCrc .buildHalt 0x24 [0x50, 0x00, 0x57, 0xCD] 32 0xCD57 s
    ∧ BuildsWithCrc (.buildRats param) 0x25
        [0xE0, param, loByte (crcA [0xE0, param]), hiByte (crcA [0xE0, param])] 32 (crcA [0xE0, param]) s
/-- 41_frame_codec.md R134: BUILD_SELECT with the five UID and BCC bytes of `TXBUF[2..7)` or of a 40-bit answer in `RXBUF`, as
they are. -/
def Obligations.SelectConfirmIsBuilt : Prop :=
  ∀ (lvl fromRx : Byte) (s : State), s.busy = false →
    (∀ lo body crc, 1 ≤ lvl.toNat → lvl.toNat ≤ 3 →
      (fromRx = 0 ∧ lo = 0x102) ∨ (fromRx = 1 ∧ s.rxBits.toNat = 40 ∧ lo = 0x300) →
      body = [BitVec.ofNat 8 (0x91 + 2 * lvl.toNat), 0x70, s.bufByte lo, s.bufByte (lo + 1), s.bufByte (lo + 2),
        s.bufByte (lo + 3), s.bufByte (lo + 4)] →
      crc = crcA body →
      BuildsWithCrc (.buildSelect lvl fromRx) 0x23 (body ++ [loByte crc, hiByte crc]) 72 crc s)
    ∧ (lvl.toNat = 0 ∨ 3 < lvl.toNat ∨ 1 < fromRx.toNat ∨ (fromRx = 1 ∧ s.rxBits.toNat ≠ 40) →
      Rejects (.buildSelect lvl fromRx) 0x23 s)

/-- 41_frame_codec.md R139: BCC_CALC stores the exclusive-or of `TXBUF[2..6)` at `TXBUF[6]`. -/
def Obligations.BccCalcStoresTheCheckCharacter : Prop :=
  ∀ s : State, s.busy = false →
    ∃ t, exec .bccCalc s = .next t ∧ t = { ended 0x26 .noError s with mem := t.mem }
      ∧ Stores s t 0x106 [s.bufByte 0x102 ^^^ s.bufByte 0x103 ^^^ s.bufByte 0x104 ^^^ s.bufByte 0x105]

/-- 41_frame_codec.md R140, R141: PARSE_ANTICOLL stores a 40-bit answer in the slices of its level and reports the BCC check in `MATCH`
and `WARN`; PARSE_SAK loads an 8-bit source frame into `SAK`, and `SAK_FLAGS` follows. -/
def Obligations.ParseCommandsStoreTheAnswer : Prop :=
  (∀ (lvl src : Byte) (s : State), s.busy = false →
    (∀ f n ok, lvl.toNat = n + 1 → n < 3 → source src s = some f → f.nbits = 40 →
      ok = decide (f.bytes.getD 0 0 ^^^ f.bytes.getD 1 0 ^^^ f.bytes.getD 2 0 ^^^ f.bytes.getD 3 0 = f.bytes.getD 4 0) →
      ∃ t, exec (.parseAnticoll lvl src) s = .next t
        ∧ t = { ended 0x27 .noError s with rawUid := t.rawUid, rawBcc := t.rawBcc, warn := t.warn, matched := ok }
        ∧ (∀ i, i < 12 → t.rawUid.toList.getD i 0 =
            if 4 * n ≤ i ∧ i < 4 * n + 4 then f.bytes.getD (i - 4 * n) 0 else s.rawUid.toList.getD i 0)
        ∧ (∀ i, i < 3 → t.rawBcc.toList.getD i 0 = if i = n then f.bytes.getD 4 0 else s.rawBcc.toList.getD i 0)
        ∧ ∀ k, k < 8 → (warnByte t.warn).getLsbD k = if k = n then !ok else (warnByte s.warn).getLsbD k)
    ∧ (lvl.toNat = 0 ∨ 3 < lvl.toNat ∨ 2 < src.toNat ∨ (∃ f, source src s = some f ∧ f.nbits ≠ 40) →
      Rejects (.parseAnticoll lvl src) 0x27 s))
  ∧ ∀ (src : Byte) (s : State), s.busy = false →
    (∀ f, source src s = some f → f.nbits = 8 →
      exec (.parseSak src) s = .next { ended 0x28 .noError s with sak := f.bytes.getD 0 0 }
        ∧ (∀ k, k < 8 → (sakFlags (f.bytes.getD 0 0)).getLsbD k =
            (decide (k = 0) && (f.bytes.getD 0 0).getLsbD 2 || decide (k = 1) && (f.bytes.getD 0 0).getLsbD 5)))
    ∧ (2 < src.toNat ∨ (∃ f, source src s = some f ∧ f.nbits ≠ 8) → Rejects (.parseSak src) 0x28 s)
/-- 41_frame_codec.md R143, R144: ASSEMBLE_UID drops the first byte of every non-final level and warns where it is not 0x88. -/
def Obligations.AssembleUidDropsCascadeTags : Prop :=
  ∀ (levels : Byte) (s : State), s.busy = false →
    (∀ raw u, 1 ≤ levels.toNat → levels.toNat ≤ 3 → raw = s.rawUid.toList →
      u = (if levels.toNat = 1 then raw.take 4
        else if levels.toNat = 2 then (raw.drop 1).take 3 ++ (raw.drop 4).take 4
        else (raw.drop 1).take 3 ++ (raw.drop 5).take 3 ++ (raw.drop 8).take 4) →
      ∃ t, exec (.assembleUid levels) s = .next t
        ∧ t = { ended 0x29 .noError s with
            uid := t.uid
            uidLen := BitVec.ofNat 8 (3 * (levels.toNat - 1) + 4)
            warn := { s.warn with
              ct1 := decide (2 ≤ levels.toNat ∧ raw.getD 0 0 ≠ 0x88)
              ct2 := decide (levels.toNat = 3 ∧ raw.getD 4 0 ≠ 0x88) } }
        ∧ t.uid.toList = u ++ List.replicate (10 - u.length) 0x00)
    ∧ (levels.toNat = 0 ∨ 3 < levels.toNat → Rejects (.assembleUid levels) 0x29 s)

/-! ### Unit 3: line coding and the transceive commands (42_bit_transceive.md) -/

/-- 42_bit_transceive.md R165, R167: where each bit of a frame stands on the line, and that the nine bits of a byte and its parity
bit hold an odd number of ones. -/
def Obligations.LineEncodeGivesGroupsOfNine : Prop :=
  (∀ b : Byte, ((List.range 8).countP (fun k => b.getLsbD k) + (par b).toNat) % 2 = 1)
  ∧ ∀ (bytes : List Byte) (nbits : Nat), bytes.length = (nbits + 7) / 8 →
    (lineEncode bytes nbits).length = 9 * (nbits / 8) + nbits % 8
    ∧ (∀ i k, i < nbits / 8 → k < 8 → (lineEncode bytes nbits).getD (9 * i + k) false = (bytes.getD i 0).getLsbD k)
    ∧ (∀ i, i < nbits / 8 → (lineEncode bytes nbits).getD (9 * i + 8) false = par (bytes.getD i 0))
    ∧ ∀ k, k < nbits % 8 →
        (lineEncode bytes nbits).getD (9 * (nbits / 8) + k) false = (bytes.getD (nbits / 8) 0).getLsbD k
/-- 42_bit_transceive.md R166: the checks of `LineDecode` in their order, and the bits of the frame it returns. -/
def Obligations.LineDecodeChecksThenUnpacks : Prop :=
  ∀ (bits : LineBits) (q r : Nat), bits.length = 9 * q + r → r < 9 →
    (r = 8 → lineDecode bits = .err .bitCountError)
    ∧ (r < 8 → 264 < (if 0 < r then q + 1 else q) → lineDecode bits = .err .bufferOverflow)
    ∧ (r < 8 → (if 0 < r then q + 1 else q) ≤ 264 →
        ∀ bytes : List Byte, bytes.length = (if 0 < r then q + 1 else q) →
          (∀ i k, i < q → k < 8 → (bytes.getD i 0).getLsbD k = bits.getD (9 * i + k) false) →
          (∀ k, k < 8 → 0 < r → (bytes.getD q 0).getLsbD k = if k < r then bits.getD (9 * q + k) false else false) →
          (if ∃ i, i < q ∧ bits.getD (9 * i + 8) false ≠ par (bytes.getD i 0) then lineDecode bits = .err .parityError
            else lineDecode bits = .ok ⟨bytes, 8 * q + r⟩))

/-- 42_bit_transceive.md R166, its last law: decoding what was encoded gives the frame back, for every frame of at most 264 bytes
whose unused bits are 0. -/
def Obligations.LineDecodeInvertsLineEncode : Prop :=
  ∀ f : Frame, f.bytes.length = (f.nbits + 7) / 8 → f.nbits ≤ 2112 →
    (∀ k, f.nbits % 8 ≤ k → k < 8 → f.nbits % 8 ≠ 0 → (f.bytes.getD (f.nbits / 8) 0).getLsbD k = false) →
    lineDecode (lineEncode f.bytes f.nbits) = .ok f

/-- 42_bit_transceive.md R163, `Decode`: with `rx_crc` the CRC_A of a received frame is checked and removed. -/
def Obligations.ReceivedCrcIsCheckedAndRemoved : Prop :=
  (∀ (bits : LineBits) (f : Frame), lineDecode bits = .ok f →
    decodeAnswer false (.line bits) = .ok f
    ∧ (f.nbits % 8 ≠ 0 → decodeAnswer true (.line bits) = .err .bitCountError)
    ∧ (f.nbits = 0 ∨ f.nbits = 8 → decodeAnswer true (.line bits) = .err .crcMismatch)
    ∧ ∀ k c, f.nbits = 8 * k → 2 ≤ k → c = crcA (f.bytes.take (k - 2)) →
        decodeAnswer true (.line bits) =
          if f.bytes.getD (k - 2) 0 = loByte c ∧ f.bytes.getD (k - 1) 0 = hiByte c
          then .ok ⟨f.bytes.take (k - 2), 8 * (k - 2)⟩ else .err .crcMismatch)
  ∧ (∀ (bits : LineBits) (e : ErrKind) (rxCrc : Bool), lineDecode bits = .err e → decodeAnswer rxCrc (.line bits) = .err e)
  ∧ ∀ rxCrc : Bool, decodeAnswer rxCrc .rfTimeout = .err .rfTimeout ∧ decodeAnswer rxCrc .framingError = .err .framingError
      ∧ decodeAnswer rxCrc .bitCollision = .err .bitCollision ∧ decodeAnswer rxCrc .ioError = .err .ioError

/-- 42_bit_transceive.md R168, R169, up to the exchange: XCV_BITS is accepted for 1 to 2112 bits; XCV_BYTES asks for whole bytes, and
with `HANDLE_CRC` for room for the CRC. -/
def Obligations.XcvBeginsItsExchange : Prop :=
  ∀ (s : State) (n : Nat), s.busy = false →
    (1 ≤ s.txBits.toNat → s.txBits.toNat ≤ 2112 → exec .xcvBits s = .next (begun 0x30 .xcvBits .raw s))
    ∧ (s.txBits.toNat = 0 ∨ 2112 < s.txBits.toNat → Rejects .xcvBits 0x30 s)
    ∧ (s.txBits.toNat = 8 * n → 1 ≤ n → n ≤ 264 → (s.cfg.handleCrc = true → n + 2 ≤ 264) →
      exec .xcvBytes s = .next (begun 0x31 (.xcvBytes s.cfg.handleCrc) .raw s))
    ∧ (s.txBits.toNat = 8 * n → n ≤ 264 → s.cfg.handleCrc = true → 264 < n + 2 →
      exec .xcvBytes s = .next (ended 0x31 .bufferTooSmall s))
    ∧ (s.txBits.toNat = 0 ∨ 2112 < s.txBits.toNat ∨ s.txBits.toNat % 8 ≠ 0 → Rejects .xcvBytes 0x31 s)
/-- 30_encoding.md R86 to R93, 41_frame_codec.md R137, 42_bit_transceive.md R163 steps 1 to 3: while XCV_BITS or XCV_BYTES is about to
send a frame, the frame row that is this frame goes to the RF port, with the frame's own line bits, and nothing else changes; so do
the three magic-card frames as the host leaves them in `TXBUF` for XCV_BITS (the bit above the seven of 0x40 is ignored, R295). -/
def Obligations.RawFrameIsHandedOver : Prop :=
  (∀ (i : Instr) (s : State) (r : Run), i.kind = .transmit → Sends s r .raw → frameLine (encode i) = frameLine (rawFrame r.job s) →
    exec i s = .next (handed r .raw (frameLine (rawFrame r.job s)) (decide (r.job = .xcvBytes true)) s))
  ∧ ∀ (s : State) (r : Run), Sends s r .raw → r.job = .xcvBits →
    (s.txBits = 7 → s.bufByte 0x100 &&& 0x7F = 0x40 →
      exec .wake40 s = .next (handed r .raw [false, false, false, false, false, false, true] false s))
    ∧ (s.txBits = 8 → s.bufByte 0x100 = 0x43 →
      exec .magic43 s = .next (handed r .raw [true, true, false, false, false, false, true, false, false] false s))
    ∧ (s.txBits = 8 → s.bufByte 0x100 = 0x41 →
      exec .magic41 s = .next (handed r .raw [true, false, false, false, false, false, true, false, true] false s))
/-- 42_bit_transceive.md R168, R169, R170: the block's own move hands over the frame of `TXBUF` as it stands, of any number of bits,
for XCV_BITS and for XCV_BYTES without `HANDLE_CRC`; with `HANDLE_CRC`, XCV_BYTES sends it followed by its CRC_A and checks the
answer's. Four bits of the byte 0x0A, whatever stands above them, are the line bits 0, 1, 0, 1. -/
def Obligations.HandleCrcAddsTheCrcOnTheLine : Prop :=
  ∀ (s : State) (r : Run) (rest : List Input), Sends s r .raw → (s.inbox = .proceed :: rest ∨ (s.inbox = [] ∧ rest = [])) →
    (r.job = .xcvBits ∨ r.job = .xcvBytes false →
      step s = .next (handed r .raw (lineEncode (s.txBytes 0 ((s.txBits.toNat + 7) / 8)) s.txBits.toNat) false
        { s with inbox := rest }))
    ∧ (r.job = .xcvBits → s.txBits = 4 → s.bufByte 0x100 &&& 0x0F = 0x0A →
      step s = .next (handed r .raw [false, true, false, true] false { s with inbox := rest }))
    ∧ ∀ (n : Nat) (c : Half), r.job = .xcvBytes true → s.txBits.toNat = 8 * n → c = crcA (s.txBytes 0 n) →
      step s = .next (handed r .raw (lineEncode (s.txBytes 0 n ++ [loByte c, hiByte c]) (8 * n + 16)) true { s with inbox := rest })


/-- 42_bit_transceive.md R168, R169, R173: how XCV_BITS and XCV_BYTES end. -/
def Obligations.XcvEndsWithTheAnswer : Prop :=
  ∀ (s : State) (r : Run) (x : Exchange) (m : Input) (rest : List Input) (o : XResult),
    Awaits s r .raw x → s.abortReq = false → s.inbox = m :: rest → Delivers m x o →
    (r.job = .xcvBits ∨ r.job = .xcvBytes false ∨ r.job = .xcvBytes true) →
    ∃ t, step s = .next t
      ∧ (∀ f, o = .ok f → (r.job = .xcvBits ∨ f.nbits % 8 = 0) →
        t = { closed .noError s with inbox := rest, err := s.err, rxBits := BitVec.ofNat 16 f.nbits, rxGen := t.rxGen, mem := t.mem }
          ∧ LandsRx s t f.bytes)
      ∧ (∀ f, o = .ok f → r.job ≠ .xcvBits → f.nbits % 8 ≠ 0 →
        t = { closed .bitCountError s with inbox := rest, rxBits := 0x0000, rxGen := t.rxGen, mem := t.mem } ∧ LosesRx s t)
      ∧ ∀ e, o = .err e →
        t = { closed e s with inbox := rest, rxBits := 0x0000, rxGen := t.rxGen, mem := t.mem } ∧ LosesRx s t

/-! ### Unit 4: the activation sequencer (43_activation.md) -/

/-- 43_activation.md R191, R192, R193: ACTIVATE clears the transaction and is about to send its wake-up frame; a bad `P0` raises
`InvalidParameter` with no other effect. -/
def Obligations.ActivateClearsThenWakes : Prop :=
  ∀ (wake : Byte) (s : State), s.busy = false →
    (wake.toNat ≤ 1 →
      exec (.activate wake) s = .next (targetCleared (begun 0x40 (.activate (decide (wake.toNat = 1))) .wake s)))
    ∧ (1 < wake.toNat → Rejects (.activate wake) 0x40 s)

/-- 43_activation.md R214, up to the first exchange: POLL starts attempt 1; no attempts is `InvalidParameter`. The period does not
matter. -/
def Obligations.PollStartsItsFirstAttempt : Prop :=
  ∀ (attempts period : Byte) (s : State), s.busy = false →
    (1 ≤ attempts.toNat →
      exec (.poll attempts period) s
        = .next { targetCleared (begun 0x42 (.poll attempts) .wake s) with pollCnt := 0x01 })
    ∧ (attempts.toNat = 0 → Rejects (.poll attempts period) 0x42 s)

/-- 43_activation.md R213: DESELECT sends a HALT from `Activated` only; silence is success and any answer is an error, and in every
case the state is `Idle` with the Target cleared. -/
def Obligations.DeselectHaltsAndForgetsTheTarget : Prop :=
  (∀ s : State, s.busy = false →
    (s.asm = .activated → exec .deselect s = .next (begun 0x41 .deselect .halt s))
    ∧ (s.asm ≠ .activated →
      exec .deselect s = .next { targetCleared (ended 0x41 .noError s) with asm := .idle }))
  ∧ ∀ (s : State) (r : Run) (x : Exchange) (m : Input) (rest : List Input) (o : XResult),
    Awaits s r .halt x → s.abortReq = false → s.inbox = m :: rest → Delivers m x o →
    ∃ t, step s = .next t ∧ LosesRx s t
      ∧ t = { targetCleared (closed t.err s) with inbox := rest, asm := .idle, rxGen := t.rxGen, mem := t.mem }
      ∧ (o = .err .timeout ∨ o = .err .rfTimeout → t.err = s.err)
      ∧ (∀ e, o = .err e → e ≠ .timeout → e ≠ .rfTimeout → t.err = e)
      ∧ (∀ f, o = .ok f → t.err = .rfProtocolError)

/-- 43_activation.md R194: the wake-up frame goes out as seven bits without parity, and `ASM_STATE` becomes `ReqSent`. POLL always
sends REQA (R214). -/
def Obligations.WakeUpFrameIsSent : Prop :=
  ∀ (s : State) (r : Run), Sends s r .wake →
    (r.job = .activate false ∨ (∃ attempts, r.job = .poll attempts) →
      ∃ t, exec .reqa s = .next t ∧ Stores s t 0x100 [0x26]
        ∧ t = { handed r .wake [false, true, true, false, false, true, false] false s with
            txBits := 7, asm := .reqSent, mem := t.mem })
    ∧ (r.job = .activate true →
      ∃ t, exec .wupa s = .next t ∧ Stores s t 0x100 [0x52]
        ∧ t = { handed r .wake [false, true, false, false, true, false, true] false s with
            txBits := 7, asm := .reqSent, mem := t.mem })

/-- 43_activation.md R197, sending, and R201: the anti-collision SELECT of level `n` goes out, `CL` and `ASM_STATE` follow; the SELECT
confirm carries the anti-collision answer verbatim and its CRC_A, and the answer's CRC_A will be checked. -/
def Obligations.CascadeFramesAreSent : Prop :=
  (∀ (s : State) (r : Run) (n : Level) (bytes : List Byte), Sends s r (.anticoll n) →
    bytes = [BitVec.ofNat 8 (0x91 + 2 * levelNum n), 0x20] →
    ∃ t, exec (anticollOf n) s = .next t ∧ Stores s t 0x100 bytes
      ∧ t = { handed r (.anticoll n) (lineEncode bytes 16) false s with
          cl := some n, txBits := 16, asm := .arbitration n, mem := t.mem })
  ∧ ∀ (s : State) (r : Run) (n : Level) (u0 u1 u2 u3 b : Byte) (body : List Byte) (crc : Half), Sends s r (.select n) →
    [u0, u1, u2, u3] = (s.rawUid.toList.drop (4 * (levelNum n - 1))).take 4 → b = s.rawBcc.toList.getD (levelNum n - 1) 0 →
    body = [BitVec.ofNat 8 (0x91 + 2 * levelNum n), 0x70, u0, u1, u2, u3, b] → crc = crcA body →
    ∃ t, exec (selectOf u0 u1 u2 u3 b n) s = .next t ∧ Stores s t 0x100 (body ++ [loByte crc, hiByte crc])
      ∧ t = { handed r (.select n) (lineEncode (body ++ [loByte crc, hiByte crc]) 72) true s with
          txBits := 72, crcRes := crc, asm := .selected n, mem := t.mem }
/-- 43_activation.md R207, R213: RATS goes out with the sampled `RATS_PARAM`, HALT as `50 00 57 CD`; a HALT leaves `ASM_STATE`. -/
def Obligations.RatsAndHaltFramesAreSent : Prop :=
  ∀ (s : State) (r : Run) (crc : Half), crc = crcA [0xE0, r.ratsParam] →
    (Sends s r .rats →
      ∃ t, exec (.rats r.ratsParam) s = .next t ∧ Stores s t 0x100 [0xE0, r.ratsParam, loByte crc, hiByte crc]
        ∧ t = { handed r .rats (lineEncode [0xE0, r.ratsParam, loByte crc, hiByte crc] 32) true s with
            txBits := 32, crcRes := crc, asm := .ratsSent, mem := t.mem })
    ∧ (Sends s r .halt →
      ∃ t, exec .halt s = .next t ∧ Stores s t 0x100 [0x50, 0x00, 0x57, 0xCD]
        ∧ t = { handed r .halt (lineEncode [0x50, 0x00, 0x57, 0xCD] 32) false s with
            txBits := 32, crcRes := 0xCD57, mem := t.mem })

/-- The model's choice (log 11): a transmitted-frame row runs only where the block is about to send that very frame; elsewhere it is
refused, and where it runs it is the block's own transmit step. -/
def Obligations.FrameRowRunsOnlyWhenDue : Prop :=
  ∀ (i : Instr) (s : State), i.kind = .transmit →
    (dueFrame s = none → exec i s = .refused .noFrameDue)
    ∧ ∀ g, dueFrame s = some g →
        exec i s = if frameLine g = frameLine (encode i) then .next (sendDue s) else .refused .noFrameDue

/-- 43_activation.md R197, answer: two bytes answer the wake-up; they are stored and level 1 is next. -/
def Obligations.AtqaIsStored : Prop :=
  ∀ (a0 a1 : Byte) (s : State) (r : Run) (x : Exchange),
    Awaits s r .wake x → s.abortReq = false → x.timeout ≠ 0x0000 → x.rxCrc = false →
    ∃ t, exec (.atqa a0 a1) s = .next t ∧ LandsRx s t [a0, a1]
      ∧ t = { s with
          xch := none
          run := some { r with point := .transmit (.anticoll .cl1) }
          rxBits := 16
          atqa0 := a0
          atqa1 := a1
          rxGen := t.rxGen
          mem := t.mem }

/-- 43_activation.md R199, R200: five bytes answer the anti-collision frame; they are stored in the level's slices, and a BCC that
does not match only sets the level's warning. -/
def Obligations.AnticollAnswerIsStored : Prop :=
  ∀ (u0 u1 u2 u3 b : Byte) (n : Level) (k : Nat) (s : State) (r : Run) (x : Exchange),
    Awaits s r (.anticoll n) x → s.abortReq = false → x.timeout ≠ 0x0000 → x.rxCrc = false → levelNum n = k + 1 →
    ∃ t, exec (.anticollAnswer u0 u1 u2 u3 b) s = .next t ∧ LandsRx s t [u0, u1, u2, u3, b]
      ∧ t = { s with
          xch := none
          run := some { r with point := .transmit (.select n) }
          rxBits := 40
          rawUid := t.rawUid
          rawBcc := t.rawBcc
          warn := t.warn
          rxGen := t.rxGen
          mem := t.mem }
      ∧ (∀ i, i < 12 → t.rawUid.toList.getD i 0 =
          if 4 * k ≤ i ∧ i < 4 * k + 4 then [u0, u1, u2, u3].getD (i - 4 * k) 0 else s.rawUid.toList.getD i 0)
      ∧ (∀ i, i < 3 → t.rawBcc.toList.getD i 0 = if i = k then b else s.rawBcc.toList.getD i 0)
      ∧ ∀ j, j < 8 → (warnByte t.warn).getLsbD j =
          ((warnByte s.warn).getLsbD j || decide (j = k ∧ u0 ^^^ u1 ^^^ u2 ^^^ u3 ≠ b))

/-- 43_activation.md R202 to R205: a SAK whose bit 2 is set leads to the next level, with a warning where the level's first byte is
not 0x88, and at level 3 to `RfProtocolError`. -/
def Obligations.CascadeSakLeadsToTheNextLevel : Prop :=
  ∀ (sak : Byte) (n : Level) (s : State) (r : Run) (x : Exchange),
    Awaits s r (.select n) x → s.abortReq = false → x.timeout ≠ 0x0000 → x.rxCrc = true → sak.getLsbD 2 = true →
    (∀ m, levelNum m = levelNum n + 1 →
      ∃ t, exec (.sakAnswer sak) s = .next t ∧ LandsRx s t [sak]
        ∧ t = { s with
            xch := none
            run := some { r with point := .transmit (.anticoll m) }
            rxBits := 8
            sak := sak
            warn := t.warn
            rxGen := t.rxGen
            mem := t.mem }
        ∧ ∀ j, j < 8 → (warnByte t.warn).getLsbD j = ((warnByte s.warn).getLsbD j
            || decide (j = 2 + levelNum n ∧ s.rawUid.toList.getD (4 * (levelNum n - 1)) 0 ≠ 0x88)))
    ∧ (n = .cl3 →
      ∃ t, exec (.sakAnswer sak) s = .next t ∧ LandsRx s t [sak]
        ∧ t = { closed .rfProtocolError s with rxBits := 8, sak := sak, rxGen := t.rxGen, mem := t.mem })

/-- 43_activation.md R206, R210: a SAK whose bit 2 is clear ends the cascade: the UID is assembled, and bit 5 decides between RATS
and success. -/
def Obligations.FinalSakAssemblesTheUid : Prop :=
  ∀ (sak : Byte) (n : Level) (s : State) (r : Run) (x : Exchange) (raw u : List Byte),
    Awaits s r (.select n) x → s.abortReq = false → x.timeout ≠ 0x0000 → x.rxCrc = true → sak.getLsbD 2 = false →
    raw = s.rawUid.toList →
    u = (match n with
      | .cl1 => raw.take 4
      | .cl2 => (raw.drop 1).take 3 ++ (raw.drop 4).take 4
      | .cl3 => (raw.drop 1).take 3 ++ (raw.drop 5).take 3 ++ (raw.drop 8).take 4) →
    ∃ t, exec (.sakAnswer sak) s = .next t ∧ LandsRx s t [sak] ∧ t.uid.toList = u ++ List.replicate (10 - u.length) 0x00
      ∧ (sak.getLsbD 5 = true →
        t = { s with
            xch := none
            run := some { r with point := .transmit .rats }
            rxBits := 8
            sak := sak
            uid := t.uid
            uidLen := BitVec.ofNat 8 u.length
            rxGen := t.rxGen
            mem := t.mem })
      ∧ (sak.getLsbD 5 = false →
        t = { closed s.err s with
            asm := .activated
            found := true
            rxBits := 8
            sak := sak
            uid := t.uid
            uidLen := BitVec.ofNat 8 u.length
            atsLen := 0x0000
            rxGen := t.rxGen
            mem := t.mem })

/-- 43_activation.md R209, R210: a RATS answer whose length byte is right leaves the ATS in `ATSBUF` and the block `Activated`. -/
def Obligations.RatsAnswerIsCaptured : Prop :=
  ∀ (ats : List Byte) (s : State) (r : Run) (x : Exchange),
    Awaits s r .rats x → s.abortReq = false → x.timeout ≠ 0x0000 → x.rxCrc = true → ats.length ≤ 254 →
    ∃ t, exec (.ratsAnswer ats) s = .next t
      ∧ t = { closed s.err s with
          asm := .activated
          found := true
          rxBits := BitVec.ofNat 16 (8 * (ats.length + 1))
          atsLen := BitVec.ofNat 16 ats.length
          rxGen := t.rxGen
          atsGen := t.atsGen
          mem := t.mem }
      ∧ t.bufByte 0x300 = BitVec.ofNat 8 (ats.length + 1)
      ∧ (∀ i, i < ats.length → t.bufByte (0x301 + i) = ats.getD i 0 ∧ t.bufByte (0x500 + i) = ats.getD i 0)
      ∧ ∀ a, inRange a 0x300 264 = false → inRange a 0x500 264 = false → t.bufByte a = s.bufByte a

/-- 43_activation.md R196, R214: silence after the wake-up is `NoTag` and no error; POLL pauses while attempts are left, and when the
pause is over the next attempt starts from a cleared transaction. -/
def Obligations.SilenceAtWakeUpIsNoTag : Prop :=
  (∀ (s : State) (r : Run) (x : Exchange) (m : Input) (rest : List Input) (o : XResult),
    Awaits s r .wake x → s.abortReq = false → s.inbox = m :: rest → Delivers m x o → o = .err .timeout ∨ o = .err .rfTimeout →
    ∃ t, step s = .next t ∧ LosesRx s t
      ∧ ((∃ w, r.job = .activate w) ∨ (∃ attempts, r.job = .poll attempts ∧ attempts.toNat ≤ s.pollCnt.toNat) →
        t = { closed s.err s with inbox := rest, asm := .noTag, rxBits := 0x0000, rxGen := t.rxGen, mem := t.mem })
      ∧ ∀ attempts, r.job = .poll attempts → s.pollCnt.toNat < attempts.toNat →
        t = { s with
            inbox := rest
            xch := none
            run := some { r with point := .pause }
            asm := .noTag
            rxBits := 0x0000
            rxGen := t.rxGen
            mem := t.mem })
  ∧ ∀ (s : State) (r : Run) (rest : List Input), s.run = some r → r.point = .pause → s.abortReq = false →
    (s.inbox = .proceed :: rest ∨ (s.inbox = [] ∧ rest = [])) →
    step s = .next { targetCleared s with
        inbox := rest
        pollCnt := s.pollCnt + 1
        run := some { r with point := .transmit .wake } }
/-- 43_activation.md R195, R197, R211: a failed exchange of ACTIVATE or POLL, silence after the wake-up apart, ends the command with
the error as raised, a malformed answer with `RfProtocolError` and itself in `RXBUF`; everything gathered stays, `ASM_STATE`
included. -/
def Obligations.FailureFreezesTheSequencer : Prop :=
  ∀ (s : State) (r : Run) (d : Due) (x : Exchange) (m : Input) (rest : List Input) (o : XResult),
    Awaits s r d x → d ≠ .raw → d ≠ .halt → s.abortReq = false → s.inbox = m :: rest → Delivers m x o →
    (∀ e, o = .err e → (d = .wake → e ≠ .timeout ∧ e ≠ .rfTimeout) →
      ∃ t, step s = .next t ∧ LosesRx s t
        ∧ t = { closed e s with inbox := rest, rxBits := 0x0000, rxGen := t.rxGen, mem := t.mem })
    ∧ ∀ f, o = .ok f →
      (d = .wake ∧ f.nbits ≠ 16) ∨ ((∃ n, d = .anticoll n) ∧ f.nbits ≠ 40) ∨ ((∃ n, d = .select n) ∧ f.nbits ≠ 8)
        ∨ (d = .rats ∧ (f.nbits / 8 = 0 ∨ (f.bytes.getD 0 0).toNat ≠ f.nbits / 8)) →
      ∃ t, step s = .next t ∧ LandsRx s t f.bytes
        ∧ t = { closed .rfProtocolError s with
            inbox := rest, rxBits := BitVec.ofNat 16 f.nbits, rxGen := t.rxGen, mem := t.mem }
/-! ### Answers, timeouts and aborts (42_bit_transceive.md, 60_exceptions.md) -/

/-- 42_bit_transceive.md R164: an answer that arrives while no exchange is outstanding changes nothing, a received-frame row among
them. -/
def Obligations.LateAnswerIsDiscarded : Prop :=
  (∀ (s : State) (a : Answer) (rest : List Input), s.xch = none → s.inbox = .answer a :: rest →
    (s.abortReq = true → waiting s = false) → step s = .next { s with inbox := rest })
  ∧ ∀ (s : State) (i : Instr), s.xch = none →
      i.kind = .atqa ∨ i.kind = .anticollAnswer ∨ i.kind = .sakAnswer ∨ i.kind = .ratsAnswer → exec i s = .next s

/-- 60_exceptions.md R252 item 3, R278, 43_activation.md R212, R214: a pending abort ends the wait before anything else does, whatever
comes next but hardware reset (log 18); DESELECT still ends in `Idle` with its Target cleared; POLL's pause ends the same way. -/
def Obligations.AbortEndsTheWait : Prop :=
  (∀ (s : State) (r : Run) (d : Due) (x : Exchange), Awaits s r d x → s.abortReq = true → (∀ rest, s.inbox ≠ .reset :: rest) →
    ∃ t, step s = .next t ∧ LosesRx s t
      ∧ (d ≠ .halt → t = { closed .aborted s with rxBits := 0x0000, rxGen := t.rxGen, mem := t.mem })
      ∧ (d = .halt → t = { targetCleared (closed .aborted s) with asm := .idle, rxGen := t.rxGen, mem := t.mem })
      ∧ ∀ i : Instr, i.kind = .atqa ∨ i.kind = .anticollAnswer ∨ i.kind = .sakAnswer ∨ i.kind = .ratsAnswer → exec i s = .next t)
  ∧ ∀ (s : State) (r : Run), s.run = some r → r.point = .pause → s.xch = none → s.abortReq = true →
    (∀ rest, s.inbox ≠ .reset :: rest) → step s = .next (closed .aborted s)

/-- 10_state.md R41, 20_memory.md R68, 70_reset_and_hazards.md R290, R291 with U1, U2: a write of any value to `ABORT` sets the request
while a command executes and nothing otherwise; a write to anything else while a command executes, a command included, is a move the
model refuses (that this takes in the read-only and unmapped addresses is the model's choice, log 9). `STATUS` reads as specified in
every state; any other read while a command executes changes nothing of the block and returns a free value (the model's choice,
log 8). -/
def Obligations.BusyBlockTakesOnlyAborts : Prop :=
  (∀ (s : State) (v : Byte),
    hostWrites 0x00F v s = .next { s with abortReq := s.busy || s.abortReq })
  ∧ (∀ (s : State) (a : Nat) (v : Byte), s.busy = true → a < 2048 → a ≠ 0x00F → hostWrites a v s = .refused .hostWriteWhileBusy)
  ∧ (∀ s : State, hostReads 0x001 s = .next { s with readData := some (statusByte s) })
  ∧ ∀ (s : State) (a : Nat), s.busy = true → a < 2048 → a ≠ 0x001 →
    hostReads a s = .next { s with readData := some (Config.busyReadByte s.fresh), fresh := s.fresh + 1 }

/-- The model's choice of form for what the spec leaves open (logs 6, 7), 60_exceptions.md R262 with U6, R252 item 4 with U5: under the
poll timeout a free value decides whether an answer is already there or the exchange times out; where an answer and the end of a
finite timeout coincide, a free value decides which is taken; with the "forever" sentinel only the answer is there. -/
def Obligations.CoincidencesAreFreeChoices : Prop :=
  (∀ (s : State) (x : Exchange), s.xch = some x → x.timeout = 0x0000 → s.abortReq = false →
    (∀ (a : Answer) (rest : List Input), a ≠ .line [] → s.inbox = .answer a :: rest →
      step s = .next (if Config.pollAnswerThere s.fresh
        then endExchange (decodeAnswer x.rxCrc a) { s with inbox := rest, fresh := s.fresh + 1 }
        else endExchange (.err .timeout) { s with inbox := rest, fresh := s.fresh + 1 }))
    ∧ ∀ i : Instr, i.kind = .atqa ∨ i.kind = .anticollAnswer ∨ i.kind = .sakAnswer ∨ i.kind = .ratsAnswer →
      exec i s = .next (if Config.pollAnswerThere s.fresh
        then endExchange (decodeAnswer x.rxCrc (.line (frameLine (encode i)))) { s with fresh := s.fresh + 1 }
        else endExchange (.err .timeout) { s with fresh := s.fresh + 1 }))
  ∧ ∀ (s : State) (x : Exchange) (a : Answer) (rest : List Input), s.xch = some x → s.abortReq = false → a ≠ .line [] →
    s.inbox = .answerAtTimeout a :: rest →
    (x.timeout ≠ 0x0000 → x.timeout ≠ 0xFFFF →
      step s = .next (if Config.answerBeatsTimeout s.fresh
        then endExchange (decodeAnswer x.rxCrc a) { s with inbox := rest, fresh := s.fresh + 1 }
        else endExchange (.err .timeout) { s with inbox := rest, fresh := s.fresh + 1 }))
    ∧ (x.timeout = 0xFFFF → step s = .next (endExchange (decodeAnswer x.rxCrc a) { s with inbox := rest }))

/-- 60_exceptions.md R262: with a finite timeout an exchange always ends; with the sentinel 0xFFFF and silence it never does. -/
def Obligations.FiniteTimeoutEndsAnExchange : Prop :=
  ∀ (s : State) (r : Run) (d : Due) (x : Exchange), Awaits s r d x → s.abortReq = false → s.inbox = [] →
    (x.timeout ≠ 0xFFFF → ∃ t, step s = .next t ∧ t.xch = none)
    ∧ (x.timeout = 0xFFFF → ∀ k, Host.Core.run Sys2Proof.core k s = .next s)

/-! ### The step, the host port and the decoder (20_memory.md, 30_encoding.md) -/

/-- A step runs the instruction that is next: a command word whose opcode the host writes to `CMD`, the frame row that is due, the
received-frame row that arrives and is awaited. -/
def Obligations.StepRunsTheDecodedInstruction : Prop :=
  ∀ (s : State) (i : Instr) (rest : List Input),
    (∀ op, s.inbox = .hostWrite 0x000 op :: rest → (s.abortReq && waiting s) = false →
      decode .hostCommand (commandWord op s.p0 s.p1) = .instr i → step s = exec i { s with inbox := rest })
    ∧ (∀ f d r, (s.inbox = .proceed :: rest ∨ (s.inbox = [] ∧ rest = [])) → Sends s r d → dueFrame s = some f →
      decode .transmit f = .instr i → step s = exec i { s with inbox := rest })
    ∧ ∀ bits f k, s.inbox = .answer (.line bits) :: rest → (s.abortReq && waiting s) = false → awaitedKind s = some k →
        lineDecode bits = .ok f → decode k f = .instr i → step s = exec i { s with inbox := rest }

/-- 42_bit_transceive.md R163: reading a line frame as an instruction or not makes no difference: an answer always does what its
arrival does, and the frame that is due is always handed over. -/
def Obligations.FrameRowsAreTheExchange : Prop :=
  (∀ (a : Answer) (s : State), answerMove a s = .next (answerArrives a s))
  ∧ ∀ (s : State) (r : Run) (d : Due), Sends s r d → runDueFrame s = .next (sendDue s)

/-- 30_encoding.md R83, 60_exceptions.md R275: an opcode outside the map ends with `CommandNotSupported` and changes nothing else. -/
def Obligations.UndefinedOpcodeIsNotSupported : Prop :=
  ∀ (s : State) (op : Byte), s.busy = false →
    ((0x03 ≤ op.toNat ∧ op.toNat ≤ 0x0F) ∨ (0x17 ≤ op.toNat ∧ op.toNat ≤ 0x1F) ∨ (0x2A ≤ op.toNat ∧ op.toNat ≤ 0x2F)
      ∨ (0x32 ≤ op.toNat ∧ op.toNat ≤ 0x3F) ∨ 0x43 ≤ op.toNat) →
    hostWrites 0x000 op s = .next (ended op .commandNotSupported s)

/-- 20_memory.md R62 to R64, 10_state.md R22: what each address reads as while the block is idle (`RXBUF` and `ATSBUF` inside their
frames), the bits of `STATUS`, `CFG` and `WARN` (R25, R28), and the numbers of `ERR` (60_exceptions.md R246), `ASM_STATE` (R23) and
`CL` (R29). -/
def Obligations.HostReadsFollowTheMap : Prop :=
  (∀ s : State, s.busy = false →
    (∀ p ∈ [(0x000, s.cmd), (0x001, statusByte s), (0x002, errCode s.err), (0x003, cfgByte s.cfg), (0x004, s.p0), (0x005, s.p1),
        (0x006, s.timeout.extractLsb' 0 8), (0x007, s.timeout.extractLsb' 8 8), (0x008, asmCode s.asm), (0x009, warnByte s.warn),
        (0x00A, clCode s.cl), (0x00B, s.sak), (0x00C, s.atqa0), (0x00D, s.atqa1), (0x00E, s.uidLen), (0x00F, 0x00),
        (0x010, s.atsLen.extractLsb' 0 8), (0x011, s.atsLen.extractLsb' 8 8), (0x012, s.crcRes.extractLsb' 0 8),
        (0x013, s.crcRes.extractLsb' 8 8), (0x014, s.hbOff.extractLsb' 0 8), (0x015, s.hbOff.extractLsb' 8 8),
        (0x016, s.hbLen.extractLsb' 0 8), (0x017, s.hbLen.extractLsb' 8 8), (0x018, s.txBits.extractLsb' 0 8),
        (0x019, s.txBits.extractLsb' 8 8), (0x01A, s.rxBits.extractLsb' 0 8), (0x01B, s.rxBits.extractLsb' 8 8),
        (0x01C, s.ratsParam), (0x01D, s.pollCnt), (0x01E, sakFlags s.sak)],
      hostReads p.1 s = .next { s with readData := some p.2 })
    ∧ (∀ i, i < 10 → hostReads (0x040 + i) s = .next { s with readData := some (s.uid.toList.getD i 0) })
    ∧ (∀ i, i < 12 → hostReads (0x050 + i) s = .next { s with readData := some (s.rawUid.toList.getD i 0) })
    ∧ (∀ i, i < 3 → hostReads (0x05C + i) s = .next { s with readData := some (s.rawBcc.toList.getD i 0) })
    ∧ (∀ i, i < 264 → hostReads (0x100 + i) s = .next { s with readData := some (s.bufByte (0x100 + i)) })
    ∧ (∀ i, i < 264 → i < (s.rxBits.toNat + 7) / 8 → hostReads (0x300 + i) s = .next { s with readData := some (s.bufByte (0x300 + i)) })
    ∧ (∀ i, i < 264 → i < s.atsLen.toNat → hostReads (0x500 + i) s = .next { s with readData := some (s.bufByte (0x500 + i)) })
    ∧ ∀ a, (0x01F ≤ a ∧ a ≤ 0x03F) ∨ (0x04A ≤ a ∧ a ≤ 0x04F) ∨ (0x05F ≤ a ∧ a ≤ 0x0FF) ∨ (0x208 ≤ a ∧ a ≤ 0x2FF)
        ∨ (0x408 ≤ a ∧ a ≤ 0x4FF) ∨ (0x608 ≤ a ∧ a ≤ 0x7FF) →
      hostReads a s = .next { s with readData := some 0x00 })
  ∧ (∀ s : State,
    (statusByte s).getLsbD 0 = s.busy ∧ (statusByte s).getLsbD 1 = s.done
    ∧ (statusByte s).getLsbD 2 = decide (errCode s.err ≠ 0x00) ∧ (statusByte s).getLsbD 3 = s.matched
    ∧ (statusByte s).getLsbD 4 = s.found ∧ (statusByte s).getLsbD 5 = decide (warnByte s.warn ≠ 0x00)
    ∧ (statusByte s).getLsbD 6 = s.abortReq ∧ (statusByte s).getLsbD 7 = false)
  ∧ (∀ c : Cfg, (cfgByte c).getLsbD 0 = c.handleCrc ∧ (cfgByte c).getLsbD 1 = c.easyFraming
    ∧ (cfgByte c).getLsbD 2 = c.autoIso14443_4 ∧ (cfgByte c).getLsbD 3 = c.infiniteSelect
    ∧ ∀ k, 4 ≤ k → (cfgByte c).getLsbD k = false)
  ∧ (∀ w : Warn, (warnByte w).getLsbD 0 = w.bcc1 ∧ (warnByte w).getLsbD 1 = w.bcc2 ∧ (warnByte w).getLsbD 2 = w.bcc3
    ∧ (warnByte w).getLsbD 3 = w.ct1 ∧ (warnByte w).getLsbD 4 = w.ct2 ∧ ∀ k, 5 ≤ k → (warnByte w).getLsbD k = false)
  ∧ (∀ p ∈ [(ErrKind.noError, (0x00 : Byte)), (.timeout, 0x01), (.crcMismatch, 0x02), (.parityError, 0x03), (.bitCountError, 0x04),
      (.framingError, 0x05), (.bitCollision, 0x06), (.bufferTooSmall, 0x07), (.bufferOverflow, 0x08), (.rfTimeout, 0x09),
      (.rfProtocolError, 0x0A), (.invalidParameter, 0x0B), (.commandNotSupported, 0x0C), (.deviceNotSupported, 0x0D),
      (.notImplemented, 0x0E), (.aborted, 0x0F), (.ioError, 0x10)],
    errCode p.1 = p.2)
  ∧ (∀ p ∈ [(AsmState.idle, (0x00 : Byte)), (.reqSent, 0x01), (.arbitration .cl1, 0x02), (.selected .cl1, 0x03),
      (.arbitration .cl2, 0x04), (.selected .cl2, 0x05), (.arbitration .cl3, 0x06), (.selected .cl3, 0x07), (.ratsSent, 0x08),
      (.activated, 0x09), (.noTag, 0x0A)],
    asmCode p.1 = p.2)
  ∧ clCode none = 0x00 ∧ clCode (some .cl1) = 0x01 ∧ clCode (some .cl2) = 0x02 ∧ clCode (some .cl3) = 0x03
/-- 20_memory.md R63, R67: while the block is idle, a write to a host-writable location other than `CMD` is read back there and changes
what no other address reads as; a write anywhere else changes nothing. -/
def Obligations.HostWritesStoreAndNothingElse : Prop :=
  ∀ (s : State) (a : Nat) (v : Byte), s.busy = false → a < 2048 → a ≠ 0x000 →
    (a = 0x004 ∨ a = 0x005 ∨ a = 0x006 ∨ a = 0x007 ∨ a = 0x018 ∨ a = 0x019 ∨ a = 0x01C ∨ (0x100 ≤ a ∧ a < 0x208) →
      ∃ t, hostWrites a v s = .next t ∧ ∀ b, readByte b t = if b = a then v else readByte b s)
    ∧ (¬(a = 0x004 ∨ a = 0x005 ∨ a = 0x006 ∨ a = 0x007 ∨ a = 0x018 ∨ a = 0x019 ∨ a = 0x01C ∨ (0x100 ≤ a ∧ a < 0x208)) →
      hostWrites a v s = .next s)

/-- 30_encoding.md R101: the moves of `TXFRAME` leave its bytes in `TXBUF` and its length in `TX_BITS`, and change nothing else. -/
def Obligations.TxFrameLoadsTheFrame : Prop :=
  ∀ (s : State) (bytes : List Byte) (nbits : Nat) (rest : List Input), s.busy = false → s.abortReq = false →
    bytes.length ≤ 264 → nbits < 65536 → s.inbox = expand (.txFrame bytes nbits) ++ rest →
    ∃ t, Host.Core.run Sys2Proof.core (bytes.length + 2) s = .next t
      ∧ t = { s with inbox := rest, txBits := BitVec.ofNat 16 nbits, mem := t.mem } ∧ Stores s t 0x100 bytes

/-- Words written out from 30_encoding.md R80, R82, R86, R89, R91, R94 decode, on the port they stand on, to the instructions they
stand for; the two bytes 95 20 are one frame where the block sends and another where it awaits an ATQA. -/
def Obligations.WrittenWordsDecode : Prop :=
  decode .hostCommand ⟨[0x02, 0x03, 0x01], 24⟩ = .instr (.configure 0x03 0x01)
  ∧ decode .hostCommand ⟨[0x27, 0x02, 0x01], 24⟩ = .instr (.parseAnticoll 0x02 0x01)
  ∧ decode .hostCommand ⟨[0x42, 0x03, 0x05], 24⟩ = .instr (.poll 0x03 0x05)
  ∧ decode .transmit ⟨[0x26], 7⟩ = .instr .reqa
  ∧ decode .transmit ⟨[0x95, 0x20], 16⟩ = .instr .anticollCl2
  ∧ decode .transmit ⟨[0x50, 0x00, 0x57, 0xCD], 32⟩ = .instr .halt
  ∧ decode .atqa ⟨[0x95, 0x20], 16⟩ = .instr (.atqa 0x95 0x20)


/-- 30_encoding.md R80 to R97: decoding what the encoder writes gives the instruction back, for every well-formed instruction with
every value of its operands. -/
def Obligations.DecodeInvertsEncode : Prop :=
  ∀ i : Instr, i.wellFormed = true → decode i.kind (encode i) = .instr i

/-- 30_encoding.md R84, 43_activation.md R190: where a kind of answer is awaited, the line frame of a well-formed row of that kind is
read as that row, and a line frame read as a row is that row's own line frame. -/
def Obligations.AwaitedRowsAreRecognised : Prop :=
  ∀ (s : State) (k : FrameKind), awaitedKind s = some k →
    (∀ i : Instr, i.wellFormed = true → i.kind = k → receivedInstr s (frameLine (encode i)) = some i)
    ∧ ∀ (bits : LineBits) (i : Instr), receivedInstr s bits = some i → frameLine (encode i) = bits

/-! ### Reset, invariants and whole-machine rules -/

/-- 70_reset_and_hazards.md R281: every element of the block after reset; the buffers are unspecified, so nothing is said of them. -/
def Obligations.ResetValues : Prop :=
  State.reset = { State.reset with
    cmd := 0x00, busy := false, done := false, matched := false, found := false, err := .noError
    cfg := ⟨false, false, false, false⟩, p0 := 0x00, p1 := 0x00, timeout := 0x0000, asm := .idle
    warn := ⟨false, false, false, false, false⟩, cl := none, sak := 0x00, atqa0 := 0x00, atqa1 := 0x00, uidLen := 0x00
    uid := Vector.replicate 10 0x00, rawUid := Vector.replicate 12 0x00, rawBcc := Vector.replicate 3 0x00, atsLen := 0x0000
    crcRes := 0x0000, hbOff := 0x0000, hbLen := 0x0000, txBits := 0x0000, rxBits := 0x0000, ratsParam := 0x50, pollCnt := 0x00
    abortReq := false, xch := none, run := none }

/-- 70_reset_and_hazards.md R280, R281 with U14: hardware reset, in every state and before anything else: every element takes its reset
value, the exchange and the command in progress are dropped, buffers become unspecified, so nothing is said of them. That a reset is
the next move of the inbox and that the model's own fields go on (the frames already sent among them) is the model's choice
(log 18). -/
def Obligations.HardwareResetAtAnyMoment : Prop :=
  ∀ (s : State) (rest : List Input), s.inbox = .reset :: rest →
    ∃ t, step s = .next t
      ∧ t = { State.reset with
          mem := t.mem
          txGen := t.txGen
          rxGen := t.rxGen
          atsGen := t.atsGen
          inbox := rest
          rfOut := s.rfOut
          readData := s.readData
          fresh := s.fresh }
      ∧ t.cmd = 0x00 ∧ statusByte t = 0x00 ∧ t.err = .noError ∧ t.asm = .idle ∧ t.cl = none ∧ t.uidLen = 0x00 ∧ t.timeout = 0x0000
      ∧ t.ratsParam = 0x50 ∧ t.abortReq = false ∧ t.xch = none ∧ t.run = none

/-- The state after reset is well formed. -/
def Obligations.ResetIsWellFormed : Prop := Inv State.reset

/-- Every step from a well-formed state leads to a well-formed state: memory keeps its canonical form and stays inside the buffers
(20_memory.md R74), `BUSY` and `DONE` are never both set (10_state.md R22), an outstanding exchange implies `BUSY` and agrees with
`ASM_STATE` (10_state.md R42, 43_activation.md R190), `RX_BITS`, `ATS_LEN` and `UID_LEN` stay legal (R38, R34, R32). -/
def Obligations.StepKeepsTheInvariant : Prop :=
  ∀ s t : State, Inv s → step s = .next t → Inv t

/-- 43_activation.md R215: from a well-formed state, a step leaves `ASM_STATE` or makes one of the listed transitions. -/
def Obligations.StepMakesListedTransitions : Prop :=
  ∀ s t : State, Inv s → step s = .next t → t.asm = s.asm ∨ AsmTransition s.asm t.asm

/-- 30_encoding.md R82, 10_state.md R25, R26, R30, R35, R36, R40: the registers that few commands write, and which those are; `CRC_RES`
is written by the CRC commands and by a frame that the codec or the sequencer builds with a CRC, by XCV_BITS and XCV_BYTES never. -/
def Obligations.RegistersHaveTheirWriters : Prop :=
  ∀ (i : Instr) (s t : State), exec i s = .next t → i ≠ .initInitiator →
    t.p0 = s.p0 ∧ t.p1 = s.p1 ∧ t.timeout = s.timeout ∧ t.ratsParam = s.ratsParam
    ∧ ((∀ o e, i ≠ .configure o e) → t.cfg = s.cfg)
    ∧ ((∀ src, i ≠ .locateHist src) → t.hbOff = s.hbOff ∧ t.hbLen = s.hbLen)
    ∧ ((∀ a p, i ≠ .poll a p) → t.pollCnt = s.pollCnt)
    ∧ (writesCrcRes i = false → t.crcRes = s.crcRes)
    ∧ ((∃ r, Sends s r .raw) → i.kind = .transmit → t.crcRes = s.crcRes)
    ∧ ((∀ src, i ≠ .parseSak src) → (∀ w, i ≠ .activate w) → (∀ a p, i ≠ .poll a p) → i ≠ .deselect → i.kind = .hostCommand →
        t.sak = s.sak)


/-- 70_reset_and_hazards.md R293: no instruction but INIT_INITIATOR and the two append commands changes `TXBUF[9..264)`. -/
def Obligations.UpperTxBufIsTheHosts : Prop :=
  ∀ (i : Instr) (s t : State) (k : Nat), exec i s = .next t → i ≠ .initInitiator → i ≠ .crcAAppend → i ≠ .crcBAppend →
    9 ≤ k → k < 264 → t.txByte k = s.txByte k

/-- 43_activation.md R191, its worked example for every 4-byte UID: ACTIVATE 0 with a tag that answers each frame sends three line
frames and ends `Activated` with that UID. -/
def Obligations.ActivationOfASingleSizeUid : Prop :=
  ∀ (s : State) (a0 a1 u0 u1 u2 u3 sak : Byte), s.busy = false → s.abortReq = false → s.p0 = 0x00 → s.timeout ≠ 0x0000 →
    sak.getLsbD 2 = false → sak.getLsbD 5 = false →
    s.inbox = [.hostWrite 0x000 0x40,
      .proceed, .answer (.line (frameLine (encode (.atqa a0 a1)))),
      .proceed, .answer (.line (frameLine (encode (.anticollAnswer u0 u1 u2 u3 (u0 ^^^ u1 ^^^ u2 ^^^ u3))))),
      .proceed, .answer (.line (frameLine (encode (.sakAnswer sak))))] →
    ∃ t, Host.Core.run Sys2Proof.core 7 s = .next t
      ∧ t.asm = .activated ∧ t.found = true ∧ t.busy = false ∧ t.done = true ∧ t.err = .noError
      ∧ t.uid.toList = [u0, u1, u2, u3, 0, 0, 0, 0, 0, 0] ∧ t.uidLen = 4 ∧ t.sak = sak ∧ t.atqa0 = a0 ∧ t.atqa1 = a1
      ∧ t.atsLen = 0 ∧ warnByte t.warn = 0x00 ∧ t.cl = some .cl1
      ∧ t.rfOut = s.rfOut ++ [frameLine (encode .reqa), frameLine (encode .anticollCl1),
          frameLine (encode (.selectCl1 u0 u1 u2 u3 (u0 ^^^ u1 ^^^ u2 ^^^ u3)))]

end
end

