-- ==== Sys2Proof/Laws/Crc.lean ====
section
/-! SUPPORT. The laws of the CRC functions: appending a byte is one update, and the two result bytes of a 16-bit value. -/

namespace Sys2Proof.Machine

theorem crcA_append (d e : List Byte) : crcA (d ++ e) = e.foldl crcUpdate (crcA d) := List.foldl_append

theorem crcBLoop_append (d e : List Byte) : crcBLoop (d ++ e) = e.foldl crcUpdate (crcBLoop d) := List.foldl_append

@[simp] theorem crcBytes_length (c : Half) : (crcBytes c).length = 2 := rfl

theorem loByte_getLsbD (h : Half) (i : Nat) : (loByte h).getLsbD i = (decide (i < 8) && h.getLsbD i) := by
  simp [loByte]

theorem hiByte_getLsbD (h : Half) (i : Nat) : (hiByte h).getLsbD i = (decide (i < 8) && h.getLsbD (8 + i)) := by
  simp [hiByte]

theorem halfOf_getLsbD (lo hi : Byte) (i : Nat) :
    (halfOf lo hi).getLsbD i = if i < 8 then lo.getLsbD i else hi.getLsbD (i - 8) := by
  unfold halfOf
  refine (BitVec.getLsbD_append (x := hi) (y := lo)).trans ?_
  by_cases h : i < 8 <;> simp [h]

@[simp] theorem loByte_halfOf (lo hi : Byte) : loByte (halfOf lo hi) = lo := by
  refine BitVec.eq_of_getLsbD_eq fun i h => ?_
  rw [loByte_getLsbD, halfOf_getLsbD, if_pos h, decide_eq_true h, Bool.true_and]

@[simp] theorem hiByte_halfOf (lo hi : Byte) : hiByte (halfOf lo hi) = hi := by
  refine BitVec.eq_of_getLsbD_eq fun i h => ?_
  rw [hiByte_getLsbD, halfOf_getLsbD, if_neg (by omega), decide_eq_true h, Bool.true_and, Nat.add_sub_cancel_left]

@[simp] theorem halfOf_bytes (h : Half) : halfOf (loByte h) (hiByte h) = h := by
  refine BitVec.eq_of_getLsbD_eq fun i hi => ?_
  rw [halfOf_getLsbD, loByte_getLsbD, hiByte_getLsbD]
  by_cases h8 : i < 8
  · simp [h8]
  · have h1 : i - 8 < 8 := by omega
    have h2 : 8 + (i - 8) = i := by omega
    simp [h8, h1, h2]

/-- Two result bytes are the CRC `c` exactly when they are its low and high byte. -/
theorem crcBytes_eq_iff (x y : Byte) (c : Half) : [x, y] = crcBytes c ↔ x = loByte c ∧ y = hiByte c := by
  simp [crcBytes]

/-- What a byte adds to the CRC once the low byte of the CRC has been mixed into it. -/
def crcMix (t : Byte) : Half :=
  let t : Byte := t ^^^ (t <<< 4)
  let t : Half := t.setWidth 16
  (t <<< 8) ^^^ (t <<< 3) ^^^ (t >>> 4)

theorem crcUpdate_eq_mix (w : Half) (b : Byte) : crcUpdate w b = (w >>> 8) ^^^ crcMix (b ^^^ loByte w) := by
  simp only [crcUpdate, crcMix, BitVec.xor_assoc]

theorem loByte_xor (v w : Half) : loByte (v ^^^ w) = loByte v ^^^ loByte w := by simp [loByte]

theorem hiByte_xor (v w : Half) : hiByte (v ^^^ w) = hiByte v ^^^ hiByte w := by simp [hiByte, BitVec.ushiftRight_xor_distrib]

theorem loByte_shift (w : Half) : loByte (w >>> 8) = hiByte w := rfl

theorem hiByte_shift (w : Half) : hiByte (w >>> 8) = 0#8 := by
  refine BitVec.eq_of_getLsbD_eq fun i _ => ?_
  rw [hiByte_getLsbD, BitVec.getLsbD_ushiftRight, BitVec.getLsbD_of_ge _ _ (by omega)]
  simp

theorem half_ext (v w : Half) : v = w ↔ loByte v = loByte w ∧ hiByte v = hiByte w := by
  refine ⟨fun h => by simp [h], fun h => ?_⟩
  rw [← halfOf_bytes v, ← halfOf_bytes w, h.1, h.2]

/-- The byte whose mix has the given high byte. -/
def crcUnmix (h : Byte) : Byte :=
  let h : Byte := h ^^^ (h >>> 5)
  h ^^^ (h <<< 4)

set_option maxRecDepth 20000 in
theorem crcUnmix_mix (t : Byte) : crcUnmix (hiByte (crcMix t)) = t := by
  have h : ∀ x : Fin 256, crcUnmix (hiByte (crcMix (BitVec.ofFin x))) = BitVec.ofFin x := by decide
  exact h t.toFin

/-- A mixed byte is known by the high byte of its mix. -/
theorem hiByte_mix_iff (t u : Byte) : hiByte (crcMix t) = hiByte (crcMix u) ↔ t = u :=
  ⟨fun h => by rw [← crcUnmix_mix t, h, crcUnmix_mix], fun h => by rw [h]⟩

/-- Two bytes determine the CRC that they lead to, and are determined by it. -/
theorem crcUpdate_two_iff (w v : Half) (b0 b1 c0 c1 : Byte) :
    crcUpdate (crcUpdate w b0) b1 = crcUpdate (crcUpdate v c0) c1
      ↔ b0 ^^^ loByte w = c0 ^^^ loByte v ∧ b1 ^^^ hiByte w = c1 ^^^ hiByte v := by
  rw [crcUpdate_eq_mix, crcUpdate_eq_mix _ c1, half_ext]
  simp only [loByte_xor, hiByte_xor, loByte_shift, hiByte_shift, BitVec.zero_xor, crcUpdate_eq_mix w b0, crcUpdate_eq_mix v c0, hiByte_mix_iff]
  constructor
  · rintro ⟨h1, h2⟩
    rw [h2] at h1
    have h3 := (hiByte_mix_iff _ _).1 (BitVec.xor_left_inj _ |>.1 h1)
    refine ⟨h3, ?_⟩
    rw [h3, ← BitVec.xor_assoc, ← BitVec.xor_assoc] at h2
    exact (BitVec.xor_left_inj _).1 h2
  · rintro ⟨h1, h2⟩
    rw [h1]
    have : b1 ^^^ (hiByte w ^^^ loByte (crcMix (c0 ^^^ loByte v))) = c1 ^^^ (hiByte v ^^^ loByte (crcMix (c0 ^^^ loByte v))) := by
      rw [← BitVec.xor_assoc, ← BitVec.xor_assoc, h2]
    rw [this]
    exact ⟨rfl, rfl⟩
theorem loByte_not (w : Half) : loByte (~~~ w) = ~~~ loByte w := by
  refine BitVec.eq_of_getLsbD_eq fun i h => ?_
  have : i < 16 := by omega
  rw [loByte_getLsbD, BitVec.getLsbD_not, BitVec.getLsbD_not, loByte_getLsbD]
  simp [h, this]

theorem hiByte_not (w : Half) : hiByte (~~~ w) = ~~~ hiByte w := by
  refine BitVec.eq_of_getLsbD_eq fun i h => ?_
  have : 8 + i < 16 := by omega
  rw [hiByte_getLsbD, BitVec.getLsbD_not, BitVec.getLsbD_not, hiByte_getLsbD]
  simp [h, this]

end Sys2Proof.Machine
end

