-- ==== Sys2Proof/Laws/State.lean ====
section
/-! SUPPORT. One lemma per field per shared update of the state: what the field is afterwards. All true by rfl and tagged simp,
so that no proof unfolds a record update. -/

namespace Sys2Proof.Machine

variable (s : State)

/-! ### State.accept -/

@[simp] theorem State.accept_cmd (op : Byte) : (s.accept op).cmd = op := rfl
@[simp] theorem State.accept_busy (op : Byte) : (s.accept op).busy = true := rfl
@[simp] theorem State.accept_done (op : Byte) : (s.accept op).done = false := rfl
@[simp] theorem State.accept_matched (op : Byte) : (s.accept op).matched = false := rfl
@[simp] theorem State.accept_found (op : Byte) : (s.accept op).found = false := rfl
@[simp] theorem State.accept_err (op : Byte) : (s.accept op).err = .noError := rfl
@[simp] theorem State.accept_cfg (op : Byte) : (s.accept op).cfg = s.cfg := rfl
@[simp] theorem State.accept_p0 (op : Byte) : (s.accept op).p0 = s.p0 := rfl
@[simp] theorem State.accept_p1 (op : Byte) : (s.accept op).p1 = s.p1 := rfl
@[simp] theorem State.accept_timeout (op : Byte) : (s.accept op).timeout = s.timeout := rfl
@[simp] theorem State.accept_asm (op : Byte) : (s.accept op).asm = s.asm := rfl
@[simp] theorem State.accept_warn (op : Byte) : (s.accept op).warn = s.warn := rfl
@[simp] theorem State.accept_cl (op : Byte) : (s.accept op).cl = s.cl := rfl
@[simp] theorem State.accept_sak (op : Byte) : (s.accept op).sak = s.sak := rfl
@[simp] theorem State.accept_atqa0 (op : Byte) : (s.accept op).atqa0 = s.atqa0 := rfl
@[simp] theorem State.accept_atqa1 (op : Byte) : (s.accept op).atqa1 = s.atqa1 := rfl
@[simp] theorem State.accept_uidLen (op : Byte) : (s.accept op).uidLen = s.uidLen := rfl
@[simp] theorem State.accept_uid (op : Byte) : (s.accept op).uid = s.uid := rfl
@[simp] theorem State.accept_rawUid (op : Byte) : (s.accept op).rawUid = s.rawUid := rfl
@[simp] theorem State.accept_rawBcc (op : Byte) : (s.accept op).rawBcc = s.rawBcc := rfl
@[simp] theorem State.accept_atsLen (op : Byte) : (s.accept op).atsLen = s.atsLen := rfl
@[simp] theorem State.accept_crcRes (op : Byte) : (s.accept op).crcRes = s.crcRes := rfl
@[simp] theorem State.accept_hbOff (op : Byte) : (s.accept op).hbOff = s.hbOff := rfl
@[simp] theorem State.accept_hbLen (op : Byte) : (s.accept op).hbLen = s.hbLen := rfl
@[simp] theorem State.accept_txBits (op : Byte) : (s.accept op).txBits = s.txBits := rfl
@[simp] theorem State.accept_rxBits (op : Byte) : (s.accept op).rxBits = s.rxBits := rfl
@[simp] theorem State.accept_ratsParam (op : Byte) : (s.accept op).ratsParam = s.ratsParam := rfl
@[simp] theorem State.accept_pollCnt (op : Byte) : (s.accept op).pollCnt = s.pollCnt := rfl
@[simp] theorem State.accept_mem (op : Byte) : (s.accept op).mem = s.mem := rfl
@[simp] theorem State.accept_abortReq (op : Byte) : (s.accept op).abortReq = false := rfl
@[simp] theorem State.accept_xch (op : Byte) : (s.accept op).xch = s.xch := rfl
@[simp] theorem State.accept_run (op : Byte) : (s.accept op).run = s.run := rfl
@[simp] theorem State.accept_inbox (op : Byte) : (s.accept op).inbox = s.inbox := rfl
@[simp] theorem State.accept_rfOut (op : Byte) : (s.accept op).rfOut = s.rfOut := rfl
@[simp] theorem State.accept_readData (op : Byte) : (s.accept op).readData = s.readData := rfl
@[simp] theorem State.accept_fresh (op : Byte) : (s.accept op).fresh = s.fresh := rfl
@[simp] theorem State.accept_txGen (op : Byte) : (s.accept op).txGen = s.txGen := rfl
@[simp] theorem State.accept_rxGen (op : Byte) : (s.accept op).rxGen = s.rxGen := rfl
@[simp] theorem State.accept_atsGen (op : Byte) : (s.accept op).atsGen = s.atsGen := rfl

/-! ### State.complete -/

@[simp] theorem State.complete_cmd : (s.complete).cmd = s.cmd := rfl
@[simp] theorem State.complete_busy : (s.complete).busy = false := rfl
@[simp] theorem State.complete_done : (s.complete).done = true := rfl
@[simp] theorem State.complete_matched : (s.complete).matched = s.matched := rfl
@[simp] theorem State.complete_found : (s.complete).found = s.found := rfl
@[simp] theorem State.complete_err : (s.complete).err = s.err := rfl
@[simp] theorem State.complete_cfg : (s.complete).cfg = s.cfg := rfl
@[simp] theorem State.complete_p0 : (s.complete).p0 = s.p0 := rfl
@[simp] theorem State.complete_p1 : (s.complete).p1 = s.p1 := rfl
@[simp] theorem State.complete_timeout : (s.complete).timeout = s.timeout := rfl
@[simp] theorem State.complete_asm : (s.complete).asm = s.asm := rfl
@[simp] theorem State.complete_warn : (s.complete).warn = s.warn := rfl
@[simp] theorem State.complete_cl : (s.complete).cl = s.cl := rfl
@[simp] theorem State.complete_sak : (s.complete).sak = s.sak := rfl
@[simp] theorem State.complete_atqa0 : (s.complete).atqa0 = s.atqa0 := rfl
@[simp] theorem State.complete_atqa1 : (s.complete).atqa1 = s.atqa1 := rfl
@[simp] theorem State.complete_uidLen : (s.complete).uidLen = s.uidLen := rfl
@[simp] theorem State.complete_uid : (s.complete).uid = s.uid := rfl
@[simp] theorem State.complete_rawUid : (s.complete).rawUid = s.rawUid := rfl
@[simp] theorem State.complete_rawBcc : (s.complete).rawBcc = s.rawBcc := rfl
@[simp] theorem State.complete_atsLen : (s.complete).atsLen = s.atsLen := rfl
@[simp] theorem State.complete_crcRes : (s.complete).crcRes = s.crcRes := rfl
@[simp] theorem State.complete_hbOff : (s.complete).hbOff = s.hbOff := rfl
@[simp] theorem State.complete_hbLen : (s.complete).hbLen = s.hbLen := rfl
@[simp] theorem State.complete_txBits : (s.complete).txBits = s.txBits := rfl
@[simp] theorem State.complete_rxBits : (s.complete).rxBits = s.rxBits := rfl
@[simp] theorem State.complete_ratsParam : (s.complete).ratsParam = s.ratsParam := rfl
@[simp] theorem State.complete_pollCnt : (s.complete).pollCnt = s.pollCnt := rfl
@[simp] theorem State.complete_mem : (s.complete).mem = s.mem := rfl
@[simp] theorem State.complete_abortReq : (s.complete).abortReq = false := rfl
@[simp] theorem State.complete_xch : (s.complete).xch = none := rfl
@[simp] theorem State.complete_run : (s.complete).run = none := rfl
@[simp] theorem State.complete_inbox : (s.complete).inbox = s.inbox := rfl
@[simp] theorem State.complete_rfOut : (s.complete).rfOut = s.rfOut := rfl
@[simp] theorem State.complete_readData : (s.complete).readData = s.readData := rfl
@[simp] theorem State.complete_fresh : (s.complete).fresh = s.fresh := rfl
@[simp] theorem State.complete_txGen : (s.complete).txGen = s.txGen := rfl
@[simp] theorem State.complete_rxGen : (s.complete).rxGen = s.rxGen := rfl
@[simp] theorem State.complete_atsGen : (s.complete).atsGen = s.atsGen := rfl

/-! ### State.raise -/

@[simp] theorem State.raise_cmd (e : ErrKind) : (s.raise e).cmd = s.cmd := rfl
@[simp] theorem State.raise_busy (e : ErrKind) : (s.raise e).busy = false := rfl
@[simp] theorem State.raise_done (e : ErrKind) : (s.raise e).done = true := rfl
@[simp] theorem State.raise_matched (e : ErrKind) : (s.raise e).matched = s.matched := rfl
@[simp] theorem State.raise_found (e : ErrKind) : (s.raise e).found = s.found := rfl
@[simp] theorem State.raise_err (e : ErrKind) : (s.raise e).err = e := rfl
@[simp] theorem State.raise_cfg (e : ErrKind) : (s.raise e).cfg = s.cfg := rfl
@[simp] theorem State.raise_p0 (e : ErrKind) : (s.raise e).p0 = s.p0 := rfl
@[simp] theorem State.raise_p1 (e : ErrKind) : (s.raise e).p1 = s.p1 := rfl
@[simp] theorem State.raise_timeout (e : ErrKind) : (s.raise e).timeout = s.timeout := rfl
@[simp] theorem State.raise_asm (e : ErrKind) : (s.raise e).asm = s.asm := rfl
@[simp] theorem State.raise_warn (e : ErrKind) : (s.raise e).warn = s.warn := rfl
@[simp] theorem State.raise_cl (e : ErrKind) : (s.raise e).cl = s.cl := rfl
@[simp] theorem State.raise_sak (e : ErrKind) : (s.raise e).sak = s.sak := rfl
@[simp] theorem State.raise_atqa0 (e : ErrKind) : (s.raise e).atqa0 = s.atqa0 := rfl
@[simp] theorem State.raise_atqa1 (e : ErrKind) : (s.raise e).atqa1 = s.atqa1 := rfl
@[simp] theorem State.raise_uidLen (e : ErrKind) : (s.raise e).uidLen = s.uidLen := rfl
@[simp] theorem State.raise_uid (e : ErrKind) : (s.raise e).uid = s.uid := rfl
@[simp] theorem State.raise_rawUid (e : ErrKind) : (s.raise e).rawUid = s.rawUid := rfl
@[simp] theorem State.raise_rawBcc (e : ErrKind) : (s.raise e).rawBcc = s.rawBcc := rfl
@[simp] theorem State.raise_atsLen (e : ErrKind) : (s.raise e).atsLen = s.atsLen := rfl
@[simp] theorem State.raise_crcRes (e : ErrKind) : (s.raise e).crcRes = s.crcRes := rfl
@[simp] theorem State.raise_hbOff (e : ErrKind) : (s.raise e).hbOff = s.hbOff := rfl
@[simp] theorem State.raise_hbLen (e : ErrKind) : (s.raise e).hbLen = s.hbLen := rfl
@[simp] theorem State.raise_txBits (e : ErrKind) : (s.raise e).txBits = s.txBits := rfl
@[simp] theorem State.raise_rxBits (e : ErrKind) : (s.raise e).rxBits = s.rxBits := rfl
@[simp] theorem State.raise_ratsParam (e : ErrKind) : (s.raise e).ratsParam = s.ratsParam := rfl
@[simp] theorem State.raise_pollCnt (e : ErrKind) : (s.raise e).pollCnt = s.pollCnt := rfl
@[simp] theorem State.raise_mem (e : ErrKind) : (s.raise e).mem = s.mem := rfl
@[simp] theorem State.raise_abortReq (e : ErrKind) : (s.raise e).abortReq = false := rfl
@[simp] theorem State.raise_xch (e : ErrKind) : (s.raise e).xch = none := rfl
@[simp] theorem State.raise_run (e : ErrKind) : (s.raise e).run = none := rfl
@[simp] theorem State.raise_inbox (e : ErrKind) : (s.raise e).inbox = s.inbox := rfl
@[simp] theorem State.raise_rfOut (e : ErrKind) : (s.raise e).rfOut = s.rfOut := rfl
@[simp] theorem State.raise_readData (e : ErrKind) : (s.raise e).readData = s.readData := rfl
@[simp] theorem State.raise_fresh (e : ErrKind) : (s.raise e).fresh = s.fresh := rfl
@[simp] theorem State.raise_txGen (e : ErrKind) : (s.raise e).txGen = s.txGen := rfl
@[simp] theorem State.raise_rxGen (e : ErrKind) : (s.raise e).rxGen = s.rxGen := rfl
@[simp] theorem State.raise_atsGen (e : ErrKind) : (s.raise e).atsGen = s.atsGen := rfl

/-! ### State.beginRun -/

@[simp] theorem State.beginRun_cmd (job : Job) (d : Due) : (s.beginRun job d).cmd = s.cmd := rfl
@[simp] theorem State.beginRun_busy (job : Job) (d : Due) : (s.beginRun job d).busy = s.busy := rfl
@[simp] theorem State.beginRun_done (job : Job) (d : Due) : (s.beginRun job d).done = s.done := rfl
@[simp] theorem State.beginRun_matched (job : Job) (d : Due) : (s.beginRun job d).matched = s.matched := rfl
@[simp] theorem State.beginRun_found (job : Job) (d : Due) : (s.beginRun job d).found = s.found := rfl
@[simp] theorem State.beginRun_err (job : Job) (d : Due) : (s.beginRun job d).err = s.err := rfl
@[simp] theorem State.beginRun_cfg (job : Job) (d : Due) : (s.beginRun job d).cfg = s.cfg := rfl
@[simp] theorem State.beginRun_p0 (job : Job) (d : Due) : (s.beginRun job d).p0 = s.p0 := rfl
@[simp] theorem State.beginRun_p1 (job : Job) (d : Due) : (s.beginRun job d).p1 = s.p1 := rfl
@[simp] theorem State.beginRun_timeout (job : Job) (d : Due) : (s.beginRun job d).timeout = s.timeout := rfl
@[simp] theorem State.beginRun_asm (job : Job) (d : Due) : (s.beginRun job d).asm = s.asm := rfl
@[simp] theorem State.beginRun_warn (job : Job) (d : Due) : (s.beginRun job d).warn = s.warn := rfl
@[simp] theorem State.beginRun_cl (job : Job) (d : Due) : (s.beginRun job d).cl = s.cl := rfl
@[simp] theorem State.beginRun_sak (job : Job) (d : Due) : (s.beginRun job d).sak = s.sak := rfl
@[simp] theorem State.beginRun_atqa0 (job : Job) (d : Due) : (s.beginRun job d).atqa0 = s.atqa0 := rfl
@[simp] theorem State.beginRun_atqa1 (job : Job) (d : Due) : (s.beginRun job d).atqa1 = s.atqa1 := rfl
@[simp] theorem State.beginRun_uidLen (job : Job) (d : Due) : (s.beginRun job d).uidLen = s.uidLen := rfl
@[simp] theorem State.beginRun_uid (job : Job) (d : Due) : (s.beginRun job d).uid = s.uid := rfl
@[simp] theorem State.beginRun_rawUid (job : Job) (d : Due) : (s.beginRun job d).rawUid = s.rawUid := rfl
@[simp] theorem State.beginRun_rawBcc (job : Job) (d : Due) : (s.beginRun job d).rawBcc = s.rawBcc := rfl
@[simp] theorem State.beginRun_atsLen (job : Job) (d : Due) : (s.beginRun job d).atsLen = s.atsLen := rfl
@[simp] theorem State.beginRun_crcRes (job : Job) (d : Due) : (s.beginRun job d).crcRes = s.crcRes := rfl
@[simp] theorem State.beginRun_hbOff (job : Job) (d : Due) : (s.beginRun job d).hbOff = s.hbOff := rfl
@[simp] theorem State.beginRun_hbLen (job : Job) (d : Due) : (s.beginRun job d).hbLen = s.hbLen := rfl
@[simp] theorem State.beginRun_txBits (job : Job) (d : Due) : (s.beginRun job d).txBits = s.txBits := rfl
@[simp] theorem State.beginRun_rxBits (job : Job) (d : Due) : (s.beginRun job d).rxBits = s.rxBits := rfl
@[simp] theorem State.beginRun_ratsParam (job : Job) (d : Due) : (s.beginRun job d).ratsParam = s.ratsParam := rfl
@[simp] theorem State.beginRun_pollCnt (job : Job) (d : Due) : (s.beginRun job d).pollCnt = s.pollCnt := rfl
@[simp] theorem State.beginRun_mem (job : Job) (d : Due) : (s.beginRun job d).mem = s.mem := rfl
@[simp] theorem State.beginRun_abortReq (job : Job) (d : Due) : (s.beginRun job d).abortReq = s.abortReq := rfl
@[simp] theorem State.beginRun_xch (job : Job) (d : Due) : (s.beginRun job d).xch = s.xch := rfl
@[simp] theorem State.beginRun_run (job : Job) (d : Due) : (s.beginRun job d).run =
    some ⟨job, .transmit d, s.timeout, s.ratsParam⟩ := rfl
@[simp] theorem State.beginRun_inbox (job : Job) (d : Due) : (s.beginRun job d).inbox = s.inbox := rfl
@[simp] theorem State.beginRun_rfOut (job : Job) (d : Due) : (s.beginRun job d).rfOut = s.rfOut := rfl
@[simp] theorem State.beginRun_readData (job : Job) (d : Due) : (s.beginRun job d).readData = s.readData := rfl
@[simp] theorem State.beginRun_fresh (job : Job) (d : Due) : (s.beginRun job d).fresh = s.fresh := rfl
@[simp] theorem State.beginRun_txGen (job : Job) (d : Due) : (s.beginRun job d).txGen = s.txGen := rfl
@[simp] theorem State.beginRun_rxGen (job : Job) (d : Due) : (s.beginRun job d).rxGen = s.rxGen := rfl
@[simp] theorem State.beginRun_atsGen (job : Job) (d : Due) : (s.beginRun job d).atsGen = s.atsGen := rfl

/-! ### State.goTo -/

@[simp] theorem State.goTo_cmd (r : Run) (p : Point) : (s.goTo r p).cmd = s.cmd := rfl
@[simp] theorem State.goTo_busy (r : Run) (p : Point) : (s.goTo r p).busy = s.busy := rfl
@[simp] theorem State.goTo_done (r : Run) (p : Point) : (s.goTo r p).done = s.done := rfl
@[simp] theorem State.goTo_matched (r : Run) (p : Point) : (s.goTo r p).matched = s.matched := rfl
@[simp] theorem State.goTo_found (r : Run) (p : Point) : (s.goTo r p).found = s.found := rfl
@[simp] theorem State.goTo_err (r : Run) (p : Point) : (s.goTo r p).err = s.err := rfl
@[simp] theorem State.goTo_cfg (r : Run) (p : Point) : (s.goTo r p).cfg = s.cfg := rfl
@[simp] theorem State.goTo_p0 (r : Run) (p : Point) : (s.goTo r p).p0 = s.p0 := rfl
@[simp] theorem State.goTo_p1 (r : Run) (p : Point) : (s.goTo r p).p1 = s.p1 := rfl
@[simp] theorem State.goTo_timeout (r : Run) (p : Point) : (s.goTo r p).timeout = s.timeout := rfl
@[simp] theorem State.goTo_asm (r : Run) (p : Point) : (s.goTo r p).asm = s.asm := rfl
@[simp] theorem State.goTo_warn (r : Run) (p : Point) : (s.goTo r p).warn = s.warn := rfl
@[simp] theorem State.goTo_cl (r : Run) (p : Point) : (s.goTo r p).cl = s.cl := rfl
@[simp] theorem State.goTo_sak (r : Run) (p : Point) : (s.goTo r p).sak = s.sak := rfl
@[simp] theorem State.goTo_atqa0 (r : Run) (p : Point) : (s.goTo r p).atqa0 = s.atqa0 := rfl
@[simp] theorem State.goTo_atqa1 (r : Run) (p : Point) : (s.goTo r p).atqa1 = s.atqa1 := rfl
@[simp] theorem State.goTo_uidLen (r : Run) (p : Point) : (s.goTo r p).uidLen = s.uidLen := rfl
@[simp] theorem State.goTo_uid (r : Run) (p : Point) : (s.goTo r p).uid = s.uid := rfl
@[simp] theorem State.goTo_rawUid (r : Run) (p : Point) : (s.goTo r p).rawUid = s.rawUid := rfl
@[simp] theorem State.goTo_rawBcc (r : Run) (p : Point) : (s.goTo r p).rawBcc = s.rawBcc := rfl
@[simp] theorem State.goTo_atsLen (r : Run) (p : Point) : (s.goTo r p).atsLen = s.atsLen := rfl
@[simp] theorem State.goTo_crcRes (r : Run) (p : Point) : (s.goTo r p).crcRes = s.crcRes := rfl
@[simp] theorem State.goTo_hbOff (r : Run) (p : Point) : (s.goTo r p).hbOff = s.hbOff := rfl
@[simp] theorem State.goTo_hbLen (r : Run) (p : Point) : (s.goTo r p).hbLen = s.hbLen := rfl
@[simp] theorem State.goTo_txBits (r : Run) (p : Point) : (s.goTo r p).txBits = s.txBits := rfl
@[simp] theorem State.goTo_rxBits (r : Run) (p : Point) : (s.goTo r p).rxBits = s.rxBits := rfl
@[simp] theorem State.goTo_ratsParam (r : Run) (p : Point) : (s.goTo r p).ratsParam = s.ratsParam := rfl
@[simp] theorem State.goTo_pollCnt (r : Run) (p : Point) : (s.goTo r p).pollCnt = s.pollCnt := rfl
@[simp] theorem State.goTo_mem (r : Run) (p : Point) : (s.goTo r p).mem = s.mem := rfl
@[simp] theorem State.goTo_abortReq (r : Run) (p : Point) : (s.goTo r p).abortReq = s.abortReq := rfl
@[simp] theorem State.goTo_xch (r : Run) (p : Point) : (s.goTo r p).xch = s.xch := rfl
@[simp] theorem State.goTo_run (r : Run) (p : Point) : (s.goTo r p).run = some { r with point := p } := rfl
@[simp] theorem State.goTo_inbox (r : Run) (p : Point) : (s.goTo r p).inbox = s.inbox := rfl
@[simp] theorem State.goTo_rfOut (r : Run) (p : Point) : (s.goTo r p).rfOut = s.rfOut := rfl
@[simp] theorem State.goTo_readData (r : Run) (p : Point) : (s.goTo r p).readData = s.readData := rfl
@[simp] theorem State.goTo_fresh (r : Run) (p : Point) : (s.goTo r p).fresh = s.fresh := rfl
@[simp] theorem State.goTo_txGen (r : Run) (p : Point) : (s.goTo r p).txGen = s.txGen := rfl
@[simp] theorem State.goTo_rxGen (r : Run) (p : Point) : (s.goTo r p).rxGen = s.rxGen := rfl
@[simp] theorem State.goTo_atsGen (r : Run) (p : Point) : (s.goTo r p).atsGen = s.atsGen := rfl

/-! ### State.clearTransaction -/

@[simp] theorem State.clearTransaction_cmd : (s.clearTransaction).cmd = s.cmd := rfl
@[simp] theorem State.clearTransaction_busy : (s.clearTransaction).busy = s.busy := rfl
@[simp] theorem State.clearTransaction_done : (s.clearTransaction).done = s.done := rfl
@[simp] theorem State.clearTransaction_matched : (s.clearTransaction).matched = s.matched := rfl
@[simp] theorem State.clearTransaction_found : (s.clearTransaction).found = s.found := rfl
@[simp] theorem State.clearTransaction_err : (s.clearTransaction).err = s.err := rfl
@[simp] theorem State.clearTransaction_cfg : (s.clearTransaction).cfg = s.cfg := rfl
@[simp] theorem State.clearTransaction_p0 : (s.clearTransaction).p0 = s.p0 := rfl
@[simp] theorem State.clearTransaction_p1 : (s.clearTransaction).p1 = s.p1 := rfl
@[simp] theorem State.clearTransaction_timeout : (s.clearTransaction).timeout = s.timeout := rfl
@[simp] theorem State.clearTransaction_asm : (s.clearTransaction).asm = s.asm := rfl
@[simp] theorem State.clearTransaction_warn : (s.clearTransaction).warn = Warn.none := rfl
@[simp] theorem State.clearTransaction_cl : (s.clearTransaction).cl = none := rfl
@[simp] theorem State.clearTransaction_sak : (s.clearTransaction).sak = 0x00 := rfl
@[simp] theorem State.clearTransaction_atqa0 : (s.clearTransaction).atqa0 = 0x00 := rfl
@[simp] theorem State.clearTransaction_atqa1 : (s.clearTransaction).atqa1 = 0x00 := rfl
@[simp] theorem State.clearTransaction_uidLen : (s.clearTransaction).uidLen = 0x00 := rfl
@[simp] theorem State.clearTransaction_uid : (s.clearTransaction).uid = Vector.replicate 10 0x00 := rfl
@[simp] theorem State.clearTransaction_rawUid : (s.clearTransaction).rawUid = Vector.replicate 12 0x00 := rfl
@[simp] theorem State.clearTransaction_rawBcc : (s.clearTransaction).rawBcc = Vector.replicate 3 0x00 := rfl
@[simp] theorem State.clearTransaction_atsLen : (s.clearTransaction).atsLen = 0x0000 := rfl
@[simp] theorem State.clearTransaction_crcRes : (s.clearTransaction).crcRes = s.crcRes := rfl
@[simp] theorem State.clearTransaction_hbOff : (s.clearTransaction).hbOff = s.hbOff := rfl
@[simp] theorem State.clearTransaction_hbLen : (s.clearTransaction).hbLen = s.hbLen := rfl
@[simp] theorem State.clearTransaction_txBits : (s.clearTransaction).txBits = s.txBits := rfl
@[simp] theorem State.clearTransaction_rxBits : (s.clearTransaction).rxBits = 0x0000 := rfl
@[simp] theorem State.clearTransaction_ratsParam : (s.clearTransaction).ratsParam = s.ratsParam := rfl
@[simp] theorem State.clearTransaction_pollCnt : (s.clearTransaction).pollCnt = s.pollCnt := rfl
@[simp] theorem State.clearTransaction_mem : (s.clearTransaction).mem = s.mem := rfl
@[simp] theorem State.clearTransaction_abortReq : (s.clearTransaction).abortReq = s.abortReq := rfl
@[simp] theorem State.clearTransaction_xch : (s.clearTransaction).xch = s.xch := rfl
@[simp] theorem State.clearTransaction_run : (s.clearTransaction).run = s.run := rfl
@[simp] theorem State.clearTransaction_inbox : (s.clearTransaction).inbox = s.inbox := rfl
@[simp] theorem State.clearTransaction_rfOut : (s.clearTransaction).rfOut = s.rfOut := rfl
@[simp] theorem State.clearTransaction_readData : (s.clearTransaction).readData = s.readData := rfl
@[simp] theorem State.clearTransaction_fresh : (s.clearTransaction).fresh = s.fresh := rfl
@[simp] theorem State.clearTransaction_txGen : (s.clearTransaction).txGen = s.txGen := rfl
@[simp] theorem State.clearTransaction_rxGen : (s.clearTransaction).rxGen = s.rxGen := rfl
@[simp] theorem State.clearTransaction_atsGen : (s.clearTransaction).atsGen = s.atsGen := rfl

/-! ### State.writeTx -/

@[simp] theorem State.writeTx_cmd (i : Nat) (bytes : List Byte) : (s.writeTx i bytes).cmd = s.cmd := rfl
@[simp] theorem State.writeTx_busy (i : Nat) (bytes : List Byte) : (s.writeTx i bytes).busy = s.busy := rfl
@[simp] theorem State.writeTx_done (i : Nat) (bytes : List Byte) : (s.writeTx i bytes).done = s.done := rfl
@[simp] theorem State.writeTx_matched (i : Nat) (bytes : List Byte) : (s.writeTx i bytes).matched = s.matched := rfl
@[simp] theorem State.writeTx_found (i : Nat) (bytes : List Byte) : (s.writeTx i bytes).found = s.found := rfl
@[simp] theorem State.writeTx_err (i : Nat) (bytes : List Byte) : (s.writeTx i bytes).err = s.err := rfl
@[simp] theorem State.writeTx_cfg (i : Nat) (bytes : List Byte) : (s.writeTx i bytes).cfg = s.cfg := rfl
@[simp] theorem State.writeTx_p0 (i : Nat) (bytes : List Byte) : (s.writeTx i bytes).p0 = s.p0 := rfl
@[simp] theorem State.writeTx_p1 (i : Nat) (bytes : List Byte) : (s.writeTx i bytes).p1 = s.p1 := rfl
@[simp] theorem State.writeTx_timeout (i : Nat) (bytes : List Byte) : (s.writeTx i bytes).timeout = s.timeout := rfl
@[simp] theorem State.writeTx_asm (i : Nat) (bytes : List Byte) : (s.writeTx i bytes).asm = s.asm := rfl
@[simp] theorem State.writeTx_warn (i : Nat) (bytes : List Byte) : (s.writeTx i bytes).warn = s.warn := rfl
@[simp] theorem State.writeTx_cl (i : Nat) (bytes : List Byte) : (s.writeTx i bytes).cl = s.cl := rfl
@[simp] theorem State.writeTx_sak (i : Nat) (bytes : List Byte) : (s.writeTx i bytes).sak = s.sak := rfl
@[simp] theorem State.writeTx_atqa0 (i : Nat) (bytes : List Byte) : (s.writeTx i bytes).atqa0 = s.atqa0 := rfl
@[simp] theorem State.writeTx_atqa1 (i : Nat) (bytes : List Byte) : (s.writeTx i bytes).atqa1 = s.atqa1 := rfl
@[simp] theorem State.writeTx_uidLen (i : Nat) (bytes : List Byte) : (s.writeTx i bytes).uidLen = s.uidLen := rfl
@[simp] theorem State.writeTx_uid (i : Nat) (bytes : List Byte) : (s.writeTx i bytes).uid = s.uid := rfl
@[simp] theorem State.writeTx_rawUid (i : Nat) (bytes : List Byte) : (s.writeTx i bytes).rawUid = s.rawUid := rfl
@[simp] theorem State.writeTx_rawBcc (i : Nat) (bytes : List Byte) : (s.writeTx i bytes).rawBcc = s.rawBcc := rfl
@[simp] theorem State.writeTx_atsLen (i : Nat) (bytes : List Byte) : (s.writeTx i bytes).atsLen = s.atsLen := rfl
@[simp] theorem State.writeTx_crcRes (i : Nat) (bytes : List Byte) : (s.writeTx i bytes).crcRes = s.crcRes := rfl
@[simp] theorem State.writeTx_hbOff (i : Nat) (bytes : List Byte) : (s.writeTx i bytes).hbOff = s.hbOff := rfl
@[simp] theorem State.writeTx_hbLen (i : Nat) (bytes : List Byte) : (s.writeTx i bytes).hbLen = s.hbLen := rfl
@[simp] theorem State.writeTx_txBits (i : Nat) (bytes : List Byte) : (s.writeTx i bytes).txBits = s.txBits := rfl
@[simp] theorem State.writeTx_rxBits (i : Nat) (bytes : List Byte) : (s.writeTx i bytes).rxBits = s.rxBits := rfl
@[simp] theorem State.writeTx_ratsParam (i : Nat) (bytes : List Byte) : (s.writeTx i bytes).ratsParam = s.ratsParam := rfl
@[simp] theorem State.writeTx_pollCnt (i : Nat) (bytes : List Byte) : (s.writeTx i bytes).pollCnt = s.pollCnt := rfl
@[simp] theorem State.writeTx_mem (i : Nat) (bytes : List Byte) : (s.writeTx i bytes).mem =
    Memory.putList s.mem (Config.txBase + i) bytes := rfl
@[simp] theorem State.writeTx_abortReq (i : Nat) (bytes : List Byte) : (s.writeTx i bytes).abortReq = s.abortReq := rfl
@[simp] theorem State.writeTx_xch (i : Nat) (bytes : List Byte) : (s.writeTx i bytes).xch = s.xch := rfl
@[simp] theorem State.writeTx_run (i : Nat) (bytes : List Byte) : (s.writeTx i bytes).run = s.run := rfl
@[simp] theorem State.writeTx_inbox (i : Nat) (bytes : List Byte) : (s.writeTx i bytes).inbox = s.inbox := rfl
@[simp] theorem State.writeTx_rfOut (i : Nat) (bytes : List Byte) : (s.writeTx i bytes).rfOut = s.rfOut := rfl
@[simp] theorem State.writeTx_readData (i : Nat) (bytes : List Byte) : (s.writeTx i bytes).readData = s.readData := rfl
@[simp] theorem State.writeTx_fresh (i : Nat) (bytes : List Byte) : (s.writeTx i bytes).fresh = s.fresh := rfl
@[simp] theorem State.writeTx_txGen (i : Nat) (bytes : List Byte) : (s.writeTx i bytes).txGen = s.txGen := rfl
@[simp] theorem State.writeTx_rxGen (i : Nat) (bytes : List Byte) : (s.writeTx i bytes).rxGen = s.rxGen := rfl
@[simp] theorem State.writeTx_atsGen (i : Nat) (bytes : List Byte) : (s.writeTx i bytes).atsGen = s.atsGen := rfl

/-! ### State.putTxFrame -/

@[simp] theorem State.putTxFrame_cmd (f : Frame) : (s.putTxFrame f).cmd = s.cmd := rfl
@[simp] theorem State.putTxFrame_busy (f : Frame) : (s.putTxFrame f).busy = s.busy := rfl
@[simp] theorem State.putTxFrame_done (f : Frame) : (s.putTxFrame f).done = s.done := rfl
@[simp] theorem State.putTxFrame_matched (f : Frame) : (s.putTxFrame f).matched = s.matched := rfl
@[simp] theorem State.putTxFrame_found (f : Frame) : (s.putTxFrame f).found = s.found := rfl
@[simp] theorem State.putTxFrame_err (f : Frame) : (s.putTxFrame f).err = s.err := rfl
@[simp] theorem State.putTxFrame_cfg (f : Frame) : (s.putTxFrame f).cfg = s.cfg := rfl
@[simp] theorem State.putTxFrame_p0 (f : Frame) : (s.putTxFrame f).p0 = s.p0 := rfl
@[simp] theorem State.putTxFrame_p1 (f : Frame) : (s.putTxFrame f).p1 = s.p1 := rfl
@[simp] theorem State.putTxFrame_timeout (f : Frame) : (s.putTxFrame f).timeout = s.timeout := rfl
@[simp] theorem State.putTxFrame_asm (f : Frame) : (s.putTxFrame f).asm = s.asm := rfl
@[simp] theorem State.putTxFrame_warn (f : Frame) : (s.putTxFrame f).warn = s.warn := rfl
@[simp] theorem State.putTxFrame_cl (f : Frame) : (s.putTxFrame f).cl = s.cl := rfl
@[simp] theorem State.putTxFrame_sak (f : Frame) : (s.putTxFrame f).sak = s.sak := rfl
@[simp] theorem State.putTxFrame_atqa0 (f : Frame) : (s.putTxFrame f).atqa0 = s.atqa0 := rfl
@[simp] theorem State.putTxFrame_atqa1 (f : Frame) : (s.putTxFrame f).atqa1 = s.atqa1 := rfl
@[simp] theorem State.putTxFrame_uidLen (f : Frame) : (s.putTxFrame f).uidLen = s.uidLen := rfl
@[simp] theorem State.putTxFrame_uid (f : Frame) : (s.putTxFrame f).uid = s.uid := rfl
@[simp] theorem State.putTxFrame_rawUid (f : Frame) : (s.putTxFrame f).rawUid = s.rawUid := rfl
@[simp] theorem State.putTxFrame_rawBcc (f : Frame) : (s.putTxFrame f).rawBcc = s.rawBcc := rfl
@[simp] theorem State.putTxFrame_atsLen (f : Frame) : (s.putTxFrame f).atsLen = s.atsLen := rfl
@[simp] theorem State.putTxFrame_crcRes (f : Frame) : (s.putTxFrame f).crcRes = s.crcRes := rfl
@[simp] theorem State.putTxFrame_hbOff (f : Frame) : (s.putTxFrame f).hbOff = s.hbOff := rfl
@[simp] theorem State.putTxFrame_hbLen (f : Frame) : (s.putTxFrame f).hbLen = s.hbLen := rfl
@[simp] theorem State.putTxFrame_txBits (f : Frame) : (s.putTxFrame f).txBits = BitVec.ofNat 16 f.nbits := rfl
@[simp] theorem State.putTxFrame_rxBits (f : Frame) : (s.putTxFrame f).rxBits = s.rxBits := rfl
@[simp] theorem State.putTxFrame_ratsParam (f : Frame) : (s.putTxFrame f).ratsParam = s.ratsParam := rfl
@[simp] theorem State.putTxFrame_pollCnt (f : Frame) : (s.putTxFrame f).pollCnt = s.pollCnt := rfl
@[simp] theorem State.putTxFrame_mem (f : Frame) : (s.putTxFrame f).mem = Memory.putList s.mem (Config.txBase + 0) f.bytes := rfl
@[simp] theorem State.putTxFrame_abortReq (f : Frame) : (s.putTxFrame f).abortReq = s.abortReq := rfl
@[simp] theorem State.putTxFrame_xch (f : Frame) : (s.putTxFrame f).xch = s.xch := rfl
@[simp] theorem State.putTxFrame_run (f : Frame) : (s.putTxFrame f).run = s.run := rfl
@[simp] theorem State.putTxFrame_inbox (f : Frame) : (s.putTxFrame f).inbox = s.inbox := rfl
@[simp] theorem State.putTxFrame_rfOut (f : Frame) : (s.putTxFrame f).rfOut = s.rfOut := rfl
@[simp] theorem State.putTxFrame_readData (f : Frame) : (s.putTxFrame f).readData = s.readData := rfl
@[simp] theorem State.putTxFrame_fresh (f : Frame) : (s.putTxFrame f).fresh = s.fresh := rfl
@[simp] theorem State.putTxFrame_txGen (f : Frame) : (s.putTxFrame f).txGen = s.txGen := rfl
@[simp] theorem State.putTxFrame_rxGen (f : Frame) : (s.putTxFrame f).rxGen = s.rxGen := rfl
@[simp] theorem State.putTxFrame_atsGen (f : Frame) : (s.putTxFrame f).atsGen = s.atsGen := rfl

/-! ### State.putCrcFrame -/

@[simp] theorem State.putCrcFrame_cmd (f : Frame) : (s.putCrcFrame f).cmd = s.cmd := rfl
@[simp] theorem State.putCrcFrame_busy (f : Frame) : (s.putCrcFrame f).busy = s.busy := rfl
@[simp] theorem State.putCrcFrame_done (f : Frame) : (s.putCrcFrame f).done = s.done := rfl
@[simp] theorem State.putCrcFrame_matched (f : Frame) : (s.putCrcFrame f).matched = s.matched := rfl
@[simp] theorem State.putCrcFrame_found (f : Frame) : (s.putCrcFrame f).found = s.found := rfl
@[simp] theorem State.putCrcFrame_err (f : Frame) : (s.putCrcFrame f).err = s.err := rfl
@[simp] theorem State.putCrcFrame_cfg (f : Frame) : (s.putCrcFrame f).cfg = s.cfg := rfl
@[simp] theorem State.putCrcFrame_p0 (f : Frame) : (s.putCrcFrame f).p0 = s.p0 := rfl
@[simp] theorem State.putCrcFrame_p1 (f : Frame) : (s.putCrcFrame f).p1 = s.p1 := rfl
@[simp] theorem State.putCrcFrame_timeout (f : Frame) : (s.putCrcFrame f).timeout = s.timeout := rfl
@[simp] theorem State.putCrcFrame_asm (f : Frame) : (s.putCrcFrame f).asm = s.asm := rfl
@[simp] theorem State.putCrcFrame_warn (f : Frame) : (s.putCrcFrame f).warn = s.warn := rfl
@[simp] theorem State.putCrcFrame_cl (f : Frame) : (s.putCrcFrame f).cl = s.cl := rfl
@[simp] theorem State.putCrcFrame_sak (f : Frame) : (s.putCrcFrame f).sak = s.sak := rfl
@[simp] theorem State.putCrcFrame_atqa0 (f : Frame) : (s.putCrcFrame f).atqa0 = s.atqa0 := rfl
@[simp] theorem State.putCrcFrame_atqa1 (f : Frame) : (s.putCrcFrame f).atqa1 = s.atqa1 := rfl
@[simp] theorem State.putCrcFrame_uidLen (f : Frame) : (s.putCrcFrame f).uidLen = s.uidLen := rfl
@[simp] theorem State.putCrcFrame_uid (f : Frame) : (s.putCrcFrame f).uid = s.uid := rfl
@[simp] theorem State.putCrcFrame_rawUid (f : Frame) : (s.putCrcFrame f).rawUid = s.rawUid := rfl
@[simp] theorem State.putCrcFrame_rawBcc (f : Frame) : (s.putCrcFrame f).rawBcc = s.rawBcc := rfl
@[simp] theorem State.putCrcFrame_atsLen (f : Frame) : (s.putCrcFrame f).atsLen = s.atsLen := rfl
@[simp] theorem State.putCrcFrame_crcRes (f : Frame) : (s.putCrcFrame f).crcRes = frameCrc f := rfl
@[simp] theorem State.putCrcFrame_hbOff (f : Frame) : (s.putCrcFrame f).hbOff = s.hbOff := rfl
@[simp] theorem State.putCrcFrame_hbLen (f : Frame) : (s.putCrcFrame f).hbLen = s.hbLen := rfl
@[simp] theorem State.putCrcFrame_txBits (f : Frame) : (s.putCrcFrame f).txBits = BitVec.ofNat 16 f.nbits := rfl
@[simp] theorem State.putCrcFrame_rxBits (f : Frame) : (s.putCrcFrame f).rxBits = s.rxBits := rfl
@[simp] theorem State.putCrcFrame_ratsParam (f : Frame) : (s.putCrcFrame f).ratsParam = s.ratsParam := rfl
@[simp] theorem State.putCrcFrame_pollCnt (f : Frame) : (s.putCrcFrame f).pollCnt = s.pollCnt := rfl
@[simp] theorem State.putCrcFrame_mem (f : Frame) : (s.putCrcFrame f).mem =
    Memory.putList s.mem (Config.txBase + 0) f.bytes := rfl
@[simp] theorem State.putCrcFrame_abortReq (f : Frame) : (s.putCrcFrame f).abortReq = s.abortReq := rfl
@[simp] theorem State.putCrcFrame_xch (f : Frame) : (s.putCrcFrame f).xch = s.xch := rfl
@[simp] theorem State.putCrcFrame_run (f : Frame) : (s.putCrcFrame f).run = s.run := rfl
@[simp] theorem State.putCrcFrame_inbox (f : Frame) : (s.putCrcFrame f).inbox = s.inbox := rfl
@[simp] theorem State.putCrcFrame_rfOut (f : Frame) : (s.putCrcFrame f).rfOut = s.rfOut := rfl
@[simp] theorem State.putCrcFrame_readData (f : Frame) : (s.putCrcFrame f).readData = s.readData := rfl
@[simp] theorem State.putCrcFrame_fresh (f : Frame) : (s.putCrcFrame f).fresh = s.fresh := rfl
@[simp] theorem State.putCrcFrame_txGen (f : Frame) : (s.putCrcFrame f).txGen = s.txGen := rfl
@[simp] theorem State.putCrcFrame_rxGen (f : Frame) : (s.putCrcFrame f).rxGen = s.rxGen := rfl
@[simp] theorem State.putCrcFrame_atsGen (f : Frame) : (s.putCrcFrame f).atsGen = s.atsGen := rfl

/-! ### State.landRx -/

@[simp] theorem State.landRx_cmd (f : Frame) : (s.landRx f).cmd = s.cmd := rfl
@[simp] theorem State.landRx_busy (f : Frame) : (s.landRx f).busy = s.busy := rfl
@[simp] theorem State.landRx_done (f : Frame) : (s.landRx f).done = s.done := rfl
@[simp] theorem State.landRx_matched (f : Frame) : (s.landRx f).matched = s.matched := rfl
@[simp] theorem State.landRx_found (f : Frame) : (s.landRx f).found = s.found := rfl
@[simp] theorem State.landRx_err (f : Frame) : (s.landRx f).err = s.err := rfl
@[simp] theorem State.landRx_cfg (f : Frame) : (s.landRx f).cfg = s.cfg := rfl
@[simp] theorem State.landRx_p0 (f : Frame) : (s.landRx f).p0 = s.p0 := rfl
@[simp] theorem State.landRx_p1 (f : Frame) : (s.landRx f).p1 = s.p1 := rfl
@[simp] theorem State.landRx_timeout (f : Frame) : (s.landRx f).timeout = s.timeout := rfl
@[simp] theorem State.landRx_asm (f : Frame) : (s.landRx f).asm = s.asm := rfl
@[simp] theorem State.landRx_warn (f : Frame) : (s.landRx f).warn = s.warn := rfl
@[simp] theorem State.landRx_cl (f : Frame) : (s.landRx f).cl = s.cl := rfl
@[simp] theorem State.landRx_sak (f : Frame) : (s.landRx f).sak = s.sak := rfl
@[simp] theorem State.landRx_atqa0 (f : Frame) : (s.landRx f).atqa0 = s.atqa0 := rfl
@[simp] theorem State.landRx_atqa1 (f : Frame) : (s.landRx f).atqa1 = s.atqa1 := rfl
@[simp] theorem State.landRx_uidLen (f : Frame) : (s.landRx f).uidLen = s.uidLen := rfl
@[simp] theorem State.landRx_uid (f : Frame) : (s.landRx f).uid = s.uid := rfl
@[simp] theorem State.landRx_rawUid (f : Frame) : (s.landRx f).rawUid = s.rawUid := rfl
@[simp] theorem State.landRx_rawBcc (f : Frame) : (s.landRx f).rawBcc = s.rawBcc := rfl
@[simp] theorem State.landRx_atsLen (f : Frame) : (s.landRx f).atsLen = s.atsLen := rfl
@[simp] theorem State.landRx_crcRes (f : Frame) : (s.landRx f).crcRes = s.crcRes := rfl
@[simp] theorem State.landRx_hbOff (f : Frame) : (s.landRx f).hbOff = s.hbOff := rfl
@[simp] theorem State.landRx_hbLen (f : Frame) : (s.landRx f).hbLen = s.hbLen := rfl
@[simp] theorem State.landRx_txBits (f : Frame) : (s.landRx f).txBits = s.txBits := rfl
@[simp] theorem State.landRx_rxBits (f : Frame) : (s.landRx f).rxBits = BitVec.ofNat 16 f.nbits := rfl
@[simp] theorem State.landRx_ratsParam (f : Frame) : (s.landRx f).ratsParam = s.ratsParam := rfl
@[simp] theorem State.landRx_pollCnt (f : Frame) : (s.landRx f).pollCnt = s.pollCnt := rfl
@[simp] theorem State.landRx_mem (f : Frame) : (s.landRx f).mem =
    Memory.putList (Memory.forget s.mem Config.rxBase Config.maxFrameLen) Config.rxBase f.bytes := rfl
@[simp] theorem State.landRx_abortReq (f : Frame) : (s.landRx f).abortReq = s.abortReq := rfl
@[simp] theorem State.landRx_xch (f : Frame) : (s.landRx f).xch = s.xch := rfl
@[simp] theorem State.landRx_run (f : Frame) : (s.landRx f).run = s.run := rfl
@[simp] theorem State.landRx_inbox (f : Frame) : (s.landRx f).inbox = s.inbox := rfl
@[simp] theorem State.landRx_rfOut (f : Frame) : (s.landRx f).rfOut = s.rfOut := rfl
@[simp] theorem State.landRx_readData (f : Frame) : (s.landRx f).readData = s.readData := rfl
@[simp] theorem State.landRx_fresh (f : Frame) : (s.landRx f).fresh = s.fresh := rfl
@[simp] theorem State.landRx_txGen (f : Frame) : (s.landRx f).txGen = s.txGen := rfl
@[simp] theorem State.landRx_rxGen (f : Frame) : (s.landRx f).rxGen = s.rxGen + 1 := rfl
@[simp] theorem State.landRx_atsGen (f : Frame) : (s.landRx f).atsGen = s.atsGen := rfl

/-! ### State.dropRx -/

@[simp] theorem State.dropRx_cmd : (s.dropRx).cmd = s.cmd := rfl
@[simp] theorem State.dropRx_busy : (s.dropRx).busy = s.busy := rfl
@[simp] theorem State.dropRx_done : (s.dropRx).done = s.done := rfl
@[simp] theorem State.dropRx_matched : (s.dropRx).matched = s.matched := rfl
@[simp] theorem State.dropRx_found : (s.dropRx).found = s.found := rfl
@[simp] theorem State.dropRx_err : (s.dropRx).err = s.err := rfl
@[simp] theorem State.dropRx_cfg : (s.dropRx).cfg = s.cfg := rfl
@[simp] theorem State.dropRx_p0 : (s.dropRx).p0 = s.p0 := rfl
@[simp] theorem State.dropRx_p1 : (s.dropRx).p1 = s.p1 := rfl
@[simp] theorem State.dropRx_timeout : (s.dropRx).timeout = s.timeout := rfl
@[simp] theorem State.dropRx_asm : (s.dropRx).asm = s.asm := rfl
@[simp] theorem State.dropRx_warn : (s.dropRx).warn = s.warn := rfl
@[simp] theorem State.dropRx_cl : (s.dropRx).cl = s.cl := rfl
@[simp] theorem State.dropRx_sak : (s.dropRx).sak = s.sak := rfl
@[simp] theorem State.dropRx_atqa0 : (s.dropRx).atqa0 = s.atqa0 := rfl
@[simp] theorem State.dropRx_atqa1 : (s.dropRx).atqa1 = s.atqa1 := rfl
@[simp] theorem State.dropRx_uidLen : (s.dropRx).uidLen = s.uidLen := rfl
@[simp] theorem State.dropRx_uid : (s.dropRx).uid = s.uid := rfl
@[simp] theorem State.dropRx_rawUid : (s.dropRx).rawUid = s.rawUid := rfl
@[simp] theorem State.dropRx_rawBcc : (s.dropRx).rawBcc = s.rawBcc := rfl
@[simp] theorem State.dropRx_atsLen : (s.dropRx).atsLen = s.atsLen := rfl
@[simp] theorem State.dropRx_crcRes : (s.dropRx).crcRes = s.crcRes := rfl
@[simp] theorem State.dropRx_hbOff : (s.dropRx).hbOff = s.hbOff := rfl
@[simp] theorem State.dropRx_hbLen : (s.dropRx).hbLen = s.hbLen := rfl
@[simp] theorem State.dropRx_txBits : (s.dropRx).txBits = s.txBits := rfl
@[simp] theorem State.dropRx_rxBits : (s.dropRx).rxBits = 0 := rfl
@[simp] theorem State.dropRx_ratsParam : (s.dropRx).ratsParam = s.ratsParam := rfl
@[simp] theorem State.dropRx_pollCnt : (s.dropRx).pollCnt = s.pollCnt := rfl
@[simp] theorem State.dropRx_mem : (s.dropRx).mem = Memory.forget s.mem Config.rxBase Config.maxFrameLen := rfl
@[simp] theorem State.dropRx_abortReq : (s.dropRx).abortReq = s.abortReq := rfl
@[simp] theorem State.dropRx_xch : (s.dropRx).xch = s.xch := rfl
@[simp] theorem State.dropRx_run : (s.dropRx).run = s.run := rfl
@[simp] theorem State.dropRx_inbox : (s.dropRx).inbox = s.inbox := rfl
@[simp] theorem State.dropRx_rfOut : (s.dropRx).rfOut = s.rfOut := rfl
@[simp] theorem State.dropRx_readData : (s.dropRx).readData = s.readData := rfl
@[simp] theorem State.dropRx_fresh : (s.dropRx).fresh = s.fresh := rfl
@[simp] theorem State.dropRx_txGen : (s.dropRx).txGen = s.txGen := rfl
@[simp] theorem State.dropRx_rxGen : (s.dropRx).rxGen = s.rxGen + 1 := rfl
@[simp] theorem State.dropRx_atsGen : (s.dropRx).atsGen = s.atsGen := rfl

/-! ### State.landAts -/

@[simp] theorem State.landAts_cmd (ats : List Byte) : (s.landAts ats).cmd = s.cmd := rfl
@[simp] theorem State.landAts_busy (ats : List Byte) : (s.landAts ats).busy = s.busy := rfl
@[simp] theorem State.landAts_done (ats : List Byte) : (s.landAts ats).done = s.done := rfl
@[simp] theorem State.landAts_matched (ats : List Byte) : (s.landAts ats).matched = s.matched := rfl
@[simp] theorem State.landAts_found (ats : List Byte) : (s.landAts ats).found = s.found := rfl
@[simp] theorem State.landAts_err (ats : List Byte) : (s.landAts ats).err = s.err := rfl
@[simp] theorem State.landAts_cfg (ats : List Byte) : (s.landAts ats).cfg = s.cfg := rfl
@[simp] theorem State.landAts_p0 (ats : List Byte) : (s.landAts ats).p0 = s.p0 := rfl
@[simp] theorem State.landAts_p1 (ats : List Byte) : (s.landAts ats).p1 = s.p1 := rfl
@[simp] theorem State.landAts_timeout (ats : List Byte) : (s.landAts ats).timeout = s.timeout := rfl
@[simp] theorem State.landAts_asm (ats : List Byte) : (s.landAts ats).asm = s.asm := rfl
@[simp] theorem State.landAts_warn (ats : List Byte) : (s.landAts ats).warn = s.warn := rfl
@[simp] theorem State.landAts_cl (ats : List Byte) : (s.landAts ats).cl = s.cl := rfl
@[simp] theorem State.landAts_sak (ats : List Byte) : (s.landAts ats).sak = s.sak := rfl
@[simp] theorem State.landAts_atqa0 (ats : List Byte) : (s.landAts ats).atqa0 = s.atqa0 := rfl
@[simp] theorem State.landAts_atqa1 (ats : List Byte) : (s.landAts ats).atqa1 = s.atqa1 := rfl
@[simp] theorem State.landAts_uidLen (ats : List Byte) : (s.landAts ats).uidLen = s.uidLen := rfl
@[simp] theorem State.landAts_uid (ats : List Byte) : (s.landAts ats).uid = s.uid := rfl
@[simp] theorem State.landAts_rawUid (ats : List Byte) : (s.landAts ats).rawUid = s.rawUid := rfl
@[simp] theorem State.landAts_rawBcc (ats : List Byte) : (s.landAts ats).rawBcc = s.rawBcc := rfl
@[simp] theorem State.landAts_atsLen (ats : List Byte) : (s.landAts ats).atsLen = BitVec.ofNat 16 ats.length := rfl
@[simp] theorem State.landAts_crcRes (ats : List Byte) : (s.landAts ats).crcRes = s.crcRes := rfl
@[simp] theorem State.landAts_hbOff (ats : List Byte) : (s.landAts ats).hbOff = s.hbOff := rfl
@[simp] theorem State.landAts_hbLen (ats : List Byte) : (s.landAts ats).hbLen = s.hbLen := rfl
@[simp] theorem State.landAts_txBits (ats : List Byte) : (s.landAts ats).txBits = s.txBits := rfl
@[simp] theorem State.landAts_rxBits (ats : List Byte) : (s.landAts ats).rxBits = s.rxBits := rfl
@[simp] theorem State.landAts_ratsParam (ats : List Byte) : (s.landAts ats).ratsParam = s.ratsParam := rfl
@[simp] theorem State.landAts_pollCnt (ats : List Byte) : (s.landAts ats).pollCnt = s.pollCnt := rfl
@[simp] theorem State.landAts_mem (ats : List Byte) : (s.landAts ats).mem =
    Memory.putList (Memory.forget s.mem Config.atsBase Config.maxFrameLen) Config.atsBase ats := rfl
@[simp] theorem State.landAts_abortReq (ats : List Byte) : (s.landAts ats).abortReq = s.abortReq := rfl
@[simp] theorem State.landAts_xch (ats : List Byte) : (s.landAts ats).xch = s.xch := rfl
@[simp] theorem State.landAts_run (ats : List Byte) : (s.landAts ats).run = s.run := rfl
@[simp] theorem State.landAts_inbox (ats : List Byte) : (s.landAts ats).inbox = s.inbox := rfl
@[simp] theorem State.landAts_rfOut (ats : List Byte) : (s.landAts ats).rfOut = s.rfOut := rfl
@[simp] theorem State.landAts_readData (ats : List Byte) : (s.landAts ats).readData = s.readData := rfl
@[simp] theorem State.landAts_fresh (ats : List Byte) : (s.landAts ats).fresh = s.fresh := rfl
@[simp] theorem State.landAts_txGen (ats : List Byte) : (s.landAts ats).txGen = s.txGen := rfl
@[simp] theorem State.landAts_rxGen (ats : List Byte) : (s.landAts ats).rxGen = s.rxGen := rfl
@[simp] theorem State.landAts_atsGen (ats : List Byte) : (s.landAts ats).atsGen = s.atsGen + 1 := rfl

/-! ### State.assembleUid -/

@[simp] theorem State.assembleUid_cmd (n : Level) : (s.assembleUid n).cmd = s.cmd := rfl
@[simp] theorem State.assembleUid_busy (n : Level) : (s.assembleUid n).busy = s.busy := rfl
@[simp] theorem State.assembleUid_done (n : Level) : (s.assembleUid n).done = s.done := rfl
@[simp] theorem State.assembleUid_matched (n : Level) : (s.assembleUid n).matched = s.matched := rfl
@[simp] theorem State.assembleUid_found (n : Level) : (s.assembleUid n).found = s.found := rfl
@[simp] theorem State.assembleUid_err (n : Level) : (s.assembleUid n).err = s.err := rfl
@[simp] theorem State.assembleUid_cfg (n : Level) : (s.assembleUid n).cfg = s.cfg := rfl
@[simp] theorem State.assembleUid_p0 (n : Level) : (s.assembleUid n).p0 = s.p0 := rfl
@[simp] theorem State.assembleUid_p1 (n : Level) : (s.assembleUid n).p1 = s.p1 := rfl
@[simp] theorem State.assembleUid_timeout (n : Level) : (s.assembleUid n).timeout = s.timeout := rfl
@[simp] theorem State.assembleUid_asm (n : Level) : (s.assembleUid n).asm = s.asm := rfl
@[simp] theorem State.assembleUid_warn (n : Level) : (s.assembleUid n).warn = s.warn := rfl
@[simp] theorem State.assembleUid_cl (n : Level) : (s.assembleUid n).cl = s.cl := rfl
@[simp] theorem State.assembleUid_sak (n : Level) : (s.assembleUid n).sak = s.sak := rfl
@[simp] theorem State.assembleUid_atqa0 (n : Level) : (s.assembleUid n).atqa0 = s.atqa0 := rfl
@[simp] theorem State.assembleUid_atqa1 (n : Level) : (s.assembleUid n).atqa1 = s.atqa1 := rfl
@[simp] theorem State.assembleUid_uidLen (n : Level) : (s.assembleUid n).uidLen =
    BitVec.ofNat 8 (uidAssemble s.rawUid n).length := rfl
@[simp] theorem State.assembleUid_uid (n : Level) : (s.assembleUid n).uid = uidFill (uidAssemble s.rawUid n) := rfl
@[simp] theorem State.assembleUid_rawUid (n : Level) : (s.assembleUid n).rawUid = s.rawUid := rfl
@[simp] theorem State.assembleUid_rawBcc (n : Level) : (s.assembleUid n).rawBcc = s.rawBcc := rfl
@[simp] theorem State.assembleUid_atsLen (n : Level) : (s.assembleUid n).atsLen = s.atsLen := rfl
@[simp] theorem State.assembleUid_crcRes (n : Level) : (s.assembleUid n).crcRes = s.crcRes := rfl
@[simp] theorem State.assembleUid_hbOff (n : Level) : (s.assembleUid n).hbOff = s.hbOff := rfl
@[simp] theorem State.assembleUid_hbLen (n : Level) : (s.assembleUid n).hbLen = s.hbLen := rfl
@[simp] theorem State.assembleUid_txBits (n : Level) : (s.assembleUid n).txBits = s.txBits := rfl
@[simp] theorem State.assembleUid_rxBits (n : Level) : (s.assembleUid n).rxBits = s.rxBits := rfl
@[simp] theorem State.assembleUid_ratsParam (n : Level) : (s.assembleUid n).ratsParam = s.ratsParam := rfl
@[simp] theorem State.assembleUid_pollCnt (n : Level) : (s.assembleUid n).pollCnt = s.pollCnt := rfl
@[simp] theorem State.assembleUid_mem (n : Level) : (s.assembleUid n).mem = s.mem := rfl
@[simp] theorem State.assembleUid_abortReq (n : Level) : (s.assembleUid n).abortReq = s.abortReq := rfl
@[simp] theorem State.assembleUid_xch (n : Level) : (s.assembleUid n).xch = s.xch := rfl
@[simp] theorem State.assembleUid_run (n : Level) : (s.assembleUid n).run = s.run := rfl
@[simp] theorem State.assembleUid_inbox (n : Level) : (s.assembleUid n).inbox = s.inbox := rfl
@[simp] theorem State.assembleUid_rfOut (n : Level) : (s.assembleUid n).rfOut = s.rfOut := rfl
@[simp] theorem State.assembleUid_readData (n : Level) : (s.assembleUid n).readData = s.readData := rfl
@[simp] theorem State.assembleUid_fresh (n : Level) : (s.assembleUid n).fresh = s.fresh := rfl
@[simp] theorem State.assembleUid_txGen (n : Level) : (s.assembleUid n).txGen = s.txGen := rfl
@[simp] theorem State.assembleUid_rxGen (n : Level) : (s.assembleUid n).rxGen = s.rxGen := rfl
@[simp] theorem State.assembleUid_atsGen (n : Level) : (s.assembleUid n).atsGen = s.atsGen := rfl

/-! ### State.storeAnticoll -/

@[simp] theorem State.storeAnticoll_cmd (n : Level) (a : List Byte) : (s.storeAnticoll n a).cmd = s.cmd := rfl
@[simp] theorem State.storeAnticoll_busy (n : Level) (a : List Byte) : (s.storeAnticoll n a).busy = s.busy := rfl
@[simp] theorem State.storeAnticoll_done (n : Level) (a : List Byte) : (s.storeAnticoll n a).done = s.done := rfl
@[simp] theorem State.storeAnticoll_matched (n : Level) (a : List Byte) : (s.storeAnticoll n a).matched = s.matched := rfl
@[simp] theorem State.storeAnticoll_found (n : Level) (a : List Byte) : (s.storeAnticoll n a).found = s.found := rfl
@[simp] theorem State.storeAnticoll_err (n : Level) (a : List Byte) : (s.storeAnticoll n a).err = s.err := rfl
@[simp] theorem State.storeAnticoll_cfg (n : Level) (a : List Byte) : (s.storeAnticoll n a).cfg = s.cfg := rfl
@[simp] theorem State.storeAnticoll_p0 (n : Level) (a : List Byte) : (s.storeAnticoll n a).p0 = s.p0 := rfl
@[simp] theorem State.storeAnticoll_p1 (n : Level) (a : List Byte) : (s.storeAnticoll n a).p1 = s.p1 := rfl
@[simp] theorem State.storeAnticoll_timeout (n : Level) (a : List Byte) : (s.storeAnticoll n a).timeout = s.timeout := rfl
@[simp] theorem State.storeAnticoll_asm (n : Level) (a : List Byte) : (s.storeAnticoll n a).asm = s.asm := rfl
@[simp] theorem State.storeAnticoll_warn (n : Level) (a : List Byte) : (s.storeAnticoll n a).warn = s.warn := rfl
@[simp] theorem State.storeAnticoll_cl (n : Level) (a : List Byte) : (s.storeAnticoll n a).cl = s.cl := rfl
@[simp] theorem State.storeAnticoll_sak (n : Level) (a : List Byte) : (s.storeAnticoll n a).sak = s.sak := rfl
@[simp] theorem State.storeAnticoll_atqa0 (n : Level) (a : List Byte) : (s.storeAnticoll n a).atqa0 = s.atqa0 := rfl
@[simp] theorem State.storeAnticoll_atqa1 (n : Level) (a : List Byte) : (s.storeAnticoll n a).atqa1 = s.atqa1 := rfl
@[simp] theorem State.storeAnticoll_uidLen (n : Level) (a : List Byte) : (s.storeAnticoll n a).uidLen = s.uidLen := rfl
@[simp] theorem State.storeAnticoll_uid (n : Level) (a : List Byte) : (s.storeAnticoll n a).uid = s.uid := rfl
@[simp] theorem State.storeAnticoll_rawUid (n : Level) (a : List Byte) : (s.storeAnticoll n a).rawUid =
    setRawPart s.rawUid n (a.getD 0 0) (a.getD 1 0) (a.getD 2 0) (a.getD 3 0) := rfl
@[simp] theorem State.storeAnticoll_rawBcc (n : Level) (a : List Byte) : (s.storeAnticoll n a).rawBcc =
    setRawBcc s.rawBcc n (a.getD 4 0) := rfl
@[simp] theorem State.storeAnticoll_atsLen (n : Level) (a : List Byte) : (s.storeAnticoll n a).atsLen = s.atsLen := rfl
@[simp] theorem State.storeAnticoll_crcRes (n : Level) (a : List Byte) : (s.storeAnticoll n a).crcRes = s.crcRes := rfl
@[simp] theorem State.storeAnticoll_hbOff (n : Level) (a : List Byte) : (s.storeAnticoll n a).hbOff = s.hbOff := rfl
@[simp] theorem State.storeAnticoll_hbLen (n : Level) (a : List Byte) : (s.storeAnticoll n a).hbLen = s.hbLen := rfl
@[simp] theorem State.storeAnticoll_txBits (n : Level) (a : List Byte) : (s.storeAnticoll n a).txBits = s.txBits := rfl
@[simp] theorem State.storeAnticoll_rxBits (n : Level) (a : List Byte) : (s.storeAnticoll n a).rxBits = s.rxBits := rfl
@[simp] theorem State.storeAnticoll_ratsParam (n : Level) (a : List Byte) : (s.storeAnticoll n a).ratsParam = s.ratsParam := rfl
@[simp] theorem State.storeAnticoll_pollCnt (n : Level) (a : List Byte) : (s.storeAnticoll n a).pollCnt = s.pollCnt := rfl
@[simp] theorem State.storeAnticoll_mem (n : Level) (a : List Byte) : (s.storeAnticoll n a).mem = s.mem := rfl
@[simp] theorem State.storeAnticoll_abortReq (n : Level) (a : List Byte) : (s.storeAnticoll n a).abortReq = s.abortReq := rfl
@[simp] theorem State.storeAnticoll_xch (n : Level) (a : List Byte) : (s.storeAnticoll n a).xch = s.xch := rfl
@[simp] theorem State.storeAnticoll_run (n : Level) (a : List Byte) : (s.storeAnticoll n a).run = s.run := rfl
@[simp] theorem State.storeAnticoll_inbox (n : Level) (a : List Byte) : (s.storeAnticoll n a).inbox = s.inbox := rfl
@[simp] theorem State.storeAnticoll_rfOut (n : Level) (a : List Byte) : (s.storeAnticoll n a).rfOut = s.rfOut := rfl
@[simp] theorem State.storeAnticoll_readData (n : Level) (a : List Byte) : (s.storeAnticoll n a).readData = s.readData := rfl
@[simp] theorem State.storeAnticoll_fresh (n : Level) (a : List Byte) : (s.storeAnticoll n a).fresh = s.fresh := rfl
@[simp] theorem State.storeAnticoll_txGen (n : Level) (a : List Byte) : (s.storeAnticoll n a).txGen = s.txGen := rfl
@[simp] theorem State.storeAnticoll_rxGen (n : Level) (a : List Byte) : (s.storeAnticoll n a).rxGen = s.rxGen := rfl
@[simp] theorem State.storeAnticoll_atsGen (n : Level) (a : List Byte) : (s.storeAnticoll n a).atsGen = s.atsGen := rfl

/-! ### State.activated -/

@[simp] theorem State.activated_cmd : (s.activated).cmd = s.cmd := rfl
@[simp] theorem State.activated_busy : (s.activated).busy = false := rfl
@[simp] theorem State.activated_done : (s.activated).done = true := rfl
@[simp] theorem State.activated_matched : (s.activated).matched = s.matched := rfl
@[simp] theorem State.activated_found : (s.activated).found = true := rfl
@[simp] theorem State.activated_err : (s.activated).err = s.err := rfl
@[simp] theorem State.activated_cfg : (s.activated).cfg = s.cfg := rfl
@[simp] theorem State.activated_p0 : (s.activated).p0 = s.p0 := rfl
@[simp] theorem State.activated_p1 : (s.activated).p1 = s.p1 := rfl
@[simp] theorem State.activated_timeout : (s.activated).timeout = s.timeout := rfl
@[simp] theorem State.activated_asm : (s.activated).asm = .activated := rfl
@[simp] theorem State.activated_warn : (s.activated).warn = s.warn := rfl
@[simp] theorem State.activated_cl : (s.activated).cl = s.cl := rfl
@[simp] theorem State.activated_sak : (s.activated).sak = s.sak := rfl
@[simp] theorem State.activated_atqa0 : (s.activated).atqa0 = s.atqa0 := rfl
@[simp] theorem State.activated_atqa1 : (s.activated).atqa1 = s.atqa1 := rfl
@[simp] theorem State.activated_uidLen : (s.activated).uidLen = s.uidLen := rfl
@[simp] theorem State.activated_uid : (s.activated).uid = s.uid := rfl
@[simp] theorem State.activated_rawUid : (s.activated).rawUid = s.rawUid := rfl
@[simp] theorem State.activated_rawBcc : (s.activated).rawBcc = s.rawBcc := rfl
@[simp] theorem State.activated_atsLen : (s.activated).atsLen = s.atsLen := rfl
@[simp] theorem State.activated_crcRes : (s.activated).crcRes = s.crcRes := rfl
@[simp] theorem State.activated_hbOff : (s.activated).hbOff = s.hbOff := rfl
@[simp] theorem State.activated_hbLen : (s.activated).hbLen = s.hbLen := rfl
@[simp] theorem State.activated_txBits : (s.activated).txBits = s.txBits := rfl
@[simp] theorem State.activated_rxBits : (s.activated).rxBits = s.rxBits := rfl
@[simp] theorem State.activated_ratsParam : (s.activated).ratsParam = s.ratsParam := rfl
@[simp] theorem State.activated_pollCnt : (s.activated).pollCnt = s.pollCnt := rfl
@[simp] theorem State.activated_mem : (s.activated).mem = s.mem := rfl
@[simp] theorem State.activated_abortReq : (s.activated).abortReq = false := rfl
@[simp] theorem State.activated_xch : (s.activated).xch = none := rfl
@[simp] theorem State.activated_run : (s.activated).run = none := rfl
@[simp] theorem State.activated_inbox : (s.activated).inbox = s.inbox := rfl
@[simp] theorem State.activated_rfOut : (s.activated).rfOut = s.rfOut := rfl
@[simp] theorem State.activated_readData : (s.activated).readData = s.readData := rfl
@[simp] theorem State.activated_fresh : (s.activated).fresh = s.fresh := rfl
@[simp] theorem State.activated_txGen : (s.activated).txGen = s.txGen := rfl
@[simp] theorem State.activated_rxGen : (s.activated).rxGen = s.rxGen := rfl
@[simp] theorem State.activated_atsGen : (s.activated).atsGen = s.atsGen := rfl

/-! ### State.openExchange -/

@[simp] theorem State.openExchange_cmd (r : Run) (d : Due) (f : Frame) : (s.openExchange r d f).cmd = s.cmd := rfl
@[simp] theorem State.openExchange_busy (r : Run) (d : Due) (f : Frame) : (s.openExchange r d f).busy = s.busy := rfl
@[simp] theorem State.openExchange_done (r : Run) (d : Due) (f : Frame) : (s.openExchange r d f).done = s.done := rfl
@[simp] theorem State.openExchange_matched (r : Run) (d : Due) (f : Frame) : (s.openExchange r d f).matched = s.matched := rfl
@[simp] theorem State.openExchange_found (r : Run) (d : Due) (f : Frame) : (s.openExchange r d f).found = s.found := rfl
@[simp] theorem State.openExchange_err (r : Run) (d : Due) (f : Frame) : (s.openExchange r d f).err = s.err := rfl
@[simp] theorem State.openExchange_cfg (r : Run) (d : Due) (f : Frame) : (s.openExchange r d f).cfg = s.cfg := rfl
@[simp] theorem State.openExchange_p0 (r : Run) (d : Due) (f : Frame) : (s.openExchange r d f).p0 = s.p0 := rfl
@[simp] theorem State.openExchange_p1 (r : Run) (d : Due) (f : Frame) : (s.openExchange r d f).p1 = s.p1 := rfl
@[simp] theorem State.openExchange_timeout (r : Run) (d : Due) (f : Frame) : (s.openExchange r d f).timeout = s.timeout := rfl
@[simp] theorem State.openExchange_asm (r : Run) (d : Due) (f : Frame) : (s.openExchange r d f).asm = s.asm := rfl
@[simp] theorem State.openExchange_warn (r : Run) (d : Due) (f : Frame) : (s.openExchange r d f).warn = s.warn := rfl
@[simp] theorem State.openExchange_cl (r : Run) (d : Due) (f : Frame) : (s.openExchange r d f).cl = s.cl := rfl
@[simp] theorem State.openExchange_sak (r : Run) (d : Due) (f : Frame) : (s.openExchange r d f).sak = s.sak := rfl
@[simp] theorem State.openExchange_atqa0 (r : Run) (d : Due) (f : Frame) : (s.openExchange r d f).atqa0 = s.atqa0 := rfl
@[simp] theorem State.openExchange_atqa1 (r : Run) (d : Due) (f : Frame) : (s.openExchange r d f).atqa1 = s.atqa1 := rfl
@[simp] theorem State.openExchange_uidLen (r : Run) (d : Due) (f : Frame) : (s.openExchange r d f).uidLen = s.uidLen := rfl
@[simp] theorem State.openExchange_uid (r : Run) (d : Due) (f : Frame) : (s.openExchange r d f).uid = s.uid := rfl
@[simp] theorem State.openExchange_rawUid (r : Run) (d : Due) (f : Frame) : (s.openExchange r d f).rawUid = s.rawUid := rfl
@[simp] theorem State.openExchange_rawBcc (r : Run) (d : Due) (f : Frame) : (s.openExchange r d f).rawBcc = s.rawBcc := rfl
@[simp] theorem State.openExchange_atsLen (r : Run) (d : Due) (f : Frame) : (s.openExchange r d f).atsLen = s.atsLen := rfl
@[simp] theorem State.openExchange_crcRes (r : Run) (d : Due) (f : Frame) : (s.openExchange r d f).crcRes = s.crcRes := rfl
@[simp] theorem State.openExchange_hbOff (r : Run) (d : Due) (f : Frame) : (s.openExchange r d f).hbOff = s.hbOff := rfl
@[simp] theorem State.openExchange_hbLen (r : Run) (d : Due) (f : Frame) : (s.openExchange r d f).hbLen = s.hbLen := rfl
@[simp] theorem State.openExchange_txBits (r : Run) (d : Due) (f : Frame) : (s.openExchange r d f).txBits = s.txBits := rfl
@[simp] theorem State.openExchange_rxBits (r : Run) (d : Due) (f : Frame) : (s.openExchange r d f).rxBits = s.rxBits := rfl
@[simp] theorem State.openExchange_ratsParam (r : Run) (d : Due) (f : Frame) : (s.openExchange r d f).ratsParam =
    s.ratsParam := rfl
@[simp] theorem State.openExchange_pollCnt (r : Run) (d : Due) (f : Frame) : (s.openExchange r d f).pollCnt = s.pollCnt := rfl
@[simp] theorem State.openExchange_mem (r : Run) (d : Due) (f : Frame) : (s.openExchange r d f).mem = s.mem := rfl
@[simp] theorem State.openExchange_abortReq (r : Run) (d : Due) (f : Frame) : (s.openExchange r d f).abortReq = s.abortReq := rfl
@[simp] theorem State.openExchange_xch (r : Run) (d : Due) (f : Frame) : (s.openExchange r d f).xch =
    some ⟨frameLine f, rxCrcFor r d, r.timeout⟩ := rfl
@[simp] theorem State.openExchange_run (r : Run) (d : Due) (f : Frame) : (s.openExchange r d f).run =
    some { r with point := .await d } := rfl
@[simp] theorem State.openExchange_inbox (r : Run) (d : Due) (f : Frame) : (s.openExchange r d f).inbox = s.inbox := rfl
@[simp] theorem State.openExchange_rfOut (r : Run) (d : Due) (f : Frame) : (s.openExchange r d f).rfOut =
    s.rfOut ++ [frameLine f] := rfl
@[simp] theorem State.openExchange_readData (r : Run) (d : Due) (f : Frame) : (s.openExchange r d f).readData = s.readData := rfl
@[simp] theorem State.openExchange_fresh (r : Run) (d : Due) (f : Frame) : (s.openExchange r d f).fresh = s.fresh := rfl
@[simp] theorem State.openExchange_txGen (r : Run) (d : Due) (f : Frame) : (s.openExchange r d f).txGen = s.txGen := rfl
@[simp] theorem State.openExchange_rxGen (r : Run) (d : Due) (f : Frame) : (s.openExchange r d f).rxGen = s.rxGen := rfl
@[simp] theorem State.openExchange_atsGen (r : Run) (d : Due) (f : Frame) : (s.openExchange r d f).atsGen = s.atsGen := rfl

/-! ### State.noTag -/

@[simp] theorem State.noTag_cmd : (s.noTag).cmd = s.cmd := rfl
@[simp] theorem State.noTag_busy : (s.noTag).busy = s.busy := rfl
@[simp] theorem State.noTag_done : (s.noTag).done = s.done := rfl
@[simp] theorem State.noTag_matched : (s.noTag).matched = s.matched := rfl
@[simp] theorem State.noTag_found : (s.noTag).found = s.found := rfl
@[simp] theorem State.noTag_err : (s.noTag).err = s.err := rfl
@[simp] theorem State.noTag_cfg : (s.noTag).cfg = s.cfg := rfl
@[simp] theorem State.noTag_p0 : (s.noTag).p0 = s.p0 := rfl
@[simp] theorem State.noTag_p1 : (s.noTag).p1 = s.p1 := rfl
@[simp] theorem State.noTag_timeout : (s.noTag).timeout = s.timeout := rfl
@[simp] theorem State.noTag_asm : (s.noTag).asm = .noTag := rfl
@[simp] theorem State.noTag_warn : (s.noTag).warn = s.warn := rfl
@[simp] theorem State.noTag_cl : (s.noTag).cl = s.cl := rfl
@[simp] theorem State.noTag_sak : (s.noTag).sak = s.sak := rfl
@[simp] theorem State.noTag_atqa0 : (s.noTag).atqa0 = s.atqa0 := rfl
@[simp] theorem State.noTag_atqa1 : (s.noTag).atqa1 = s.atqa1 := rfl
@[simp] theorem State.noTag_uidLen : (s.noTag).uidLen = s.uidLen := rfl
@[simp] theorem State.noTag_uid : (s.noTag).uid = s.uid := rfl
@[simp] theorem State.noTag_rawUid : (s.noTag).rawUid = s.rawUid := rfl
@[simp] theorem State.noTag_rawBcc : (s.noTag).rawBcc = s.rawBcc := rfl
@[simp] theorem State.noTag_atsLen : (s.noTag).atsLen = s.atsLen := rfl
@[simp] theorem State.noTag_crcRes : (s.noTag).crcRes = s.crcRes := rfl
@[simp] theorem State.noTag_hbOff : (s.noTag).hbOff = s.hbOff := rfl
@[simp] theorem State.noTag_hbLen : (s.noTag).hbLen = s.hbLen := rfl
@[simp] theorem State.noTag_txBits : (s.noTag).txBits = s.txBits := rfl
@[simp] theorem State.noTag_rxBits : (s.noTag).rxBits = 0 := rfl
@[simp] theorem State.noTag_ratsParam : (s.noTag).ratsParam = s.ratsParam := rfl
@[simp] theorem State.noTag_pollCnt : (s.noTag).pollCnt = s.pollCnt := rfl
@[simp] theorem State.noTag_mem : (s.noTag).mem = Memory.forget s.mem Config.rxBase Config.maxFrameLen := rfl
@[simp] theorem State.noTag_abortReq : (s.noTag).abortReq = s.abortReq := rfl
@[simp] theorem State.noTag_xch : (s.noTag).xch = s.xch := rfl
@[simp] theorem State.noTag_run : (s.noTag).run = s.run := rfl
@[simp] theorem State.noTag_inbox : (s.noTag).inbox = s.inbox := rfl
@[simp] theorem State.noTag_rfOut : (s.noTag).rfOut = s.rfOut := rfl
@[simp] theorem State.noTag_readData : (s.noTag).readData = s.readData := rfl
@[simp] theorem State.noTag_fresh : (s.noTag).fresh = s.fresh := rfl
@[simp] theorem State.noTag_txGen : (s.noTag).txGen = s.txGen := rfl
@[simp] theorem State.noTag_rxGen : (s.noTag).rxGen = s.rxGen + 1 := rfl
@[simp] theorem State.noTag_atsGen : (s.noTag).atsGen = s.atsGen := rfl

/-! ### State.released -/

@[simp] theorem State.released_cmd : (s.released).cmd = s.cmd := rfl
@[simp] theorem State.released_busy : (s.released).busy = s.busy := rfl
@[simp] theorem State.released_done : (s.released).done = s.done := rfl
@[simp] theorem State.released_matched : (s.released).matched = s.matched := rfl
@[simp] theorem State.released_found : (s.released).found = s.found := rfl
@[simp] theorem State.released_err : (s.released).err = s.err := rfl
@[simp] theorem State.released_cfg : (s.released).cfg = s.cfg := rfl
@[simp] theorem State.released_p0 : (s.released).p0 = s.p0 := rfl
@[simp] theorem State.released_p1 : (s.released).p1 = s.p1 := rfl
@[simp] theorem State.released_timeout : (s.released).timeout = s.timeout := rfl
@[simp] theorem State.released_asm : (s.released).asm = .idle := rfl
@[simp] theorem State.released_warn : (s.released).warn = Warn.none := rfl
@[simp] theorem State.released_cl : (s.released).cl = none := rfl
@[simp] theorem State.released_sak : (s.released).sak = 0x00 := rfl
@[simp] theorem State.released_atqa0 : (s.released).atqa0 = 0x00 := rfl
@[simp] theorem State.released_atqa1 : (s.released).atqa1 = 0x00 := rfl
@[simp] theorem State.released_uidLen : (s.released).uidLen = 0x00 := rfl
@[simp] theorem State.released_uid : (s.released).uid = Vector.replicate 10 0x00 := rfl
@[simp] theorem State.released_rawUid : (s.released).rawUid = Vector.replicate 12 0x00 := rfl
@[simp] theorem State.released_rawBcc : (s.released).rawBcc = Vector.replicate 3 0x00 := rfl
@[simp] theorem State.released_atsLen : (s.released).atsLen = 0x0000 := rfl
@[simp] theorem State.released_crcRes : (s.released).crcRes = s.crcRes := rfl
@[simp] theorem State.released_hbOff : (s.released).hbOff = s.hbOff := rfl
@[simp] theorem State.released_hbLen : (s.released).hbLen = s.hbLen := rfl
@[simp] theorem State.released_txBits : (s.released).txBits = s.txBits := rfl
@[simp] theorem State.released_rxBits : (s.released).rxBits = 0x0000 := rfl
@[simp] theorem State.released_ratsParam : (s.released).ratsParam = s.ratsParam := rfl
@[simp] theorem State.released_pollCnt : (s.released).pollCnt = s.pollCnt := rfl
@[simp] theorem State.released_mem : (s.released).mem = Memory.forget s.mem Config.rxBase Config.maxFrameLen := rfl
@[simp] theorem State.released_abortReq : (s.released).abortReq = s.abortReq := rfl
@[simp] theorem State.released_xch : (s.released).xch = s.xch := rfl
@[simp] theorem State.released_run : (s.released).run = s.run := rfl
@[simp] theorem State.released_inbox : (s.released).inbox = s.inbox := rfl
@[simp] theorem State.released_rfOut : (s.released).rfOut = s.rfOut := rfl
@[simp] theorem State.released_readData : (s.released).readData = s.readData := rfl
@[simp] theorem State.released_fresh : (s.released).fresh = s.fresh := rfl
@[simp] theorem State.released_txGen : (s.released).txGen = s.txGen := rfl
@[simp] theorem State.released_rxGen : (s.released).rxGen = s.rxGen + 1 := rfl
@[simp] theorem State.released_atsGen : (s.released).atsGen = s.atsGen := rfl

/-! ### State.clearAll -/

@[simp] theorem State.clearAll_cmd : (s.clearAll).cmd = State.reset.cmd := rfl
@[simp] theorem State.clearAll_busy : (s.clearAll).busy = State.reset.busy := rfl
@[simp] theorem State.clearAll_done : (s.clearAll).done = State.reset.done := rfl
@[simp] theorem State.clearAll_matched : (s.clearAll).matched = State.reset.matched := rfl
@[simp] theorem State.clearAll_found : (s.clearAll).found = State.reset.found := rfl
@[simp] theorem State.clearAll_err : (s.clearAll).err = State.reset.err := rfl
@[simp] theorem State.clearAll_cfg : (s.clearAll).cfg = State.reset.cfg := rfl
@[simp] theorem State.clearAll_p0 : (s.clearAll).p0 = State.reset.p0 := rfl
@[simp] theorem State.clearAll_p1 : (s.clearAll).p1 = State.reset.p1 := rfl
@[simp] theorem State.clearAll_timeout : (s.clearAll).timeout = State.reset.timeout := rfl
@[simp] theorem State.clearAll_asm : (s.clearAll).asm = State.reset.asm := rfl
@[simp] theorem State.clearAll_warn : (s.clearAll).warn = State.reset.warn := rfl
@[simp] theorem State.clearAll_cl : (s.clearAll).cl = State.reset.cl := rfl
@[simp] theorem State.clearAll_sak : (s.clearAll).sak = State.reset.sak := rfl
@[simp] theorem State.clearAll_atqa0 : (s.clearAll).atqa0 = State.reset.atqa0 := rfl
@[simp] theorem State.clearAll_atqa1 : (s.clearAll).atqa1 = State.reset.atqa1 := rfl
@[simp] theorem State.clearAll_uidLen : (s.clearAll).uidLen = State.reset.uidLen := rfl
@[simp] theorem State.clearAll_uid : (s.clearAll).uid = State.reset.uid := rfl
@[simp] theorem State.clearAll_rawUid : (s.clearAll).rawUid = State.reset.rawUid := rfl
@[simp] theorem State.clearAll_rawBcc : (s.clearAll).rawBcc = State.reset.rawBcc := rfl
@[simp] theorem State.clearAll_atsLen : (s.clearAll).atsLen = State.reset.atsLen := rfl
@[simp] theorem State.clearAll_crcRes : (s.clearAll).crcRes = State.reset.crcRes := rfl
@[simp] theorem State.clearAll_hbOff : (s.clearAll).hbOff = State.reset.hbOff := rfl
@[simp] theorem State.clearAll_hbLen : (s.clearAll).hbLen = State.reset.hbLen := rfl
@[simp] theorem State.clearAll_txBits : (s.clearAll).txBits = State.reset.txBits := rfl
@[simp] theorem State.clearAll_rxBits : (s.clearAll).rxBits = State.reset.rxBits := rfl
@[simp] theorem State.clearAll_ratsParam : (s.clearAll).ratsParam = State.reset.ratsParam := rfl
@[simp] theorem State.clearAll_pollCnt : (s.clearAll).pollCnt = State.reset.pollCnt := rfl
@[simp] theorem State.clearAll_mem : (s.clearAll).mem = State.reset.mem := rfl
@[simp] theorem State.clearAll_abortReq : (s.clearAll).abortReq = State.reset.abortReq := rfl
@[simp] theorem State.clearAll_xch : (s.clearAll).xch = State.reset.xch := rfl
@[simp] theorem State.clearAll_run : (s.clearAll).run = State.reset.run := rfl
@[simp] theorem State.clearAll_inbox : (s.clearAll).inbox = s.inbox := rfl
@[simp] theorem State.clearAll_rfOut : (s.clearAll).rfOut = s.rfOut := rfl
@[simp] theorem State.clearAll_readData : (s.clearAll).readData = s.readData := rfl
@[simp] theorem State.clearAll_fresh : (s.clearAll).fresh = s.fresh := rfl
@[simp] theorem State.clearAll_txGen : (s.clearAll).txGen = s.txGen + 1 := rfl
@[simp] theorem State.clearAll_rxGen : (s.clearAll).rxGen = s.rxGen + 1 := rfl
@[simp] theorem State.clearAll_atsGen : (s.clearAll).atsGen = s.atsGen + 1 := rfl

/-! ### State.landAtqa -/

@[simp] theorem State.landAtqa_cmd (f : Frame) : (s.landAtqa f).cmd = s.cmd := rfl
@[simp] theorem State.landAtqa_busy (f : Frame) : (s.landAtqa f).busy = s.busy := rfl
@[simp] theorem State.landAtqa_done (f : Frame) : (s.landAtqa f).done = s.done := rfl
@[simp] theorem State.landAtqa_matched (f : Frame) : (s.landAtqa f).matched = s.matched := rfl
@[simp] theorem State.landAtqa_found (f : Frame) : (s.landAtqa f).found = s.found := rfl
@[simp] theorem State.landAtqa_err (f : Frame) : (s.landAtqa f).err = s.err := rfl
@[simp] theorem State.landAtqa_cfg (f : Frame) : (s.landAtqa f).cfg = s.cfg := rfl
@[simp] theorem State.landAtqa_p0 (f : Frame) : (s.landAtqa f).p0 = s.p0 := rfl
@[simp] theorem State.landAtqa_p1 (f : Frame) : (s.landAtqa f).p1 = s.p1 := rfl
@[simp] theorem State.landAtqa_timeout (f : Frame) : (s.landAtqa f).timeout = s.timeout := rfl
@[simp] theorem State.landAtqa_asm (f : Frame) : (s.landAtqa f).asm = s.asm := rfl
@[simp] theorem State.landAtqa_warn (f : Frame) : (s.landAtqa f).warn = s.warn := rfl
@[simp] theorem State.landAtqa_cl (f : Frame) : (s.landAtqa f).cl = s.cl := rfl
@[simp] theorem State.landAtqa_sak (f : Frame) : (s.landAtqa f).sak = s.sak := rfl
@[simp] theorem State.landAtqa_atqa0 (f : Frame) : (s.landAtqa f).atqa0 = f.bytes.getD 0 0 := rfl
@[simp] theorem State.landAtqa_atqa1 (f : Frame) : (s.landAtqa f).atqa1 = f.bytes.getD 1 0 := rfl
@[simp] theorem State.landAtqa_uidLen (f : Frame) : (s.landAtqa f).uidLen = s.uidLen := rfl
@[simp] theorem State.landAtqa_uid (f : Frame) : (s.landAtqa f).uid = s.uid := rfl
@[simp] theorem State.landAtqa_rawUid (f : Frame) : (s.landAtqa f).rawUid = s.rawUid := rfl
@[simp] theorem State.landAtqa_rawBcc (f : Frame) : (s.landAtqa f).rawBcc = s.rawBcc := rfl
@[simp] theorem State.landAtqa_atsLen (f : Frame) : (s.landAtqa f).atsLen = s.atsLen := rfl
@[simp] theorem State.landAtqa_crcRes (f : Frame) : (s.landAtqa f).crcRes = s.crcRes := rfl
@[simp] theorem State.landAtqa_hbOff (f : Frame) : (s.landAtqa f).hbOff = s.hbOff := rfl
@[simp] theorem State.landAtqa_hbLen (f : Frame) : (s.landAtqa f).hbLen = s.hbLen := rfl
@[simp] theorem State.landAtqa_txBits (f : Frame) : (s.landAtqa f).txBits = s.txBits := rfl
@[simp] theorem State.landAtqa_rxBits (f : Frame) : (s.landAtqa f).rxBits = BitVec.ofNat 16 f.nbits := rfl
@[simp] theorem State.landAtqa_ratsParam (f : Frame) : (s.landAtqa f).ratsParam = s.ratsParam := rfl
@[simp] theorem State.landAtqa_pollCnt (f : Frame) : (s.landAtqa f).pollCnt = s.pollCnt := rfl
@[simp] theorem State.landAtqa_mem (f : Frame) : (s.landAtqa f).mem =
    Memory.putList (Memory.forget s.mem Config.rxBase Config.maxFrameLen) Config.rxBase f.bytes := rfl
@[simp] theorem State.landAtqa_abortReq (f : Frame) : (s.landAtqa f).abortReq = s.abortReq := rfl
@[simp] theorem State.landAtqa_xch (f : Frame) : (s.landAtqa f).xch = s.xch := rfl
@[simp] theorem State.landAtqa_run (f : Frame) : (s.landAtqa f).run = s.run := rfl
@[simp] theorem State.landAtqa_inbox (f : Frame) : (s.landAtqa f).inbox = s.inbox := rfl
@[simp] theorem State.landAtqa_rfOut (f : Frame) : (s.landAtqa f).rfOut = s.rfOut := rfl
@[simp] theorem State.landAtqa_readData (f : Frame) : (s.landAtqa f).readData = s.readData := rfl
@[simp] theorem State.landAtqa_fresh (f : Frame) : (s.landAtqa f).fresh = s.fresh := rfl
@[simp] theorem State.landAtqa_txGen (f : Frame) : (s.landAtqa f).txGen = s.txGen := rfl
@[simp] theorem State.landAtqa_rxGen (f : Frame) : (s.landAtqa f).rxGen = s.rxGen + 1 := rfl
@[simp] theorem State.landAtqa_atsGen (f : Frame) : (s.landAtqa f).atsGen = s.atsGen := rfl

/-! ### State.landAnticoll -/

@[simp] theorem State.landAnticoll_cmd (n : Level) (f : Frame) : (s.landAnticoll n f).cmd = s.cmd := rfl
@[simp] theorem State.landAnticoll_busy (n : Level) (f : Frame) : (s.landAnticoll n f).busy = s.busy := rfl
@[simp] theorem State.landAnticoll_done (n : Level) (f : Frame) : (s.landAnticoll n f).done = s.done := rfl
@[simp] theorem State.landAnticoll_matched (n : Level) (f : Frame) : (s.landAnticoll n f).matched = s.matched := rfl
@[simp] theorem State.landAnticoll_found (n : Level) (f : Frame) : (s.landAnticoll n f).found = s.found := rfl
@[simp] theorem State.landAnticoll_err (n : Level) (f : Frame) : (s.landAnticoll n f).err = s.err := rfl
@[simp] theorem State.landAnticoll_cfg (n : Level) (f : Frame) : (s.landAnticoll n f).cfg = s.cfg := rfl
@[simp] theorem State.landAnticoll_p0 (n : Level) (f : Frame) : (s.landAnticoll n f).p0 = s.p0 := rfl
@[simp] theorem State.landAnticoll_p1 (n : Level) (f : Frame) : (s.landAnticoll n f).p1 = s.p1 := rfl
@[simp] theorem State.landAnticoll_timeout (n : Level) (f : Frame) : (s.landAnticoll n f).timeout = s.timeout := rfl
@[simp] theorem State.landAnticoll_asm (n : Level) (f : Frame) : (s.landAnticoll n f).asm = s.asm := rfl
@[simp] theorem State.landAnticoll_warn (n : Level) (f : Frame) : (s.landAnticoll n f).warn =
    if bccOk f.bytes then s.warn else setBccWarn s.warn n true := rfl
@[simp] theorem State.landAnticoll_cl (n : Level) (f : Frame) : (s.landAnticoll n f).cl = s.cl := rfl
@[simp] theorem State.landAnticoll_sak (n : Level) (f : Frame) : (s.landAnticoll n f).sak = s.sak := rfl
@[simp] theorem State.landAnticoll_atqa0 (n : Level) (f : Frame) : (s.landAnticoll n f).atqa0 = s.atqa0 := rfl
@[simp] theorem State.landAnticoll_atqa1 (n : Level) (f : Frame) : (s.landAnticoll n f).atqa1 = s.atqa1 := rfl
@[simp] theorem State.landAnticoll_uidLen (n : Level) (f : Frame) : (s.landAnticoll n f).uidLen = s.uidLen := rfl
@[simp] theorem State.landAnticoll_uid (n : Level) (f : Frame) : (s.landAnticoll n f).uid = s.uid := rfl
@[simp] theorem State.landAnticoll_rawUid (n : Level) (f : Frame) : (s.landAnticoll n f).rawUid =
    setRawPart s.rawUid n (f.bytes.getD 0 0) (f.bytes.getD 1 0) (f.bytes.getD 2 0) (f.bytes.getD 3 0) := rfl
@[simp] theorem State.landAnticoll_rawBcc (n : Level) (f : Frame) : (s.landAnticoll n f).rawBcc =
    setRawBcc s.rawBcc n (f.bytes.getD 4 0) := rfl
@[simp] theorem State.landAnticoll_atsLen (n : Level) (f : Frame) : (s.landAnticoll n f).atsLen = s.atsLen := rfl
@[simp] theorem State.landAnticoll_crcRes (n : Level) (f : Frame) : (s.landAnticoll n f).crcRes = s.crcRes := rfl
@[simp] theorem State.landAnticoll_hbOff (n : Level) (f : Frame) : (s.landAnticoll n f).hbOff = s.hbOff := rfl
@[simp] theorem State.landAnticoll_hbLen (n : Level) (f : Frame) : (s.landAnticoll n f).hbLen = s.hbLen := rfl
@[simp] theorem State.landAnticoll_txBits (n : Level) (f : Frame) : (s.landAnticoll n f).txBits = s.txBits := rfl
@[simp] theorem State.landAnticoll_rxBits (n : Level) (f : Frame) : (s.landAnticoll n f).rxBits = BitVec.ofNat 16 f.nbits := rfl
@[simp] theorem State.landAnticoll_ratsParam (n : Level) (f : Frame) : (s.landAnticoll n f).ratsParam = s.ratsParam := rfl
@[simp] theorem State.landAnticoll_pollCnt (n : Level) (f : Frame) : (s.landAnticoll n f).pollCnt = s.pollCnt := rfl
@[simp] theorem State.landAnticoll_mem (n : Level) (f : Frame) : (s.landAnticoll n f).mem =
    Memory.putList (Memory.forget s.mem Config.rxBase Config.maxFrameLen) Config.rxBase f.bytes := rfl
@[simp] theorem State.landAnticoll_abortReq (n : Level) (f : Frame) : (s.landAnticoll n f).abortReq = s.abortReq := rfl
@[simp] theorem State.landAnticoll_xch (n : Level) (f : Frame) : (s.landAnticoll n f).xch = s.xch := rfl
@[simp] theorem State.landAnticoll_run (n : Level) (f : Frame) : (s.landAnticoll n f).run = s.run := rfl
@[simp] theorem State.landAnticoll_inbox (n : Level) (f : Frame) : (s.landAnticoll n f).inbox = s.inbox := rfl
@[simp] theorem State.landAnticoll_rfOut (n : Level) (f : Frame) : (s.landAnticoll n f).rfOut = s.rfOut := rfl
@[simp] theorem State.landAnticoll_readData (n : Level) (f : Frame) : (s.landAnticoll n f).readData = s.readData := rfl
@[simp] theorem State.landAnticoll_fresh (n : Level) (f : Frame) : (s.landAnticoll n f).fresh = s.fresh := rfl
@[simp] theorem State.landAnticoll_txGen (n : Level) (f : Frame) : (s.landAnticoll n f).txGen = s.txGen := rfl
@[simp] theorem State.landAnticoll_rxGen (n : Level) (f : Frame) : (s.landAnticoll n f).rxGen = s.rxGen + 1 := rfl
@[simp] theorem State.landAnticoll_atsGen (n : Level) (f : Frame) : (s.landAnticoll n f).atsGen = s.atsGen := rfl

/-! ### State.landSak -/

@[simp] theorem State.landSak_cmd (f : Frame) : (s.landSak f).cmd = s.cmd := rfl
@[simp] theorem State.landSak_busy (f : Frame) : (s.landSak f).busy = s.busy := rfl
@[simp] theorem State.landSak_done (f : Frame) : (s.landSak f).done = s.done := rfl
@[simp] theorem State.landSak_matched (f : Frame) : (s.landSak f).matched = s.matched := rfl
@[simp] theorem State.landSak_found (f : Frame) : (s.landSak f).found = s.found := rfl
@[simp] theorem State.landSak_err (f : Frame) : (s.landSak f).err = s.err := rfl
@[simp] theorem State.landSak_cfg (f : Frame) : (s.landSak f).cfg = s.cfg := rfl
@[simp] theorem State.landSak_p0 (f : Frame) : (s.landSak f).p0 = s.p0 := rfl
@[simp] theorem State.landSak_p1 (f : Frame) : (s.landSak f).p1 = s.p1 := rfl
@[simp] theorem State.landSak_timeout (f : Frame) : (s.landSak f).timeout = s.timeout := rfl
@[simp] theorem State.landSak_asm (f : Frame) : (s.landSak f).asm = s.asm := rfl
@[simp] theorem State.landSak_warn (f : Frame) : (s.landSak f).warn = s.warn := rfl
@[simp] theorem State.landSak_cl (f : Frame) : (s.landSak f).cl = s.cl := rfl
@[simp] theorem State.landSak_sak (f : Frame) : (s.landSak f).sak = f.bytes.getD 0 0 := rfl
@[simp] theorem State.landSak_atqa0 (f : Frame) : (s.landSak f).atqa0 = s.atqa0 := rfl
@[simp] theorem State.landSak_atqa1 (f : Frame) : (s.landSak f).atqa1 = s.atqa1 := rfl
@[simp] theorem State.landSak_uidLen (f : Frame) : (s.landSak f).uidLen = s.uidLen := rfl
@[simp] theorem State.landSak_uid (f : Frame) : (s.landSak f).uid = s.uid := rfl
@[simp] theorem State.landSak_rawUid (f : Frame) : (s.landSak f).rawUid = s.rawUid := rfl
@[simp] theorem State.landSak_rawBcc (f : Frame) : (s.landSak f).rawBcc = s.rawBcc := rfl
@[simp] theorem State.landSak_atsLen (f : Frame) : (s.landSak f).atsLen = s.atsLen := rfl
@[simp] theorem State.landSak_crcRes (f : Frame) : (s.landSak f).crcRes = s.crcRes := rfl
@[simp] theorem State.landSak_hbOff (f : Frame) : (s.landSak f).hbOff = s.hbOff := rfl
@[simp] theorem State.landSak_hbLen (f : Frame) : (s.landSak f).hbLen = s.hbLen := rfl
@[simp] theorem State.landSak_txBits (f : Frame) : (s.landSak f).txBits = s.txBits := rfl
@[simp] theorem State.landSak_rxBits (f : Frame) : (s.landSak f).rxBits = BitVec.ofNat 16 f.nbits := rfl
@[simp] theorem State.landSak_ratsParam (f : Frame) : (s.landSak f).ratsParam = s.ratsParam := rfl
@[simp] theorem State.landSak_pollCnt (f : Frame) : (s.landSak f).pollCnt = s.pollCnt := rfl
@[simp] theorem State.landSak_mem (f : Frame) : (s.landSak f).mem =
    Memory.putList (Memory.forget s.mem Config.rxBase Config.maxFrameLen) Config.rxBase f.bytes := rfl
@[simp] theorem State.landSak_abortReq (f : Frame) : (s.landSak f).abortReq = s.abortReq := rfl
@[simp] theorem State.landSak_xch (f : Frame) : (s.landSak f).xch = s.xch := rfl
@[simp] theorem State.landSak_run (f : Frame) : (s.landSak f).run = s.run := rfl
@[simp] theorem State.landSak_inbox (f : Frame) : (s.landSak f).inbox = s.inbox := rfl
@[simp] theorem State.landSak_rfOut (f : Frame) : (s.landSak f).rfOut = s.rfOut := rfl
@[simp] theorem State.landSak_readData (f : Frame) : (s.landSak f).readData = s.readData := rfl
@[simp] theorem State.landSak_fresh (f : Frame) : (s.landSak f).fresh = s.fresh := rfl
@[simp] theorem State.landSak_txGen (f : Frame) : (s.landSak f).txGen = s.txGen := rfl
@[simp] theorem State.landSak_rxGen (f : Frame) : (s.landSak f).rxGen = s.rxGen + 1 := rfl
@[simp] theorem State.landSak_atsGen (f : Frame) : (s.landSak f).atsGen = s.atsGen := rfl

/-! ### State.checkCascadeTag -/

@[simp] theorem State.checkCascadeTag_cmd (n : Level) : (s.checkCascadeTag n).cmd = s.cmd := rfl
@[simp] theorem State.checkCascadeTag_busy (n : Level) : (s.checkCascadeTag n).busy = s.busy := rfl
@[simp] theorem State.checkCascadeTag_done (n : Level) : (s.checkCascadeTag n).done = s.done := rfl
@[simp] theorem State.checkCascadeTag_matched (n : Level) : (s.checkCascadeTag n).matched = s.matched := rfl
@[simp] theorem State.checkCascadeTag_found (n : Level) : (s.checkCascadeTag n).found = s.found := rfl
@[simp] theorem State.checkCascadeTag_err (n : Level) : (s.checkCascadeTag n).err = s.err := rfl
@[simp] theorem State.checkCascadeTag_cfg (n : Level) : (s.checkCascadeTag n).cfg = s.cfg := rfl
@[simp] theorem State.checkCascadeTag_p0 (n : Level) : (s.checkCascadeTag n).p0 = s.p0 := rfl
@[simp] theorem State.checkCascadeTag_p1 (n : Level) : (s.checkCascadeTag n).p1 = s.p1 := rfl
@[simp] theorem State.checkCascadeTag_timeout (n : Level) : (s.checkCascadeTag n).timeout = s.timeout := rfl
@[simp] theorem State.checkCascadeTag_asm (n : Level) : (s.checkCascadeTag n).asm = s.asm := rfl
@[simp] theorem State.checkCascadeTag_warn (n : Level) : (s.checkCascadeTag n).warn =
    if rawFirst s.rawUid n ≠ Config.cascadeTag then setCtWarn s.warn n else s.warn := rfl
@[simp] theorem State.checkCascadeTag_cl (n : Level) : (s.checkCascadeTag n).cl = s.cl := rfl
@[simp] theorem State.checkCascadeTag_sak (n : Level) : (s.checkCascadeTag n).sak = s.sak := rfl
@[simp] theorem State.checkCascadeTag_atqa0 (n : Level) : (s.checkCascadeTag n).atqa0 = s.atqa0 := rfl
@[simp] theorem State.checkCascadeTag_atqa1 (n : Level) : (s.checkCascadeTag n).atqa1 = s.atqa1 := rfl
@[simp] theorem State.checkCascadeTag_uidLen (n : Level) : (s.checkCascadeTag n).uidLen = s.uidLen := rfl
@[simp] theorem State.checkCascadeTag_uid (n : Level) : (s.checkCascadeTag n).uid = s.uid := rfl
@[simp] theorem State.checkCascadeTag_rawUid (n : Level) : (s.checkCascadeTag n).rawUid = s.rawUid := rfl
@[simp] theorem State.checkCascadeTag_rawBcc (n : Level) : (s.checkCascadeTag n).rawBcc = s.rawBcc := rfl
@[simp] theorem State.checkCascadeTag_atsLen (n : Level) : (s.checkCascadeTag n).atsLen = s.atsLen := rfl
@[simp] theorem State.checkCascadeTag_crcRes (n : Level) : (s.checkCascadeTag n).crcRes = s.crcRes := rfl
@[simp] theorem State.checkCascadeTag_hbOff (n : Level) : (s.checkCascadeTag n).hbOff = s.hbOff := rfl
@[simp] theorem State.checkCascadeTag_hbLen (n : Level) : (s.checkCascadeTag n).hbLen = s.hbLen := rfl
@[simp] theorem State.checkCascadeTag_txBits (n : Level) : (s.checkCascadeTag n).txBits = s.txBits := rfl
@[simp] theorem State.checkCascadeTag_rxBits (n : Level) : (s.checkCascadeTag n).rxBits = s.rxBits := rfl
@[simp] theorem State.checkCascadeTag_ratsParam (n : Level) : (s.checkCascadeTag n).ratsParam = s.ratsParam := rfl
@[simp] theorem State.checkCascadeTag_pollCnt (n : Level) : (s.checkCascadeTag n).pollCnt = s.pollCnt := rfl
@[simp] theorem State.checkCascadeTag_mem (n : Level) : (s.checkCascadeTag n).mem = s.mem := rfl
@[simp] theorem State.checkCascadeTag_abortReq (n : Level) : (s.checkCascadeTag n).abortReq = s.abortReq := rfl
@[simp] theorem State.checkCascadeTag_xch (n : Level) : (s.checkCascadeTag n).xch = s.xch := rfl
@[simp] theorem State.checkCascadeTag_run (n : Level) : (s.checkCascadeTag n).run = s.run := rfl
@[simp] theorem State.checkCascadeTag_inbox (n : Level) : (s.checkCascadeTag n).inbox = s.inbox := rfl
@[simp] theorem State.checkCascadeTag_rfOut (n : Level) : (s.checkCascadeTag n).rfOut = s.rfOut := rfl
@[simp] theorem State.checkCascadeTag_readData (n : Level) : (s.checkCascadeTag n).readData = s.readData := rfl
@[simp] theorem State.checkCascadeTag_fresh (n : Level) : (s.checkCascadeTag n).fresh = s.fresh := rfl
@[simp] theorem State.checkCascadeTag_txGen (n : Level) : (s.checkCascadeTag n).txGen = s.txGen := rfl
@[simp] theorem State.checkCascadeTag_rxGen (n : Level) : (s.checkCascadeTag n).rxGen = s.rxGen := rfl
@[simp] theorem State.checkCascadeTag_atsGen (n : Level) : (s.checkCascadeTag n).atsGen = s.atsGen := rfl

/-! ### State.clearAts -/

@[simp] theorem State.clearAts_cmd : (s.clearAts).cmd = s.cmd := rfl
@[simp] theorem State.clearAts_busy : (s.clearAts).busy = s.busy := rfl
@[simp] theorem State.clearAts_done : (s.clearAts).done = s.done := rfl
@[simp] theorem State.clearAts_matched : (s.clearAts).matched = s.matched := rfl
@[simp] theorem State.clearAts_found : (s.clearAts).found = s.found := rfl
@[simp] theorem State.clearAts_err : (s.clearAts).err = s.err := rfl
@[simp] theorem State.clearAts_cfg : (s.clearAts).cfg = s.cfg := rfl
@[simp] theorem State.clearAts_p0 : (s.clearAts).p0 = s.p0 := rfl
@[simp] theorem State.clearAts_p1 : (s.clearAts).p1 = s.p1 := rfl
@[simp] theorem State.clearAts_timeout : (s.clearAts).timeout = s.timeout := rfl
@[simp] theorem State.clearAts_asm : (s.clearAts).asm = s.asm := rfl
@[simp] theorem State.clearAts_warn : (s.clearAts).warn = s.warn := rfl
@[simp] theorem State.clearAts_cl : (s.clearAts).cl = s.cl := rfl
@[simp] theorem State.clearAts_sak : (s.clearAts).sak = s.sak := rfl
@[simp] theorem State.clearAts_atqa0 : (s.clearAts).atqa0 = s.atqa0 := rfl
@[simp] theorem State.clearAts_atqa1 : (s.clearAts).atqa1 = s.atqa1 := rfl
@[simp] theorem State.clearAts_uidLen : (s.clearAts).uidLen = s.uidLen := rfl
@[simp] theorem State.clearAts_uid : (s.clearAts).uid = s.uid := rfl
@[simp] theorem State.clearAts_rawUid : (s.clearAts).rawUid = s.rawUid := rfl
@[simp] theorem State.clearAts_rawBcc : (s.clearAts).rawBcc = s.rawBcc := rfl
@[simp] theorem State.clearAts_atsLen : (s.clearAts).atsLen = 0x0000 := rfl
@[simp] theorem State.clearAts_crcRes : (s.clearAts).crcRes = s.crcRes := rfl
@[simp] theorem State.clearAts_hbOff : (s.clearAts).hbOff = s.hbOff := rfl
@[simp] theorem State.clearAts_hbLen : (s.clearAts).hbLen = s.hbLen := rfl
@[simp] theorem State.clearAts_txBits : (s.clearAts).txBits = s.txBits := rfl
@[simp] theorem State.clearAts_rxBits : (s.clearAts).rxBits = s.rxBits := rfl
@[simp] theorem State.clearAts_ratsParam : (s.clearAts).ratsParam = s.ratsParam := rfl
@[simp] theorem State.clearAts_pollCnt : (s.clearAts).pollCnt = s.pollCnt := rfl
@[simp] theorem State.clearAts_mem : (s.clearAts).mem = s.mem := rfl
@[simp] theorem State.clearAts_abortReq : (s.clearAts).abortReq = s.abortReq := rfl
@[simp] theorem State.clearAts_xch : (s.clearAts).xch = s.xch := rfl
@[simp] theorem State.clearAts_run : (s.clearAts).run = s.run := rfl
@[simp] theorem State.clearAts_inbox : (s.clearAts).inbox = s.inbox := rfl
@[simp] theorem State.clearAts_rfOut : (s.clearAts).rfOut = s.rfOut := rfl
@[simp] theorem State.clearAts_readData : (s.clearAts).readData = s.readData := rfl
@[simp] theorem State.clearAts_fresh : (s.clearAts).fresh = s.fresh := rfl
@[simp] theorem State.clearAts_txGen : (s.clearAts).txGen = s.txGen := rfl
@[simp] theorem State.clearAts_rxGen : (s.clearAts).rxGen = s.rxGen := rfl
@[simp] theorem State.clearAts_atsGen : (s.clearAts).atsGen = s.atsGen := rfl

end Sys2Proof.Machine
end

