-- ==== Sys2Proof/Laws/Line.lean ====
section
/-! SUPPORT. The laws of the line coding: a byte and its bits, one nine-bit group, and the shape of a decoded frame. -/

namespace Sys2Proof.Machine

theorem bitsToByte_byteBits (b : Byte) : bitsToByte (byteBits b) = b := by
  revert b
  decide

theorem byteBits_length (b : Byte) : (byteBits b).length = 8 := rfl

@[simp] theorem consByte_err (b : Byte) (e : ErrKind) : consByte b (.err e) = .err e := rfl

@[simp] theorem consByte_ok (b : Byte) (f : Frame) : consByte b (.ok f) = .ok ⟨b :: f.bytes, 8 + f.nbits⟩ := rfl

/-- One group with its right parity bit decodes to its byte. -/
theorem decodeGroups_group (b : Byte) (rest : LineBits) :
    decodeGroups (byteBits b ++ par b :: rest) = consByte b (decodeGroups rest) := by
  have h := bitsToByte_byteBits b
  simp only [byteBits] at h
  simp only [byteBits, List.cons_append, List.nil_append, decodeGroups, h, if_true]

theorem lineEncode_group (b : Byte) (bs : List Byte) (n : Nat) (h : 8 ≤ n) :
    lineEncode (b :: bs) n = byteBits b ++ par b :: lineEncode bs (n - 8) := by
  simp [lineEncode, h]

theorem lineEncode_partial (b : Byte) (bs : List Byte) (n : Nat) (h : n < 8) :
    lineEncode (b :: bs) n = (byteBits b).take n := by
  have : ¬8 ≤ n := by omega
  simp [lineEncode, this]

/-- The length of a line frame: `9q + r` (42_bit_transceive.md R165). -/
theorem lineEncode_length (bytes : List Byte) (n : Nat) (h : bytes.length = ceil8 n) :
    (lineEncode bytes n).length = 9 * (n / 8) + n % 8 := by
  induction bytes generalizing n with
  | nil =>
    have : n = 0 := by simp [ceil8] at h; omega
    subst n
    simp [lineEncode]
  | cons b bs ih =>
    by_cases h8 : 8 ≤ n
    · have hl : bs.length = ceil8 (n - 8) := by simp [ceil8] at h ⊢; omega
      rw [lineEncode_group b bs n h8]
      simp only [List.length_append, List.length_cons, byteBits_length, ih _ hl]
      omega
    · rw [lineEncode_partial b bs n (by omega)]
      simp only [List.length_take, byteBits_length]
      omega

/-- A decoded frame holds as many bytes as its bits need, no more than the groups of the line frame. -/
theorem decodeGroups_shape {bits : LineBits} {f : Frame} (hlen : bits.length % 9 ≠ 8) (h : decodeGroups bits = .ok f) :
    f.bytes.length = ceil8 f.nbits ∧ f.bytes.length = (bits.length + 8) / 9 := by
  match bits, h with
  | x0 :: x1 :: x2 :: x3 :: x4 :: x5 :: x6 :: x7 :: p :: rest, h =>
    simp only [decodeGroups] at h
    split at h
    · cases hr : decodeGroups rest with
      | err e => simp [hr] at h
      | ok g =>
        simp only [hr, consByte_ok, XResult.ok.injEq] at h
        subst h
        have hlen' : rest.length % 9 ≠ 8 := by simp at hlen; omega
        have ih := decodeGroups_shape hlen' hr
        simp only [List.length_cons, ceil8] at ih ⊢
        omega
    · cases h
  | [], h =>
    simp only [decodeGroups, XResult.ok.injEq] at h
    subst h
    simp [ceil8]
  | [x0], h => simp only [decodeGroups, XResult.ok.injEq] at h; subst h; simp [ceil8]
  | [x0, x1], h => simp only [decodeGroups, XResult.ok.injEq] at h; subst h; simp [ceil8]
  | [x0, x1, x2], h => simp only [decodeGroups, XResult.ok.injEq] at h; subst h; simp [ceil8]
  | [x0, x1, x2, x3], h => simp only [decodeGroups, XResult.ok.injEq] at h; subst h; simp [ceil8]
  | [x0, x1, x2, x3, x4], h => simp only [decodeGroups, XResult.ok.injEq] at h; subst h; simp [ceil8]
  | [x0, x1, x2, x3, x4, x5], h => simp only [decodeGroups, XResult.ok.injEq] at h; subst h; simp [ceil8]
  | [x0, x1, x2, x3, x4, x5, x6], h => simp only [decodeGroups, XResult.ok.injEq] at h; subst h; simp [ceil8]
  | [x0, x1, x2, x3, x4, x5, x6, x7], h => simp at hlen

/-- A frame that `LineDecode` accepts fits the receive buffer (42_bit_transceive.md R166, 20_memory.md R74). -/
theorem lineDecode_shape {bits : LineBits} {f : Frame} (h : lineDecode bits = .ok f) :
    f.bytes.length = ceil8 f.nbits ∧ f.bytes.length ≤ Config.maxFrameLen := by
  unfold lineDecode at h
  split at h
  · cases h
  · split at h
    · cases h
    · have hs := decodeGroups_shape ‹_› h
      exact ⟨hs.1, by omega⟩

theorem checkCrcA_shape {f g : Frame} (hf : f.bytes.length = ceil8 f.nbits) (h : checkCrcA f = .ok g) :
    g.bytes.length = ceil8 g.nbits ∧ g.bytes.length ≤ f.bytes.length ∧ g.nbits % 8 = 0 := by
  unfold checkCrcA at h
  split at h
  · cases h
  · simp only at h
    split at h
    · cases h
    · split at h
      · simp only [XResult.ok.injEq] at h
        subst h
        simp only [ceil8, List.length_take] at hf ⊢
        omega
      · cases h

/-- Whatever an exchange delivers fits the receive buffer. -/
theorem decodeAnswer_shape {rxCrc : Bool} {a : Answer} {f : Frame} (h : decodeAnswer rxCrc a = .ok f) :
    f.bytes.length = ceil8 f.nbits ∧ f.bytes.length ≤ Config.maxFrameLen := by
  cases a with
  | line bits =>
    simp only [decodeAnswer, decodeLine] at h
    split at h
    · cases h
    · have hs := lineDecode_shape ‹_›
      split at h
      · have hc := checkCrcA_shape hs.1 h
        exact ⟨hc.1, by omega⟩
      · cases h
        exact hs
  | rfTimeout => cases h
  | framingError => cases h
  | bitCollision => cases h
  | ioError => cases h

end Sys2Proof.Machine
end

