-- ==== Sys2Proof/Laws/Memory.lean ====
section
/-! SUPPORT. The laws of the memory operations: a read after a write, the canonical form, and what they say of `bufByte`. -/

namespace Sys2Proof.Machine

section

open Memory

theorem Memory.get_put_same (m : Memory) (a : Nat) (v : Byte) : get (put m a v) a = some v := by
  induction m with
  | nil => simp [put, get]
  | cons c rest ih =>
    obtain ⟨k, w⟩ := c
    unfold put
    split
    · simp [get]
    · split
      · simp [get]
      · have : k ≠ a := by omega
        simp [get, this, ih]

theorem Memory.get_put_other (m : Memory) (a b : Nat) (v : Byte) (h : b ≠ a) : get (put m a v) b = get m b := by
  induction m with
  | nil => simp [put, get, Ne.symm h]
  | cons c rest ih =>
    obtain ⟨k, w⟩ := c
    unfold put
    split
    · simp [get, Ne.symm h]
    · split
      · subst a
        simp [get, Ne.symm h]
      · simp [get, ih]

theorem Memory.get_put (m : Memory) (a b : Nat) (v : Byte) : get (put m a v) b = if b = a then some v else get m b := by
  split
  · subst b
    exact get_put_same m a v
  · exact get_put_other m a b v ‹_›

/-- What a block of stored bytes reads as. -/
theorem Memory.get_putList (m : Memory) (a b : Nat) (bytes : List Byte) :
    get (putList m a bytes) b = if a ≤ b ∧ b < a + bytes.length then some (bytes.getD (b - a) 0) else get m b := by
  induction bytes generalizing m a with
  | nil =>
    have h0 : ¬(a ≤ b ∧ b < a + ([] : List Byte).length) := by
      rw [List.length_nil]
      omega
    rw [if_neg h0, putList]
  | cons v vs ih =>
    rw [putList, ih, get_put]
    by_cases hb : b = a
    · subst b
      have h0 : ¬(a + 1 ≤ a ∧ a < a + 1 + vs.length) := by omega
      have h1 : a ≤ a ∧ a < a + (v :: vs).length := by simp
      rw [if_neg h0, if_pos rfl, if_pos h1]
      simp
    · by_cases hr : a + 1 ≤ b ∧ b < a + 1 + vs.length
      · have h1 : a ≤ b ∧ b < a + (v :: vs).length := by simp; omega
        have h2 : b - a = (b - (a + 1)) + 1 := by omega
        rw [if_pos hr, if_pos h1, h2]
        simp
      · have h1 : ¬(a ≤ b ∧ b < a + (v :: vs).length) := by simp; omega
        rw [if_neg hr, if_neg h1, if_neg hb]

theorem Memory.get_forget (m : Memory) (lo n b : Nat) :
    get (forget m lo n) b = if lo ≤ b ∧ b < lo + n then none else get m b := by
  induction m with
  | nil => simp [forget, get]
  | cons c rest ih =>
    obtain ⟨k, w⟩ := c
    unfold forget at ih ⊢
    by_cases hk : k < lo ∨ lo + n ≤ k
    · have hf : (decide (k < lo) || decide (lo + n ≤ k)) = true := by simpa using hk
      rw [List.filter_cons_of_pos (by simpa using hf)]
      by_cases hb : k = b
      · subst b
        have : ¬(lo ≤ k ∧ k < lo + n) := by omega
        simp [get, this]
      · simp only [get, hb, if_false]
        exact ih
    · have hf : ¬((decide (k < lo) || decide (lo + n ≤ k)) = true) := by simpa using hk
      rw [List.filter_cons_of_neg (by simpa using hf), ih]
      by_cases hb : k = b
      · subst b
        have : lo ≤ k ∧ k < lo + n := by omega
        simp [this]
      · simp [get, hb]

theorem Memory.wf_tail {c : Host.Cell} {m : Memory} (h : wf (c :: m) = true) : wf m = true := by
  cases m with
  | nil => rfl
  | cons d rest =>
    simp only [wf, Bool.and_eq_true] at h
    exact h.2

/-- The canonical form says that every later address is larger. -/
theorem Memory.wf_iff_pairwise (m : Memory) : wf m = true ↔ m.Pairwise (fun c d => c.1 < d.1) := by
  induction m with
  | nil => simp [wf]
  | cons c rest ih =>
    cases rest with
    | nil => simp [wf]
    | cons d rest =>
      rw [List.pairwise_cons, ← ih]
      simp only [wf, Bool.and_eq_true, decide_eq_true_eq]
      constructor
      · rintro ⟨hcd, hw⟩
        refine ⟨fun e he => ?_, hw⟩
        rcases List.mem_cons.mp he with rfl | he
        · exact hcd
        · exact Nat.lt_trans hcd ((List.pairwise_cons.mp (ih.mp hw)).1 e he)
      · rintro ⟨hall, hw⟩
        exact ⟨hall d List.mem_cons_self, hw⟩

theorem Memory.mem_put {m : Memory} {a : Nat} {v : Byte} {c : Host.Cell} (h : c ∈ put m a v) : c = (a, v) ∨ c ∈ m := by
  induction m with
  | nil => simpa [put] using h
  | cons d rest ih =>
    obtain ⟨k, w⟩ := d
    unfold put at h
    split at h
    · simpa using h
    · split at h
      · rcases List.mem_cons.mp h with h | h
        · exact .inl h
        · exact .inr (List.mem_cons_of_mem _ h)
      · rcases List.mem_cons.mp h with h | h
        · exact .inr (h ▸ List.mem_cons_self)
        · rcases ih h with h | h
          · exact .inl h
          · exact .inr (List.mem_cons_of_mem _ h)

/-- A write keeps the canonical form. -/
theorem Memory.wf_put (m : Memory) (a : Nat) (v : Byte) (h : wf m = true) : wf (put m a v) = true := by
  rw [wf_iff_pairwise] at h ⊢
  induction m with
  | nil => simp [put]
  | cons d rest ih =>
    obtain ⟨k, w⟩ := d
    obtain ⟨h1, h2⟩ := List.pairwise_cons.mp h
    unfold put
    split
    · refine List.pairwise_cons.mpr ⟨fun c hc => ?_, h⟩
      rcases List.mem_cons.mp hc with rfl | hc
      · assumption
      · exact Nat.lt_trans ‹_› (h1 c hc)
    · split
      · subst a
        exact List.pairwise_cons.mpr ⟨h1, h2⟩
      · refine List.pairwise_cons.mpr ⟨fun c hc => ?_, ih h2⟩
        rcases mem_put hc with rfl | hc
        · show k < a
          omega
        · exact h1 c hc

theorem Memory.wf_putList (m : Memory) (a : Nat) (bytes : List Byte) (h : wf m = true) : wf (putList m a bytes) = true := by
  induction bytes generalizing m a with
  | nil => exact h
  | cons v vs ih => exact ih _ _ (wf_put m a v h)

theorem Memory.wf_forget (m : Memory) (lo n : Nat) (h : wf m = true) : wf (forget m lo n) = true := by
  rw [wf_iff_pairwise] at h ⊢
  exact h.filter _

/-- The addresses of a memory after a block of stores. -/
theorem Memory.mem_putList {m : Memory} {a : Nat} {bytes : List Byte} {c : Host.Cell} (h : c ∈ putList m a bytes) :
    (a ≤ c.1 ∧ c.1 < a + bytes.length) ∨ c ∈ m := by
  induction bytes generalizing m a with
  | nil => exact .inr h
  | cons v vs ih =>
    rcases ih h with h | h
    · exact .inl (by simp; omega)
    · rcases mem_put h with rfl | h
      · exact .inl (by simp)
      · exact .inr h

theorem Memory.mem_forget {m : Memory} {lo n : Nat} {c : Host.Cell} (h : c ∈ forget m lo n) : c ∈ m :=
  (List.mem_filter.mp h).1

/-- The reset memory has the canonical form. -/
theorem Memory.wf_reset : wf State.reset.mem = true := rfl

end

/-! ### What a buffer address reads as after each memory update -/

theorem bufByte_congr {s t : State} (hm : t.mem = s.mem) (h1 : t.txGen = s.txGen) (h2 : t.rxGen = s.rxGen)
    (h3 : t.atsGen = s.atsGen) (a : Nat) : t.bufByte a = s.bufByte a := by
  simp [State.bufByte, State.genAt, hm, h1, h2, h3]

/-- A block of stores changes just the bytes stored. -/
theorem bufByte_putList {s t : State} {lo : Nat} {bytes : List Byte} (hm : t.mem = Memory.putList s.mem lo bytes)
    (h1 : t.txGen = s.txGen) (h2 : t.rxGen = s.rxGen) (h3 : t.atsGen = s.atsGen) (a : Nat) :
    t.bufByte a = if lo ≤ a ∧ a < lo + bytes.length then bytes.getD (a - lo) 0 else s.bufByte a := by
  unfold State.bufByte State.genAt
  rw [hm, h1, h2, h3, Memory.get_putList]
  by_cases h : lo ≤ a ∧ a < lo + bytes.length
  · simp only [if_pos h]
  · simp only [if_neg h]

/-- A buffer that becomes unspecified and takes new bytes changes at no address outside it. -/
theorem bufByte_relanded {s t : State} {lo : Nat} {bytes : List Byte}
    (hm : t.mem = Memory.putList (Memory.forget s.mem lo Config.maxFrameLen) lo bytes)
    (hlen : bytes.length ≤ Config.maxFrameLen) (a : Nat) (hg : t.genAt a = s.genAt a)
    (ha : inRange a lo Config.maxFrameLen = false) : t.bufByte a = s.bufByte a := by
  have hout : ¬(lo ≤ a ∧ a < lo + Config.maxFrameLen) := by simpa [inRange] using ha
  have hout' : ¬(lo ≤ a ∧ a < lo + bytes.length) := by omega
  unfold State.bufByte
  rw [hm, hg, Memory.get_putList, if_neg hout', Memory.get_forget, if_neg hout]

/-- The bytes it takes are read back. -/
theorem bufByte_landed {s t : State} {lo : Nat} {bytes : List Byte}
    (hm : t.mem = Memory.putList (Memory.forget s.mem lo Config.maxFrameLen) lo bytes) (i : Nat) (hi : i < bytes.length) :
    t.bufByte (lo + i) = bytes.getD i 0 := by
  have hin : lo ≤ lo + i ∧ lo + i < lo + bytes.length := by omega
  unfold State.bufByte
  rw [hm, Memory.get_putList, if_pos hin]
  simp

theorem genAt_congr {s t : State} (h1 : t.txGen = s.txGen) (h2 : t.rxGen = s.rxGen) (h3 : t.atsGen = s.atsGen) (a : Nat) :
    t.genAt a = s.genAt a := by
  simp [State.genAt, h1, h2, h3]

theorem writeTx_bufByte (s : State) (i : Nat) (bytes : List Byte) (a : Nat) :
    (s.writeTx i bytes).bufByte a =
      if Config.txBase + i ≤ a ∧ a < Config.txBase + i + bytes.length then bytes.getD (a - (Config.txBase + i)) 0
      else s.bufByte a :=
  bufByte_putList (s := s) (t := s.writeTx i bytes) rfl rfl rfl rfl a

theorem putTxFrame_bufByte (s : State) (f : Frame) (a : Nat) :
    (s.putTxFrame f).bufByte a =
      if Config.txBase ≤ a ∧ a < Config.txBase + f.bytes.length then f.bytes.getD (a - Config.txBase) 0
      else s.bufByte a :=
  bufByte_putList (s := s) (t := s.putTxFrame f) rfl rfl rfl rfl a

theorem bufBytes_congr {s t : State} (h : ∀ a, t.bufByte a = s.bufByte a) (a n : Nat) : t.bufBytes a n = s.bufBytes a n := by
  induction n generalizing a with
  | zero => rfl
  | succ n ih => simp [State.bufBytes, h, ih]

@[simp] theorem bufBytes_length (s : State) (a n : Nat) : (s.bufBytes a n).length = n := by
  induction n generalizing a with
  | zero => rfl
  | succ n ih => simp [State.bufBytes, ih]

theorem bufBytes_getD (s : State) (a n i : Nat) (h : i < n) : (s.bufBytes a n).getD i 0 = s.bufByte (a + i) := by
  induction n generalizing a i with
  | zero => omega
  | succ n ih =>
    cases i with
    | zero => simp [State.bufBytes]
    | succ i =>
      simp only [State.bufBytes, List.getD_cons_succ]
      rw [ih (a + 1) i (by omega)]
      congr 1
      omega

end Sys2Proof.Machine
end

