-- ==== Sys2Proof/Laws/Ops.lean ====
section
/-! SUPPORT. What each shared operation can do, said once: the command handshake, the operand forms, the buffers, the transmit step
and the ways an exchange ends. -/

namespace Sys2Proof.Machine

/-! ### The command handshake -/

/-- A command that answers a next state was accepted while the block was idle, and its rule ran on the accepted state. -/
theorem issue_next {op : Byte} {rule : State → State} {s t : State} :
    issue op rule s = .next t ↔ s.busy = false ∧ t = rule (s.accept op) := by
  unfold issue
  cases s.busy <;> simp [eq_comm]

theorem issue_idle {op : Byte} {rule : State → State} {s : State} (h : s.busy = false) :
    issue op rule s = .next (rule (s.accept op)) := by simp [issue, h]

theorem issue_busy {op : Byte} {rule : State → State} {s : State} (h : s.busy = true) :
    issue op rule s = .refused .hostWriteWhileBusy := by simp [issue, h]

theorem raise_accept (s : State) (op : Byte) (e : ErrKind) : (s.accept op).raise e = ended op e s := rfl

theorem complete_accept (s : State) (op : Byte) : (s.accept op).complete = ended op .noError s := rfl

theorem beginRun_accept (s : State) (op : Byte) (job : Job) (d : Due) : (s.accept op).beginRun job d = begun op job d s := rfl

theorem raise_closed (s : State) (e : ErrKind) : s.raise e = closed e s := rfl

theorem complete_closed (s : State) : s.complete = closed s.err s := rfl

theorem clearTransaction_cleared (s : State) : s.clearTransaction = targetCleared s := rfl

/-! ### Operand forms -/

/-- A source depends on the buffers and the three lengths only. -/
theorem source_congr {s t : State} (hb : ∀ a, t.bufByte a = s.bufByte a) (h1 : t.txBits = s.txBits) (h2 : t.rxBits = s.rxBits)
    (h3 : t.atsLen = s.atsLen) (src : Byte) : source src t = source src s := by
  unfold source txFrame rxFrame atsFrame State.txBytes State.rxBytes State.atsBytes
  simp only [bufBytes_congr hb, h1, h2, h3]

@[simp] theorem bufByte_accept (s : State) (op : Byte) (a : Nat) : (s.accept op).bufByte a = s.bufByte a := rfl

@[simp] theorem bufBytes_accept (s : State) (op : Byte) (a n : Nat) : (s.accept op).bufBytes a n = s.bufBytes a n :=
  bufBytes_congr (s := s) (t := s.accept op) (fun _ => rfl) a n

@[simp] theorem source_accept (s : State) (op src : Byte) : source src (s.accept op) = source src s :=
  source_congr (s := s) (t := s.accept op) (fun _ => rfl) rfl rfl rfl src

@[simp] theorem sourceBytes_accept (s : State) (op src : Byte) : sourceBytes src (s.accept op) = sourceBytes src s := by
  unfold sourceBytes
  rw [source_accept]

@[simp] theorem txFrame_accept (s : State) (op : Byte) : txFrame (s.accept op) = txFrame s := by
  unfold txFrame State.txBytes
  rw [bufBytes_accept]
  rfl

/-- A source frame holds as many bytes as its bits need. -/
theorem source_shape {src : Byte} {s : State} {f : Frame} (h : source src s = some f) : f.bytes.length = ceil8 f.nbits := by
  unfold source at h
  split at h
  · cases h
    exact bufBytes_length ..
  · cases h
    exact bufBytes_length ..
  · cases h
    simp only [atsFrame, State.atsBytes, bufBytes_length, ceil8]
    omega
  · cases h

/-- A source above 2 names no frame (30_encoding.md R81). -/
theorem source_none {src : Byte} {s : State} : source src s = none ↔ 2 < src.toNat := by
  unfold source
  split
  · simp [*]
  · simp [*]
  · simp [*]
  · rename_i h0 h1 h2
    simp only [true_iff]
    have h0 : ¬src.toNat = 0 := h0
    have h1 : ¬src.toNat = 1 := h1
    have h2 : ¬src.toNat = 2 := h2
    omega

/-- The bytes of a frame of whole bytes within bounds. -/
theorem wholeBytes_some {f : Frame} {a : List Byte} :
    wholeBytes f = some a ↔ f.nbits ≤ 2112 ∧ f.nbits % 8 = 0 ∧ a = f.bytes := by
  unfold wholeBytes Config.maxFrameBits
  split
  · simp only [reduceCtorEq, false_iff]
    omega
  · simp only [Option.some.injEq]
    constructor
    · rintro rfl
      exact ⟨by omega, by omega, rfl⟩
    · exact fun h => h.2.2.symm

theorem wholeBytes_none {f : Frame} : wholeBytes f = none ↔ 2112 < f.nbits ∨ f.nbits % 8 ≠ 0 := by
  unfold wholeBytes Config.maxFrameBits
  split <;> simp [*]

/-- The bytes of a legal source: a frame of whole bytes within bounds. -/
theorem sourceBytes_some {src : Byte} {s : State} {a : List Byte} :
    sourceBytes src s = some a ↔ ∃ f, source src s = some f ∧ f.nbits ≤ 2112 ∧ f.nbits % 8 = 0 ∧ a = f.bytes := by
  unfold sourceBytes
  cases source src s with
  | none => simp
  | some f => simp [wholeBytes_some]

/-- An illegal source: none, too long, or with a partial byte. -/
theorem sourceBytes_none {src : Byte} {s : State} :
    sourceBytes src s = none ↔ 2 < src.toNat ∨ ∃ f, source src s = some f ∧ (2112 < f.nbits ∨ f.nbits % 8 ≠ 0) := by
  rw [← source_none (s := s)]
  unfold sourceBytes
  cases source src s with
  | none => simp
  | some f => simp [wholeBytes_none]

theorem levelOperand_none {lvl : Byte} : levelOperand lvl = none ↔ lvl.toNat = 0 ∨ 3 < lvl.toNat := by
  unfold levelOperand
  split
  · simp [*]
  · simp [*]
  · simp [*]
  · rename_i h0 h1 h2
    simp only [true_iff]
    have h0 : ¬lvl.toNat = 1 := h0
    have h1 : ¬lvl.toNat = 2 := h1
    have h2 : ¬lvl.toNat = 3 := h2
    omega

theorem levelOperand_some {lvl : Byte} {n : Level} : levelOperand lvl = some n ↔ lvl.toNat = levelNum n := by
  unfold levelOperand
  split <;> rename_i h <;> cases n <;> simp [levelNum, h] <;> omega

/-! ### A received frame -/

/-- The generation of an address outside `RXBUF` depends on the two other buffers only. -/
theorem genAt_outside_rx {s t : State} {a : Nat} (ha : inRange a 0x300 264 = false) (h1 : t.txGen = s.txGen)
    (h3 : t.atsGen = s.atsGen) : t.genAt a = s.genAt a := by
  have ha : inRange a Config.rxBase Config.maxFrameLen = false := ha
  unfold State.genAt
  rw [ha, h1, h3]
  simp

/-- Delivering a frame (`State.landRx`) lands it in `RXBUF` and touches no other buffer. -/
theorem landRx_lands {s t : State} {f : Frame} (h : t.mem = (s.landRx f).mem) (h1 : t.txGen = s.txGen) (h3 : t.atsGen = s.atsGen)
    (hl : f.bytes.length ≤ 264) : LandsRx s t f.bytes := by
  have hm : t.mem = Memory.putList (Memory.forget s.mem 0x300 264) 0x300 f.bytes := h
  refine ⟨fun i hi => ?_, fun a ha => ?_⟩
  · unfold State.bufByte
    rw [hm, Memory.get_putList]
    simp [hi, List.getD_eq_getElem?_getD]
  · unfold State.bufByte
    rw [genAt_outside_rx ha h1 h3]
    simp [inRange] at ha
    rw [hm, Memory.get_putList, Memory.get_forget, if_neg (by omega), if_neg (by omega)]

/-- Dropping what `RXBUF` holds (`State.dropRx`) touches no other buffer. -/
theorem dropRx_loses {s t : State} (h : t.mem = s.dropRx.mem) (h1 : t.txGen = s.txGen) (h3 : t.atsGen = s.atsGen) :
    LosesRx s t := by
  intro a ha
  have hm : t.mem = Memory.forget s.mem 0x300 264 := h
  unfold State.bufByte
  rw [genAt_outside_rx ha h1 h3]
  simp [inRange] at ha
  rw [hm, Memory.get_forget, if_neg (by omega)]

/-! ### The transmit step -/

/-- A frame row answers a next state exactly where it is the frame that is due. -/
theorem sendFrame_next {f : Frame} {s t : State} :
    sendFrame f s = .next t ↔ (∃ g, dueFrame s = some g ∧ frameLine g = frameLine f) ∧ t = sendDue s := by
  unfold sendFrame
  cases dueFrame s with
  | none => simp
  | some g =>
    simp only [Option.some.injEq, exists_eq_left']
    split
    · simp [*, eq_comm]
    · simp [*]

/-- What is due and what handing it over does, while the command is about to send. -/
theorem dueFrame_sends {s : State} {r : Run} {d : Due} (h : Sends s r d) : dueFrame s = some (frameFor r d s) := by
  obtain ⟨hr, hp⟩ := h
  obtain ⟨job, point, t, p⟩ := r
  simp only at hp
  subst hp
  simp [dueFrame, hr]

theorem sendDue_sends {s : State} {r : Run} {d : Due} (h : Sends s r d) :
    sendDue s = (prepareSend d (frameFor r d s) s).openExchange r d (frameFor r d s) := by
  obtain ⟨hr, hp⟩ := h
  obtain ⟨job, point, t, p⟩ := r
  simp only at hp
  subst hp
  simp [sendDue, hr]

/-- `State.openExchange` is the handing over of a line frame. -/
theorem openExchange_handed (s : State) (r : Run) (d : Due) (f : Frame) :
    s.openExchange r d f = handed r d (frameLine f) (rxCrcFor r d) s := rfl

/-- A frame is due exactly while the command is about to send. -/
theorem dueFrame_some {s : State} {g : Frame} (h : dueFrame s = some g) : ∃ r d, Sends s r d := by
  unfold dueFrame at h
  split at h <;> first | cases h; done | exact ⟨_, _, ‹_›, rfl⟩

/-! ### The end of an exchange -/

theorem endExchange_awaits {s : State} {r : Run} {d : Due} {x : Exchange} (h : Awaits s r d x) (o : XResult) :
    endExchange o s = finish r d o { s with xch := none } := by
  obtain ⟨hr, hp, -⟩ := h
  obtain ⟨job, point, t, p⟩ := r
  simp only at hp
  subst hp
  simp [endExchange, hr]

theorem waiting_awaits {s : State} {r : Run} {d : Due} {x : Exchange} (h : Awaits s r d x) : waiting s = true := by
  obtain ⟨hr, hp, hx⟩ := h
  obtain ⟨job, point, t, p⟩ := r
  simp only at hp
  subst hp
  simp [waiting, hr, hx]

theorem waiting_sends {s : State} {r : Run} {d : Due} (h : Sends s r d) : waiting s = false := by
  obtain ⟨hr, hp⟩ := h
  obtain ⟨job, point, t, p⟩ := r
  simp only at hp
  subst hp
  simp [waiting, hr]

/-- What the arrival of an answer can do. -/
theorem answerArrives_cases (a : Answer) (s : State) :
    answerArrives a s = s ∨ (s.abortReq = true ∧ answerArrives a s = takeAbort s)
      ∨ (∃ x, s.xch = some x ∧ answerArrives a s = endExchange (decodeAnswer x.rxCrc a) s)
      ∨ (∃ x, s.xch = some x ∧ answerArrives a s = endExchange (decodeAnswer x.rxCrc a) { s with fresh := s.fresh + 1 })
      ∨ (s.xch ≠ none ∧ answerArrives a s = endExchange (.err .timeout) { s with fresh := s.fresh + 1 }) := by
  unfold answerArrives
  split
  · exact .inl rfl
  · rename_i x hx
    split
    · exact .inl rfl
    · split
      · exact .inr (.inl ⟨‹_›, rfl⟩)
      · split
        · split
          · exact .inr (.inr (.inr (.inl ⟨x, hx, rfl⟩)))
          · exact .inr (.inr (.inr (.inr ⟨by simp [hx], rfl⟩)))
        · exact .inr (.inr (.inl ⟨x, hx, rfl⟩))

/-- What the end of a timeout can do. -/
theorem timeoutExpires_cases (s : State) :
    timeoutExpires s = s ∨ (s.abortReq = true ∧ timeoutExpires s = takeAbort s)
      ∨ (s.xch ≠ none ∧ timeoutExpires s = endExchange (.err .timeout) s) := by
  unfold timeoutExpires
  split
  · exact .inl rfl
  · rename_i x hx
    split
    · exact .inr (.inl ⟨‹_›, rfl⟩)
    · split
      · exact .inl rfl
      · exact .inr (.inr ⟨by simp [hx], rfl⟩)

/-- An answer under no abort and no poll timeout ends the exchange with what it decodes to. -/
theorem answerArrives_delivered {s : State} {x : Exchange} {a : Answer} (hx : s.xch = some x) (ha : a ≠ .line [])
    (habort : s.abortReq = false) (ht : x.timeout ≠ 0) : answerArrives a s = endExchange (decodeAnswer x.rxCrc a) s := by
  simp only [answerArrives, hx, habort, Bool.false_eq_true, if_false]
  rw [if_neg ha, if_neg ht]

theorem timeoutExpires_finite {s : State} {x : Exchange} (hx : s.xch = some x) (habort : s.abortReq = false)
    (ht : x.timeout ≠ 0xFFFF) : timeoutExpires s = endExchange (.err .timeout) s := by
  simp only [timeoutExpires, hx, habort, Bool.false_eq_true, if_false]
  exact if_neg ht

end Sys2Proof.Machine
end

