-- ==== Sys2Proof/Laws/Step.lean ====
section
/-! SUPPORT. What exec is for each instruction, and what one step can do (`step_move`): the provers cite this instead of unfolding the
step. -/

namespace Sys2Proof.Machine

/-! ### exec, by kind of instruction -/

theorem exec_nop (s : State) : exec .nop s = issue 0x00 State.complete s := rfl

theorem exec_initInitiator (s : State) : exec .initInitiator s = issue 0x01 initRule s := rfl

theorem exec_configure (option enabled : Byte) (s : State) :
    exec (.configure option enabled) s = issue 0x02 (configureRule option enabled) s := rfl

theorem exec_crcA (src : Byte) (s : State) : exec (.crcA src) s = issue 0x10 (crcRule Sys2Proof.Machine.crcA src) s := rfl

theorem exec_crcB (src : Byte) (s : State) : exec (.crcB src) s = issue 0x11 (crcRule Sys2Proof.Machine.crcB src) s := rfl

theorem exec_crcAAppend (s : State) : exec .crcAAppend s = issue 0x12 (crcAppendRule Sys2Proof.Machine.crcA) s := rfl

theorem exec_crcBAppend (s : State) : exec .crcBAppend s = issue 0x13 (crcAppendRule Sys2Proof.Machine.crcB) s := rfl

theorem exec_crcACheck (src : Byte) (s : State) :
    exec (.crcACheck src) s = issue 0x14 (crcCheckRule Sys2Proof.Machine.crcA src) s := rfl

theorem exec_crcBCheck (src : Byte) (s : State) :
    exec (.crcBCheck src) s = issue 0x15 (crcCheckRule Sys2Proof.Machine.crcB src) s := rfl

theorem exec_locateHist (src : Byte) (s : State) : exec (.locateHist src) s = issue 0x16 (locateHistRule src) s := rfl

theorem exec_buildReqa (s : State) : exec .buildReqa s = issue 0x20 (fun s => (s.putTxFrame reqaFrame).complete) s := rfl

theorem exec_buildWupa (variant : Byte) (s : State) :
    exec (.buildWupa variant) s = issue 0x21 (buildWupaRule variant) s := rfl

theorem exec_buildAnticoll (lvl : Byte) (s : State) :
    exec (.buildAnticoll lvl) s = issue 0x22 (buildAnticollRule lvl) s := rfl

theorem exec_buildSelect (lvl fromRx : Byte) (s : State) :
    exec (.buildSelect lvl fromRx) s = issue 0x23 (buildSelectRule lvl fromRx) s := rfl

theorem exec_buildHalt (s : State) : exec .buildHalt s = issue 0x24 (fun s => (s.putCrcFrame haltFrame).complete) s := rfl

theorem exec_buildRats (param : Byte) (s : State) :
    exec (.buildRats param) s = issue 0x25 (fun s => (s.putCrcFrame (ratsFrame param)).complete) s := rfl

theorem exec_bccCalc (s : State) : exec .bccCalc s = issue 0x26 bccCalcRule s := rfl

theorem exec_parseAnticoll (lvl src : Byte) (s : State) :
    exec (.parseAnticoll lvl src) s = issue 0x27 (parseAnticollRule lvl src) s := rfl

theorem exec_parseSak (src : Byte) (s : State) : exec (.parseSak src) s = issue 0x28 (parseSakRule src) s := rfl

theorem exec_assembleUid (levels : Byte) (s : State) :
    exec (.assembleUid levels) s = issue 0x29 (assembleUidRule levels) s := rfl

theorem exec_xcvBits (s : State) : exec .xcvBits s = issue 0x30 xcvBitsRule s := rfl

theorem exec_xcvBytes (s : State) : exec .xcvBytes s = issue 0x31 xcvBytesRule s := rfl

theorem exec_activate (wake : Byte) (s : State) : exec (.activate wake) s = issue 0x40 (activateRule wake) s := rfl

theorem exec_deselect (s : State) : exec .deselect s = issue 0x41 deselectRule s := rfl

theorem exec_poll (attempts period : Byte) (s : State) :
    exec (.poll attempts period) s = issue 0x42 (pollRule attempts) s := rfl

/-- A transmitted-frame row is the transmit step with its own frame. -/
theorem exec_transmit {i : Instr} (h : i.kind = .transmit) (s : State) : exec i s = sendFrame (encode i) s := by
  cases i <;> first | rfl | cases h

/-- A kind of instruction that arrives from the RF environment. -/
def receivedKind : FrameKind → Bool
  | .atqa | .anticollAnswer | .sakAnswer | .ratsAnswer => true
  | .hostCommand | .transmit => false

/-- A received-frame row is the arrival of its own line frame. -/
theorem exec_received {i : Instr} (h : receivedKind i.kind = true) (s : State) :
    exec i s = .next (answerArrives (.line (frameLine (encode i))) s) := by
  cases i <;> first | rfl | cases h

/-! ### What the decoder gives is of the kind asked for -/

theorem decodeOpcode_kind {op p0 p1 : Byte} {i : Instr} (h : decodeOpcode op p0 p1 = .instr i) : i.kind = .hostCommand := by
  unfold decodeOpcode at h
  split at h <;> first | (cases h; rfl) | cases h

theorem decode_kind {k : FrameKind} {f : Frame} {i : Instr} (h : decode k f = .instr i) : i.kind = k := by
  cases k with
  | hostCommand =>
    simp only [decode, decodeHostCommand] at h
    split at h
    · exact decodeOpcode_kind h
    · cases h
  | transmit =>
    simp only [decode, decodeTransmit] at h
    split at h
    · unfold decodeShortFrame at h
      split at h
      · cases h; rfl
      · split at h
        · cases h; rfl
        · split at h <;> cases h
          rfl
    · unfold decodeMagic at h
      split at h
      · cases h; rfl
      · split at h <;> cases h
        rfl
    · unfold decodeAnticoll at h
      split at h
      · split at h <;> cases h <;> rfl
      · cases h
    · unfold decodeHaltRats at h
      split at h
      · split at h
        · cases h; rfl
        · split at h <;> cases h
          rfl
      · cases h
    · unfold decodeSelect at h
      split at h
      · split at h
        · split at h <;> cases h <;> rfl
        · cases h
      · cases h
    · cases h
  | atqa =>
    simp only [decode, decodeAtqa] at h
    split at h <;> cases h
    rfl
  | anticollAnswer =>
    simp only [decode, decodeAnticollAnswer] at h
    split at h <;> cases h
    rfl
  | sakAnswer =>
    simp only [decode, decodeSakAnswer] at h
    split at h
    · split at h <;> cases h
      rfl
    · cases h
  | ratsAnswer =>
    simp only [decode, decodeRatsAnswer] at h
    split at h
    · split at h
      · split at h
        · cases h
        · split at h <;> cases h
          rfl
      · cases h
    · cases h

theorem decoded_toOption {d : Decoded} {i : Instr} (h : d.toOption = some i) : d = .instr i := by
  cases d <;> simp_all [Decoded.toOption]

/-- A line frame is read as a row of the kind that is awaited. -/
theorem receivedInstr_kind {s : State} {bits : LineBits} {i : Instr} (h : receivedInstr s bits = some i) :
    receivedKind i.kind = true := by
  unfold receivedInstr at h
  split at h
  · rename_i k f hk _
    rw [decode_kind (decoded_toOption h)]
    unfold awaitedKind at hk
    split at hk <;> first | (cases hk; rfl) | cases hk
  · cases h
  · cases h

/-! ### What one step can do -/

/-- The moves one step can make from `s`, the move itself already taken from the inbox. -/
inductive MoveOf (s : State) : State → Prop where
  | stutter : MoveOf s s
  | send (r : Run) (d : Due) (h : Sends s r d) : MoveOf s (sendDue s)
  | resume (r : Run) (h : s.run = some r) (hp : r.point = .pause) : MoveOf s (nextAttempt r s)
  | timeout : MoveOf s (timeoutExpires s)
  | answer (a : Answer) : MoveOf s (answerArrives a s)
  | answerAtTimeout (a : Answer) : MoveOf s (answerAtTimeout a s)
  | reset : MoveOf s s.clearAll
  | store (a : Nat) (v : Byte) (h : s.busy = false) : MoveOf s (storeByte a v s)
  | abortWrite : MoveOf s (writeAbort s)
  | read (v : Byte) (n : Nat) : MoveOf s { s with readData := some v, fresh := n }
  | undefined (op : Byte) (h : s.busy = false) : MoveOf s (ended op .commandNotSupported s)
  | command (i : Instr) (t : State) (hk : i.kind = .hostCommand) (h : exec i s = .next t) : MoveOf s t

theorem runDueFrame_move {s t : State} (h : runDueFrame s = .next t) : MoveOf s t := by
  unfold runDueFrame at h
  split at h
  · cases h
    exact .stutter
  · rename_i f hf
    obtain ⟨r, d, hs⟩ := dueFrame_some hf
    split at h
    · rename_i i hi
      rw [exec_transmit (decode_kind hi), sendFrame_next] at h
      rw [h.2]
      exact .send r d hs
    · cases h
      exact .send r d hs

theorem ownMove_move {s t : State} (h : ownMove s = .next t) : MoveOf s t := by
  unfold ownMove at h
  split at h
  · exact runDueFrame_move h
  · cases h
    exact .resume _ ‹_› rfl
  · cases h
    exact .stutter
  · cases h
    exact .stutter

theorem silentMove_move {s t : State} (h : silentMove s = .next t) : MoveOf s t := by
  unfold silentMove at h
  split at h
  · cases h
    exact .timeout
  · exact ownMove_move h
  · exact ownMove_move h
  · cases h
    exact .stutter

theorem answerMove_move {a : Answer} {s t : State} (h : answerMove a s = .next t) : MoveOf s t := by
  unfold answerMove at h
  split at h
  · split at h
    · rw [exec_received (receivedInstr_kind ‹_›)] at h
      cases h
      exact .answer _
    · cases h
      exact .answer _
  all_goals
    cases h
    exact .answer _

theorem issueCommand_move {op : Byte} {s t : State} (h : issueCommand op s = .next t) : MoveOf s t := by
  unfold issueCommand at h
  split at h
  · exact .command _ _ (decode_kind ‹_›) h
  · obtain ⟨hb, rfl⟩ := issue_next.mp h
    exact .undefined op hb

theorem hostWrites_move {a : Nat} {v : Byte} {s t : State} (h : hostWrites a v s = .next t) : MoveOf s t := by
  unfold hostWrites at h
  split at h
  · cases h
  · split at h
    · cases h
      exact .abortWrite
    · split at h
      · exact issueCommand_move h
      · split at h
        · cases h
        · cases h
          exact .store a v (by simpa using ‹¬s.busy = true›)

theorem hostReads_move {a : Nat} {s t : State} (h : hostReads a s = .next t) : MoveOf s t := by
  unfold hostReads at h
  split at h
  · cases h
  · split at h
    · cases h
      exact .read _ _
    · cases h
      exact .read _ s.fresh

theorem makeMove_move {m : Input} {s t : State} (h : makeMove m s = .next t) : MoveOf s t := by
  cases m with
  | hostWrite a v => exact hostWrites_move h
  | hostRead a => exact hostReads_move h
  | proceed => exact ownMove_move h
  | answer a => exact answerMove_move h
  | timeout =>
    cases h
    exact .timeout
  | answerAtTimeout a =>
    cases h
    exact .answerAtTimeout a
  | reset =>
    cases h
    exact .reset

/-- What one step can do: take a pending abort, or make one of the moves of `MoveOf` on the state whose inbox has been read. -/
theorem step_move {s t : State} (h : step s = .next t) :
    (s.abortReq = true ∧ waiting s = true ∧ t = takeAbort s) ∨ ∃ rest, MoveOf { s with inbox := rest } t := by
  unfold step nextMove at h
  split at h
  · rename_i hw
    simp only [Bool.and_eq_true] at hw
    cases h
    exact .inl ⟨hw.1.1, hw.1.2, rfl⟩
  · split at h
    · exact .inr ⟨s.inbox, silentMove_move h⟩
    · exact .inr ⟨_, makeMove_move h⟩

/-- The step when the next move is known and no abort is taken first. -/
theorem step_makeMove {s : State} {m : Input} {rest : List Input} (hi : s.inbox = m :: rest)
    (hw : (s.abortReq && waiting s) = false) : step s = makeMove m { s with inbox := rest } := by
  simp [step, nextMove, hw, hi]

theorem step_silent {s : State} (hi : s.inbox = []) (hw : (s.abortReq && waiting s) = false) : step s = silentMove s := by
  simp [step, nextMove, hw, hi]

theorem step_abort {s : State} (ha : s.abortReq = true) (hw : waiting s = true) (hr : resetNext s = false) :
    step s = .next (takeAbort s) := by
  simp [step, nextMove, ha, hw, hr]

/-- Hardware reset, in every state. -/
theorem step_reset {s : State} {rest : List Input} (hi : s.inbox = .reset :: rest) :
    step s = .next { s with inbox := rest }.clearAll := by
  simp [step, nextMove, makeMove, resetNext, hi]

/-! ### Runs -/

theorem run_zero (s : State) : Host.Core.run Sys2Proof.core 0 s = .next s := rfl

/-- A run whose first step is known goes on from the state after it. -/
theorem run_next {s t : State} (k : Nat) (h : step s = .next t) :
    Host.Core.run Sys2Proof.core (k + 1) s = Host.Core.run Sys2Proof.core k t := by
  have h' : Sys2Proof.core.step s = .next t := h
  simp only [Host.Core.run, h']

end Sys2Proof.Machine
end

