-- ==== Sys2Proof/Laws/Data.lean ====
section
/-! SUPPORT. The part of `Inv` that speaks of memory and of the data registers (`DataOk`), kept by each shared operation; and how `Inv`
is put together from it where a command has ended or goes on. -/

namespace Sys2Proof.Machine

/-- What `Inv` says of memory and of the data registers. -/
structure DataOk (s : State) : Prop where
  memWf : Memory.wf s.mem = true
  memMapped : ∀ c ∈ s.mem, bufferAddress c.1 = true
  rxBitsLegal : s.rxBits.toNat ≤ 2112
  atsLenLegal : s.atsLen.toNat ≤ 261
  uidLenLegal : s.uidLen = 0 ∨ s.uidLen = 4 ∨ s.uidLen = 7 ∨ s.uidLen = 10
  uidTail : ∀ i, s.uidLen.toNat ≤ i → s.uid.toList.getD i 0 = 0

theorem Inv.dataOk {s : State} (h : Inv s) : DataOk s :=
  ⟨h.memWf, h.memMapped, h.rxBitsLegal, h.atsLenLegal, h.uidLenLegal, h.uidTail⟩

/-- `DataOk` depends on six fields only. -/
theorem DataOk.congr {s t : State} (h : DataOk s) (h1 : t.mem = s.mem) (h2 : t.rxBits = s.rxBits) (h3 : t.atsLen = s.atsLen)
    (h4 : t.uidLen = s.uidLen) (h5 : t.uid = s.uid) : DataOk t :=
  ⟨h1 ▸ h.memWf, h1 ▸ h.memMapped, h2 ▸ h.rxBitsLegal, h3 ▸ h.atsLenLegal, h4 ▸ h.uidLenLegal, h5 ▸ h4 ▸ h.uidTail⟩

/-- A state in which no command is in progress is well formed if its data is. -/
theorem DataOk.inv_idle {s : State} (h : DataOk s) (hb : s.busy = false) (hr : s.run = none) (hx : s.xch = none)
    (ha : s.abortReq = false) : Inv s where
  memWf := h.memWf
  memMapped := h.memMapped
  notBusyDone := by simp [hb]
  busyRun := by simp [hb, hr]
  running := by simp [runConsistent, hr, hx]
  abortBusy := by simp [ha]
  noErrorBusy := by simp [hb]
  rxBitsLegal := h.rxBitsLegal
  atsLenLegal := h.atsLenLegal
  uidLenLegal := h.uidLenLegal
  uidTail := h.uidTail

/-- A state in which a command is in progress is well formed if its data is and its place is consistent. -/
theorem DataOk.inv_busy {s : State} (h : DataOk s) (hb : s.busy = true) (hd : s.done = false) (he : s.err = .noError)
    (hr : s.run.isSome = true) (hc : runConsistent s = true) : Inv s where
  memWf := h.memWf
  memMapped := h.memMapped
  notBusyDone := by simp [hd]
  busyRun := by simp [hb, hr]
  running := hc
  abortBusy := fun _ => hb
  noErrorBusy := fun _ => he
  rxBitsLegal := h.rxBitsLegal
  atsLenLegal := h.atsLenLegal
  uidLenLegal := h.uidLenLegal
  uidTail := h.uidTail

theorem DataOk.closed {s : State} (h : DataOk s) (e : ErrKind) : DataOk (closed e s) := h.congr rfl rfl rfl rfl rfl

/-- A command that has ended over good data leaves a well-formed state. -/
theorem DataOk.inv_closed {s : State} (h : DataOk s) (e : ErrKind) : Inv (Machine.closed e s) :=
  (h.closed e).inv_idle rfl rfl rfl rfl

theorem DataOk.accept {s : State} (h : DataOk s) (op : Byte) : DataOk (s.accept op) := h.congr rfl rfl rfl rfl rfl

/-- Stores inside one buffer keep memory good. -/
theorem DataOk.putList {s t : State} (h : DataOk s) (lo : Nat) (bytes : List Byte)
    (hm : t.mem = Memory.putList s.mem lo bytes) (hin : ∀ a, lo ≤ a → a < lo + bytes.length → bufferAddress a = true)
    (h2 : t.rxBits = s.rxBits) (h3 : t.atsLen = s.atsLen) (h4 : t.uidLen = s.uidLen) (h5 : t.uid = s.uid) : DataOk t where
  memWf := hm ▸ Memory.wf_putList _ _ _ h.memWf
  memMapped := fun c hc => by
    rw [hm] at hc
    rcases Memory.mem_putList hc with hc | hc
    · exact hin _ hc.1 hc.2
    · exact h.memMapped c hc
  rxBitsLegal := h2 ▸ h.rxBitsLegal
  atsLenLegal := h3 ▸ h.atsLenLegal
  uidLenLegal := h4 ▸ h.uidLenLegal
  uidTail := h5 ▸ h4 ▸ h.uidTail

theorem bufferAddress_tx {a : Nat} (h1 : 0x100 ≤ a) (h2 : a < 0x208) : bufferAddress a = true := by
  simp only [bufferAddress, inRange, Bool.or_eq_true, Bool.and_eq_true, decide_eq_true_eq]
  unfold Config.txBase Config.rxBase Config.atsBase Config.maxFrameLen
  omega

theorem bufferAddress_rx {a : Nat} (h1 : 0x300 ≤ a) (h2 : a < 0x408) : bufferAddress a = true := by
  simp only [bufferAddress, inRange, Bool.or_eq_true, Bool.and_eq_true, decide_eq_true_eq]
  unfold Config.txBase Config.rxBase Config.atsBase Config.maxFrameLen
  omega

theorem bufferAddress_ats {a : Nat} (h1 : 0x500 ≤ a) (h2 : a < 0x608) : bufferAddress a = true := by
  simp only [bufferAddress, inRange, Bool.or_eq_true, Bool.and_eq_true, decide_eq_true_eq]
  unfold Config.txBase Config.rxBase Config.atsBase Config.maxFrameLen
  omega

theorem DataOk.writeTx {s : State} (h : DataOk s) (i : Nat) (bytes : List Byte) (hl : i + bytes.length ≤ 264) :
    DataOk (s.writeTx i bytes) :=
  h.putList (Config.txBase + i) bytes rfl
    (fun a h1 h2 => bufferAddress_tx (by simp [Config.txBase] at h1; omega) (by simp [Config.txBase] at h2; omega))
    rfl rfl rfl rfl

theorem DataOk.putTxFrame {s : State} (h : DataOk s) (f : Frame) (hl : f.bytes.length ≤ 264) : DataOk (s.putTxFrame f) :=
  (h.writeTx 0 f.bytes (by omega)).congr rfl rfl rfl rfl rfl

theorem DataOk.putCrcFrame {s : State} (h : DataOk s) (f : Frame) (hl : f.bytes.length ≤ 264) : DataOk (s.putCrcFrame f) :=
  (h.putTxFrame f hl).congr rfl rfl rfl rfl rfl

/-- A buffer that becomes unspecified and takes a frame that fits keeps memory good. -/
theorem Memory.relanded_ok {m : Memory} {lo : Nat} {bytes : List Byte} (hw : Memory.wf m = true)
    (hm : ∀ c ∈ m, bufferAddress c.1 = true) (hin : ∀ a, lo ≤ a → a < lo + bytes.length → bufferAddress a = true) :
    Memory.wf (Memory.putList (Memory.forget m lo 264) lo bytes) = true
      ∧ ∀ c ∈ Memory.putList (Memory.forget m lo 264) lo bytes, bufferAddress c.1 = true := by
  refine ⟨Memory.wf_putList _ _ _ (Memory.wf_forget _ _ _ hw), fun c hc => ?_⟩
  rcases Memory.mem_putList hc with hc | hc
  · exact hin _ hc.1 hc.2
  · exact hm c (Memory.mem_forget hc)

theorem DataOk.landRx {s : State} (h : DataOk s) (f : Frame) (hs : f.bytes.length = ceil8 f.nbits)
    (hl : f.bytes.length ≤ 264) : DataOk (s.landRx f) := by
  have hm := Memory.relanded_ok (lo := 0x300) (bytes := f.bytes) h.memWf h.memMapped
    (fun a h1 h2 => bufferAddress_rx h1 (by omega))
  refine ⟨hm.1, hm.2, ?_, h.atsLenLegal, h.uidLenLegal, h.uidTail⟩
  show (BitVec.ofNat 16 f.nbits).toNat ≤ 2112
  rw [BitVec.toNat_ofNat]
  simp only [ceil8] at hs
  omega

theorem DataOk.dropRx {s : State} (h : DataOk s) : DataOk s.dropRx :=
  ⟨Memory.wf_forget _ _ _ h.memWf, fun c hc => h.memMapped c (Memory.mem_forget hc), Nat.zero_le _, h.atsLenLegal, h.uidLenLegal,
    h.uidTail⟩

theorem DataOk.landAts {s : State} (h : DataOk s) (ats : List Byte) (hl : ats.length ≤ 261) : DataOk (s.landAts ats) := by
  have hm := Memory.relanded_ok (lo := 0x500) (bytes := ats) h.memWf h.memMapped
    (fun a h1 h2 => bufferAddress_ats h1 (by omega))
  refine ⟨hm.1, hm.2, h.rxBitsLegal, ?_, h.uidLenLegal, h.uidTail⟩
  show (BitVec.ofNat 16 ats.length).toNat ≤ 261
  rw [BitVec.toNat_ofNat]
  omega

theorem zeros_getD (i : Nat) : (Vector.replicate 10 (0x00 : Byte)).toList.getD i 0 = 0 := by
  rw [show (Vector.replicate 10 (0x00 : Byte)).toList = List.replicate 10 0x00 from rfl, List.getD_eq_getElem?_getD,
    List.getElem?_replicate]
  split <;> rfl

theorem DataOk.clearTransaction {s : State} (h : DataOk s) : DataOk s.clearTransaction :=
  ⟨h.memWf, h.memMapped, Nat.zero_le _, Nat.zero_le _, .inl rfl, fun i _ => zeros_getD i⟩

/-- The length of an assembled UID (41_frame_codec.md R144). -/
theorem uidAssemble_length (raw : Vector Byte 12) (n : Level) : (uidAssemble raw n).length = 3 * (levelNum n - 1) + 4 := by
  cases n <;> rfl

/-- The entries of an assembled UID: its bytes, then zeros. -/
theorem uidFill_eq_map (u : List Byte) : (uidFill u).toList = (List.range 10).map fun i => u.getD i 0x00 := rfl

/-- An assembled UID, with zeros above its length. -/
theorem uidFill_toList (u : List Byte) (h : u.length ≤ 10) : (uidFill u).toList = u ++ List.replicate (10 - u.length) 0x00 := by
  rw [uidFill_eq_map]
  refine List.ext_getElem ?_ fun i h1 h2 => ?_
  · rw [List.length_map, List.length_range, List.length_append, List.length_replicate]
    omega
  · rw [List.getElem_map, List.getElem_range, List.getElem_append, List.getD_eq_getElem?_getD]
    split
    · rw [List.getElem?_eq_getElem ‹_›, Option.getD_some]
    · rw [List.getElem?_eq_none (by omega), Option.getD_none, List.getElem_replicate]

theorem DataOk.assembleUid {s : State} (h : DataOk s) (n : Level) : DataOk (s.assembleUid n) := by
  refine ⟨h.memWf, h.memMapped, h.rxBitsLegal, h.atsLenLegal, ?_, fun i hi => ?_⟩
  · cases n
    · exact .inr (.inl rfl)
    · exact .inr (.inr (.inl rfl))
    · exact .inr (.inr (.inr rfl))
  · have hlen := uidAssemble_length s.rawUid n
    have hle : (uidAssemble s.rawUid n).length ≤ i := by
      have hi : (BitVec.ofNat 8 (uidAssemble s.rawUid n).length).toNat ≤ i := hi
      rw [BitVec.toNat_ofNat] at hi
      cases n <;> simp [levelNum] at hlen <;> omega
    show (uidFill (uidAssemble s.rawUid n)).toList.getD i 0 = 0
    rw [uidFill_toList _ (by cases n <;> simp [levelNum] at hlen <;> omega), List.getD_eq_getElem?_getD,
      List.getElem?_append_right hle, List.getElem?_replicate]
    split <;> rfl

theorem DataOk.clearAll (s : State) : DataOk s.clearAll :=
  ⟨rfl, fun c hc => (by cases hc), Nat.zero_le _, Nat.zero_le _, .inl rfl, fun i _ => zeros_getD i⟩

theorem DataOk.storeByte {s : State} (h : DataOk s) (a : Nat) (v : Byte) : DataOk (storeByte a v s) := by
  unfold Machine.storeByte
  split
  all_goals first
    | exact h.congr rfl rfl rfl rfl rfl
    | skip
  split
  · rename_i hr
    have hr : Config.txBase ≤ a ∧ a < Config.txBase + Config.maxFrameLen := by simpa [inRange] using hr
    exact h.putList a [v] rfl
      (fun b h1 h2 => bufferAddress_tx (by simp [Config.txBase] at hr; omega)
        (by simp [Config.txBase, Config.maxFrameLen] at hr h2; omega)) rfl rfl rfl rfl
  · exact h

end Sys2Proof.Machine
end

