-- ==== Sys2Proof/Laws/Fields.lean ====
section
/-! SUPPORT. The bits and slices of the register arrays and flag bytes: `WARN`, `CFG`, `SAK`, `RAWUID`, `RAWBCC`, `UID`. -/

namespace Sys2Proof.Machine

/-- The bits of a byte given by at most eight flags. -/
theorem bitsToByte_bit (l : List Bool) (h : l.length ≤ 8) (k : Nat) (hk : k < 8) :
    (bitsToByte l).getLsbD k = l.getD k false := by
  induction l generalizing k with
  | nil => simp [bitsToByte]
  | cons x xs ih =>
    simp only [List.length_cons] at h
    cases k with
    | zero => cases x <;> simp [bitsToByte]
    | succ k =>
      simp only [bitsToByte, BitVec.getLsbD_or, BitVec.getLsbD_shiftLeft]
      rw [List.getD_cons_succ, ← ih (by omega) k (by omega)]
      have : (if x = true then (1 : Byte) else 0).getLsbD (k + 1) = false := by cases x <;> simp
      rw [this]
      simp [hk]

theorem warnByte_bit (w : Warn) (k : Nat) (hk : k < 8) :
    (warnByte w).getLsbD k = [w.bcc1, w.bcc2, w.bcc3, w.ct1, w.ct2].getD k false :=
  bitsToByte_bit _ (by simp) k hk

theorem cfgByte_bit (c : Cfg) (k : Nat) (hk : k < 8) :
    (cfgByte c).getLsbD k = [c.handleCrc, c.easyFraming, c.autoIso14443_4, c.infiniteSelect].getD k false :=
  bitsToByte_bit _ (by simp) k hk

/-- `Cascade` reads bit 2 (41_frame_codec.md R142). -/
theorem cascade_bit (sak : Byte) : cascade sak = sak.getLsbD 2 := by
  revert sak
  decide

/-- `AtsSupported` reads bit 5 (41_frame_codec.md R142). -/
theorem atsSupported_bit (sak : Byte) : atsSupported sak = sak.getLsbD 5 := by
  revert sak
  decide

/-- A warning bit of a level is the bit of `WARN` below the level's number (10_state.md R28). -/
theorem setBccWarn_bit (w : Warn) (n : Level) (v : Bool) (k : Nat) (hk : k < 8) :
    (warnByte (setBccWarn w n v)).getLsbD k = if k + 1 = levelNum n then v else (warnByte w).getLsbD k := by
  rw [warnByte_bit _ k hk, warnByte_bit _ k hk]
  match n, k with
  | .cl1, 0 | .cl1, 1 | .cl1, 2 | .cl1, 3 | .cl1, 4 => rfl
  | .cl2, 0 | .cl2, 1 | .cl2, 2 | .cl2, 3 | .cl2, 4 => rfl
  | .cl3, 0 | .cl3, 1 | .cl3, 2 | .cl3, 3 | .cl3, 4 => rfl
  | .cl1, k + 5 | .cl2, k + 5 | .cl3, k + 5 => simp [levelNum]

/-- A cascade-tag warning of level 1 or 2 is bit 3 or 4 of `WARN` (10_state.md R28). -/
theorem setCtWarn_bit (w : Warn) (n : Level) (hn : n ≠ .cl3) (k : Nat) (hk : k < 8) :
    (warnByte (setCtWarn w n)).getLsbD k = if k = 2 + levelNum n then true else (warnByte w).getLsbD k := by
  rw [warnByte_bit _ k hk, warnByte_bit _ k hk]
  match n, k with
  | .cl1, 0 | .cl1, 1 | .cl1, 2 | .cl1, 3 | .cl1, 4 => rfl
  | .cl2, 0 | .cl2, 1 | .cl2, 2 | .cl2, 3 | .cl2, 4 => rfl
  | .cl3, _ => exact absurd rfl hn
  | .cl1, k + 5 | .cl2, k + 5 => simp [levelNum]

/-- A vector of twelve is its twelve entries. -/
theorem vector12 (v : Vector Byte 12) :
    v = #v[v[0], v[1], v[2], v[3], v[4], v[5], v[6], v[7], v[8], v[9], v[10], v[11]] := by
  obtain ⟨⟨l⟩, hl⟩ := v
  match l, hl with
  | [_, _, _, _, _, _, _, _, _, _, _, _], _ => rfl

theorem vector3 (v : Vector Byte 3) : v = #v[v[0], v[1], v[2]] := by
  obtain ⟨⟨l⟩, hl⟩ := v
  match l, hl with
  | [_, _, _], _ => rfl

/-- A store to a level replaces its four entries of `RAWUID` (10_state.md R33). -/
theorem setRawPart_toList (raw : Vector Byte 12) (n : Level) (u0 u1 u2 u3 : Byte) : (setRawPart raw n u0 u1 u2 u3).toList =
    raw.toList.take (4 * (levelNum n - 1)) ++ [u0, u1, u2, u3] ++ raw.toList.drop (4 * levelNum n) := by
  rw [vector12 raw]
  cases n <;> rfl

/-- The slice of a level in `RAWUID` after a store to it; every other entry stays (10_state.md R33). -/
theorem setRawPart_getD (raw : Vector Byte 12) (n : Level) (u0 u1 u2 u3 : Byte) (k i : Nat) (hk : levelNum n = k + 1) :
    (setRawPart raw n u0 u1 u2 u3).toList.getD i 0 =
      if 4 * k ≤ i ∧ i < 4 * k + 4 then [u0, u1, u2, u3].getD (i - 4 * k) 0 else raw.toList.getD i 0 := by
  have hlt : k < 3 := by cases n <;> simp only [levelNum] at hk <;> omega
  have hlen : (raw.toList.take (4 * k)).length = 4 * k := by
    rw [List.length_take, Vector.length_toList]
    omega
  rw [setRawPart_toList, hk, Nat.add_sub_cancel]
  simp only [List.getD_eq_getElem?_getD]
  by_cases h1 : i < 4 * k
  · rw [if_neg (by omega), List.append_assoc, List.getElem?_append_left (by omega), List.getElem?_take_of_lt h1]
  · by_cases h2 : i < 4 * k + 4
    · rw [if_pos ⟨by omega, h2⟩, List.append_assoc, List.getElem?_append_right (by omega), hlen,
        List.getElem?_append_left (by show _ < 4; omega)]
    · have h4 : (raw.toList.take (4 * k) ++ [u0, u1, u2, u3]).length = 4 * k + 4 := by
        rw [List.length_append, hlen]
        rfl
      rw [if_neg (by omega), List.getElem?_append_right (by omega), h4, List.getElem?_drop]
      congr 2
      omega

/-- A store to a level replaces its entry of `RAWBCC` (10_state.md R33). -/
theorem setRawBcc_eq_set (v : Vector Byte 3) (n : Level) (b : Byte) :
    (setRawBcc v n b).toList = v.toList.set (levelNum n - 1) b := by
  rw [vector3 v]
  cases n <;> rfl

theorem setRawBcc_getD (v : Vector Byte 3) (n : Level) (b : Byte) (k i : Nat) (hk : levelNum n = k + 1) (hi : i < 3) :
    (setRawBcc v n b).toList.getD i 0 = if i = k then b else v.toList.getD i 0 := by
  rw [setRawBcc_eq_set, hk, Nat.add_sub_cancel]
  simp only [List.getD_eq_getElem?_getD]
  by_cases h : i = k
  · subst h
    rw [if_pos rfl, List.getElem?_set_self (by rw [Vector.length_toList]; exact hi)]
    rfl
  · rw [if_neg h, List.getElem?_set_ne (Ne.symm h)]

/-- The UID of a level as slices of `RAWUID` (41_frame_codec.md R144). -/
theorem uidAssemble_slices (raw : Vector Byte 12) (n : Level) : uidAssemble raw n = match n with
    | .cl1 => raw.toList.take 4
    | .cl2 => (raw.toList.drop 1).take 3 ++ (raw.toList.drop 4).take 4
    | .cl3 => (raw.toList.drop 1).take 3 ++ (raw.toList.drop 5).take 3 ++ (raw.toList.drop 8).take 4 := by
  rw [vector12 raw]
  cases n <;> rfl

/-- The first byte of a level as an entry of `RAWUID` (43_activation.md R204). -/
theorem rawFirst_getD (raw : Vector Byte 12) (n : Level) : rawFirst raw n = raw.toList.getD (4 * (levelNum n - 1)) 0 := by
  rw [vector12 raw]
  cases n <;> rfl

theorem rawPart_slice (raw : Vector Byte 12) (n : Level) :
    rawPart raw n = (raw.toList.drop (4 * (levelNum n - 1))).take 4 := by
  rw [vector12 raw]
  cases n <;> rfl

theorem rawBccAt_getD (v : Vector Byte 3) (n : Level) : rawBccAt v n = v.toList.getD (levelNum n - 1) 0 := by
  rw [vector3 v]
  cases n <;> rfl

end Sys2Proof.Machine
end

