-- ==== Sys2Proof/Laws/PerInstr.lean ====
section
/-! SUPPORT. Statements for all instructions, one lemma per constructor. `EncodeShape`: the encoder gives at least one bit, and as
many bytes as its bits need (00_scope.md R9). -/

namespace Sys2Proof.Laws.EncodeShape

open Sys2Proof Sys2Proof.Machine

/-- A frame has at least one bit and `ceil8` of its bits as bytes. -/
def HasShape (f : Frame) : Prop := 0 < f.nbits ∧ f.bytes.length = ceil8 f.nbits

/-- The encoding of an instruction has at least one bit and `ceil8` of its bits as bytes. -/
def Statement (i : Instr) : Prop := HasShape (encode i)

theorem shape_command (op p0 p1 : Byte) : HasShape (commandWord op p0 p1) := by simp [HasShape, commandWord, ceil8]

theorem shape_bytes (b : Byte) (bs : List Byte) : HasShape (byteFrame (b :: bs)) := by
  simp only [HasShape, byteFrame, List.length_cons, ceil8]
  omega

theorem nop : Statement .nop := shape_command _ _ _

theorem initInitiator : Statement .initInitiator := shape_command _ _ _

theorem configure (option enabled : Byte) : Statement (.configure option enabled) := shape_command _ _ _

theorem crcA (src : Byte) : Statement (.crcA src) := shape_command _ _ _

theorem crcB (src : Byte) : Statement (.crcB src) := shape_command _ _ _

theorem crcAAppend : Statement .crcAAppend := shape_command _ _ _

theorem crcBAppend : Statement .crcBAppend := shape_command _ _ _

theorem crcACheck (src : Byte) : Statement (.crcACheck src) := shape_command _ _ _

theorem crcBCheck (src : Byte) : Statement (.crcBCheck src) := shape_command _ _ _

theorem locateHist (src : Byte) : Statement (.locateHist src) := shape_command _ _ _

theorem buildReqa : Statement .buildReqa := shape_command _ _ _

theorem buildWupa (variant : Byte) : Statement (.buildWupa variant) := shape_command _ _ _

theorem buildAnticoll (lvl : Byte) : Statement (.buildAnticoll lvl) := shape_command _ _ _

theorem buildSelect (lvl fromRx : Byte) : Statement (.buildSelect lvl fromRx) := shape_command _ _ _

theorem buildHalt : Statement .buildHalt := shape_command _ _ _

theorem buildRats (param : Byte) : Statement (.buildRats param) := shape_command _ _ _

theorem bccCalc : Statement .bccCalc := shape_command _ _ _

theorem parseAnticoll (lvl src : Byte) : Statement (.parseAnticoll lvl src) := shape_command _ _ _

theorem parseSak (src : Byte) : Statement (.parseSak src) := shape_command _ _ _

theorem assembleUid (levels : Byte) : Statement (.assembleUid levels) := shape_command _ _ _

theorem xcvBits : Statement .xcvBits := shape_command _ _ _

theorem xcvBytes : Statement .xcvBytes := shape_command _ _ _

theorem activate (wake : Byte) : Statement (.activate wake) := shape_command _ _ _

theorem deselect : Statement .deselect := shape_command _ _ _

theorem poll (attempts period : Byte) : Statement (.poll attempts period) := shape_command _ _ _

theorem reqa : Statement .reqa := ⟨by decide, by decide⟩

theorem wupa : Statement .wupa := ⟨by decide, by decide⟩

theorem wake40 : Statement .wake40 := ⟨by decide, by decide⟩

theorem anticollCl1 : Statement .anticollCl1 := shape_bytes _ _

theorem anticollCl2 : Statement .anticollCl2 := shape_bytes _ _

theorem anticollCl3 : Statement .anticollCl3 := shape_bytes _ _

theorem selectCl1 (u0 u1 u2 u3 bcc : Byte) : Statement (.selectCl1 u0 u1 u2 u3 bcc) := shape_bytes _ _

theorem selectCl2 (u0 u1 u2 u3 bcc : Byte) : Statement (.selectCl2 u0 u1 u2 u3 bcc) := shape_bytes _ _

theorem selectCl3 (u0 u1 u2 u3 bcc : Byte) : Statement (.selectCl3 u0 u1 u2 u3 bcc) := shape_bytes _ _

theorem halt : Statement .halt := shape_bytes _ _

theorem rats (param : Byte) : Statement (.rats param) := shape_bytes _ _

theorem magic43 : Statement .magic43 := shape_bytes _ _

theorem magic41 : Statement .magic41 := shape_bytes _ _

theorem atqa (a0 a1 : Byte) : Statement (.atqa a0 a1) := shape_bytes _ _

theorem anticollAnswer (u0 u1 u2 u3 bcc : Byte) : Statement (.anticollAnswer u0 u1 u2 u3 bcc) := shape_bytes _ _

theorem sakAnswer (sak : Byte) : Statement (.sakAnswer sak) := shape_bytes _ _

theorem ratsAnswer (ats : List Byte) : Statement (.ratsAnswer ats) := shape_bytes _ _

end Sys2Proof.Laws.EncodeShape
end

