-- ==== Sys2Proof/Tests/Slice0.lean ====
section
/-! SUPPORT. Tests. Expected values come from spec/95_test_vectors.md (section named at each group) or are counted by hand from the
rule named. The last part shows, for each statement with hypotheses, a state and operands that meet them. -/

namespace Sys2Proof.Tests

open Sys2Proof Sys2Proof.Machine

/-- The outcome is a next state with a property. -/
def holds (o : Outcome) (p : State → Bool) : Bool :=
  match o with
  | .next t => p t
  | .fault _ => false
  | .refused _ => false

/-- Reset, then a frame in `TXBUF`. -/
def tx (nbits : Nat) (bytes : List Byte) : State := State.reset.putTxFrame ⟨bytes, nbits⟩

/-- Reset, then a frame in `RXBUF`. -/
def rx (nbits : Nat) (bytes : List Byte) : State := State.reset.landRx ⟨bytes, nbits⟩

/-- Reset, then bytes in `ATSBUF`. -/
def ats (bytes : List Byte) : State := State.reset.landAts bytes

/-- A command about to hand over the frame of an exchange, `TIMEOUT = 0064`. -/
def sending (job : Job) (d : Due) (s : State) : State := { s with busy := true, run := some ⟨job, .transmit d, 0x0064, 0x50⟩ }

/-- A command waiting for the outcome of an exchange, `TIMEOUT = 0064`. -/
def awaiting (job : Job) (d : Due) (rxCrc : Bool) (s : State) : State :=
  { s with busy := true, run := some ⟨job, .await d, 0x0064, 0x50⟩, xch := some ⟨[true], rxCrc, 0x0064⟩ }

/-- The line frame of whole bytes. -/
def ln (bytes : List Byte) : Answer := .line (frameLine (byteFrame bytes))

/-! ### WellFormed: what is ill formed is refused (30_encoding.md R81, R97) -/

theorem test_wf_rats_answer_too_long : (Instr.ratsAnswer (List.replicate 255 0)).wellFormed = false := by
  simp only [Instr.wellFormed, List.length_replicate]
  decide
theorem test_wf_rats_answer_longest : (Instr.ratsAnswer (List.replicate 254 0)).wellFormed = true := by
  simp only [Instr.wellFormed, List.length_replicate]
  decide
theorem test_params_configure_option : (Instr.configure 4 1).paramsLegal = false := by decide
theorem test_params_configure_enabled : (Instr.configure 1 2).paramsLegal = false := by decide
theorem test_params_crcA : (Instr.crcA 3).paramsLegal = false := by decide
theorem test_params_crcB : (Instr.crcB 3).paramsLegal = false := by decide
theorem test_params_crcACheck : (Instr.crcACheck 3).paramsLegal = false := by decide
theorem test_params_crcBCheck : (Instr.crcBCheck 3).paramsLegal = false := by decide
theorem test_params_locateHist : (Instr.locateHist 3).paramsLegal = false := by decide
theorem test_params_buildWupa : (Instr.buildWupa 2).paramsLegal = false := by decide
theorem test_params_buildAnticoll :
    (Instr.buildAnticoll 0).paramsLegal = false ∧ (Instr.buildAnticoll 4).paramsLegal = false := by decide
theorem test_params_buildSelect :
    (Instr.buildSelect 0 0).paramsLegal = false ∧ (Instr.buildSelect 1 2).paramsLegal = false := by decide
theorem test_params_parseAnticoll :
    (Instr.parseAnticoll 4 1).paramsLegal = false ∧ (Instr.parseAnticoll 1 3).paramsLegal = false := by decide
theorem test_params_parseSak : (Instr.parseSak 3).paramsLegal = false := by decide
theorem test_params_assembleUid : (Instr.assembleUid 0).paramsLegal = false := by decide
theorem test_params_activate : (Instr.activate 2).paramsLegal = false := by decide
theorem test_params_poll : (Instr.poll 0 1).paramsLegal = false := by decide

/-! ### Decode: a word of every instruction, written out from 30_encoding.md R80, R82 (24 bits: opcode, P0, P1) and R86 to R97 (bytes,
the first in bits 7..0; frames of 95_test_vectors.md sections 3 to 5) -/

theorem test_decode_nop : decodeTableWord 24 0x000000 = some .nop := by decide
theorem test_decode_initInitiator : decodeTableWord 24 0x010000 = some .initInitiator := by decide
theorem test_decode_configure : decodeTableWord 24 0x020001 = some (.configure 0x00 0x01) := by decide
theorem test_decode_crcA : decodeTableWord 24 0x100200 = some (.crcA 0x02) := by decide
theorem test_decode_crcB : decodeTableWord 24 0x110000 = some (.crcB 0x00) := by decide
theorem test_decode_crcAAppend : decodeTableWord 24 0x120000 = some .crcAAppend := by decide
theorem test_decode_crcBAppend : decodeTableWord 24 0x130000 = some .crcBAppend := by decide
theorem test_decode_crcACheck : decodeTableWord 24 0x140000 = some (.crcACheck 0x00) := by decide
theorem test_decode_crcBCheck : decodeTableWord 24 0x150100 = some (.crcBCheck 0x01) := by decide
theorem test_decode_locateHist : decodeTableWord 24 0x160200 = some (.locateHist 0x02) := by decide
theorem test_decode_buildReqa : decodeTableWord 24 0x200000 = some .buildReqa := by decide
theorem test_decode_buildWupa : decodeTableWord 24 0x210100 = some (.buildWupa 0x01) := by decide
theorem test_decode_buildAnticoll : decodeTableWord 24 0x220100 = some (.buildAnticoll 0x01) := by decide
theorem test_decode_buildSelect : decodeTableWord 24 0x230201 = some (.buildSelect 0x02 0x01) := by decide
theorem test_decode_buildHalt : decodeTableWord 24 0x240000 = some .buildHalt := by decide
theorem test_decode_buildRats : decodeTableWord 24 0x258000 = some (.buildRats 0x80) := by decide
theorem test_decode_bccCalc : decodeTableWord 24 0x260000 = some .bccCalc := by decide
theorem test_decode_parseAnticoll : decodeTableWord 24 0x270201 = some (.parseAnticoll 0x02 0x01) := by decide
theorem test_decode_parseSak : decodeTableWord 24 0x280101 = some (.parseSak 0x01) := by decide
theorem test_decode_assembleUid : decodeTableWord 24 0x290301 = some (.assembleUid 0x03) := by decide
theorem test_decode_xcvBits : decodeTableWord 24 0x300100 = some .xcvBits := by decide
theorem test_decode_xcvBytes : decodeTableWord 24 0x310001 = some .xcvBytes := by decide
theorem test_decode_activate : decodeTableWord 24 0x400100 = some (.activate 0x01) := by decide
theorem test_decode_deselect : decodeTableWord 24 0x410200 = some .deselect := by decide
theorem test_decode_poll : decodeTableWord 24 0x420301 = some (.poll 0x03 0x01) := by decide
theorem test_decode_undefined : decodeTableWord 24 0x7F0000 = none := by decide
theorem test_decode_reqa : decodeTableWord 7 0x26 = some .reqa ∧ decodeTableWord 8 0x26 = some .reqa := by decide
theorem test_decode_wupa : decodeTableWord 7 0x52 = some .wupa := by decide
theorem test_decode_wake40 : decodeTableWord 7 0x40 = some .wake40 := by decide
theorem test_decode_anticollCl1 : decodeTableWord 16 0x2093 = some .anticollCl1 := by decide
theorem test_decode_anticollCl2 : decodeTableWord 16 0x2095 = some .anticollCl2 := by decide
theorem test_decode_anticollCl3 : decodeTableWord 16 0x2097 = some .anticollCl3 := by decide
theorem test_decode_selectCl1 :
    decodeTableWord 72 0x47FB04332211047093 = some (.selectCl1 0x04 0x11 0x22 0x33 0x04) := by decide
theorem test_decode_selectCl2 :
    decodeTableWord 72 0xA3EC44665544337095 = some (.selectCl2 0x33 0x44 0x55 0x66 0x44) := by decide
theorem test_decode_selectCl3 :
    decodeTableWord 72 0x25CE00998877667097 = some (.selectCl3 0x66 0x77 0x88 0x99 0x00) := by decide
theorem test_decode_halt : decodeTableWord 32 0xCD570050 = some .halt := by decide
theorem test_decode_rats : decodeTableWord 32 0x733180E0 = some (.rats 0x80) := by decide
theorem test_decode_magic43 : decodeTableWord 8 0x43 = some .magic43 := by decide
theorem test_decode_magic41 : decodeTableWord 8 0x41 = some .magic41 := by decide
theorem test_decode_atqa : decodeTableWord 16 0x0044 = some (.atqa 0x44 0x00) := by decide
theorem test_decode_anticollAnswer :
    decodeTableWord 40 0xBF22110488 = some (.anticollAnswer 0x88 0x04 0x11 0x22 0xBF) := by decide
theorem test_decode_sakAnswer : decodeTableWord 24 0xDDB608 = some (.sakAnswer 0x08) := by decide
theorem test_decode_ratsAnswer :
    decodeTableWord 64 0xF002800281777506 = some (.ratsAnswer [0x75, 0x77, 0x81, 0x02, 0x80]) := by decide
theorem test_decode_bad_crc : decode .transmit ⟨[0x50, 0x00, 0x57, 0xCC], 32⟩ = .rejected .badCrc := by decide

/-! ### The CRC, the line coding, the small functions (95_test_vectors.md sections 2, 3, 4) -/

theorem test_crcA_digits : crcA [0x31, 0x32, 0x33, 0x34, 0x35, 0x36, 0x37, 0x38, 0x39] = 0xBF05 := by decide
theorem test_crcB_digits : crcB [0x31, 0x32, 0x33, 0x34, 0x35, 0x36, 0x37, 0x38, 0x39] = 0x906E := by decide
theorem test_crcA_empty : crcA [] = 0x6363 ∧ crcB [] = 0x0000 := by decide
theorem test_encode_short : lineEncode [0x26] 7 = [false, true, true, false, false, true, false] := by decide
theorem test_encode_0A_4 : lineEncode [0x0A] 4 = [false, true, false, true] := by decide
theorem test_encode_93_20 : lineEncode [0x93, 0x20] 16 =
    [true, true, false, false, true, false, false, true, true, false, false, false, false, false, true, false, false, false] := by
  decide
theorem test_decode_partial : lineDecode [false, false, true, false, false, false, false, false, false, false, true, false, true] =
    .ok ⟨[0x04, 0x0A], 12⟩ := by decide
theorem test_decode_parity : lineDecode [false, false, true, false, false, false, false, false, true] = .err .parityError := by decide
theorem test_decode_8_bits : lineDecode [false, false, true, false, false, false, false, false] = .err .bitCountError := by decide
theorem test_locate_75 : locateHistorical [0x75, 0x77, 0x81, 0x02, 0x80] = some (4, 1) := by decide
theorem test_locate_none :
    locateHistorical [] = none ∧ locateHistorical [0x75, 0x33, 0x92, 0x03] = none ∧ locateHistorical [0x10] = none := by decide

/-! ### One step of each instruction (95_test_vectors.md sections 2 to 5 and 7) -/

theorem test_nop : holds (exec .nop { State.reset with err := .crcMismatch }) (fun t => errCode t.err = 0 ∧ statusByte t = 0x02) := by
  decide
theorem test_initInitiator :
    holds (exec .initInitiator { State.reset with timeout := 0x64, asm := .activated, uidLen := 4, ratsParam := 0x80 })
      (fun t => t.timeout = 0 ∧ t.asm = .idle ∧ t.uidLen = 0 ∧ t.ratsParam = 0x50 ∧ t.cmd = 0x01 ∧ statusByte t = 0x02) := by decide
theorem test_configure :
    holds (exec (.configure 3 1) { State.reset with cfg := ⟨true, false, false, false⟩ }) (fun t => cfgByte t.cfg = 0x09) := by decide
theorem test_configure_bad : holds (exec (.configure 4 1) State.reset) (fun t => errCode t.err = 0x0B ∧ cfgByte t.cfg = 0) := by decide
theorem test_crcA : holds (exec (.crcA 0) (tx 16 [0x50, 0x00])) (fun t => t.crcRes = 0xCD57) := by decide
theorem test_crcA_partial : holds (exec (.crcA 0) (tx 7 [0x26])) (fun t => errCode t.err = 0x0B ∧ t.crcRes = 0) := by decide
theorem test_crcB : holds (exec (.crcB 0) (tx 24 [0x05, 0x00, 0x00])) (fun t => t.crcRes = 0xFF71) := by decide
theorem test_crcAAppend : holds (exec .crcAAppend (tx 16 [0xE0, 0x50]))
    (fun t => t.txBytes 0 4 = [0xE0, 0x50, 0xBC, 0xA5] ∧ t.txBits = 32 ∧ t.crcRes = 0xA5BC) := by decide
theorem test_crcBAppend : holds (exec .crcBAppend (tx 24 [0x05, 0x00, 0x00]))
    (fun t => t.txBytes 0 5 = [0x05, 0x00, 0x00, 0x71, 0xFF] ∧ t.txBits = 40) := by decide
theorem test_crcACheck : holds (exec (.crcACheck 0) (tx 32 [0x50, 0x00, 0x57, 0xCD])) (fun t => statusByte t = 0x0A) := by decide
theorem test_crcACheck_wrong :
    holds (exec (.crcACheck 0) (tx 32 [0x50, 0x00, 0x57, 0xCC])) (fun t => statusByte t = 0x02 ∧ t.crcRes = 0xCD57) := by decide
theorem test_crcBCheck :
    holds (exec (.crcBCheck 0) (tx 40 [0x05, 0x00, 0x00, 0x71, 0xFF])) (fun t => t.matched ∧ t.crcRes = 0xFF71) := by decide
theorem test_locateHist : holds (exec (.locateHist 2) (ats [0x35, 0x33, 0x92, 0x03]))
    (fun t => t.found ∧ t.hbOff = 3 ∧ t.hbLen = 1) := by decide
theorem test_buildReqa : holds (exec .buildReqa State.reset) (fun t => t.txByte 0 = 0x26 ∧ t.txBits = 7) := by decide
theorem test_buildWupa : holds (exec (.buildWupa 1) State.reset) (fun t => t.txByte 0 = 0x40 ∧ t.txBits = 7) := by decide
theorem test_buildAnticoll :
    holds (exec (.buildAnticoll 3) State.reset) (fun t => t.txBytes 0 2 = [0x97, 0x20] ∧ t.txBits = 16) := by decide
theorem test_buildSelect : holds (exec (.buildSelect 1 0) (tx 0 [0, 0, 0x04, 0x11, 0x22, 0x33, 0x05]))
    (fun t => t.txBytes 0 9 = [0x93, 0x70, 0x04, 0x11, 0x22, 0x33, 0x05, 0x72, 0x56] ∧ t.txBits = 72) := by decide
theorem test_buildSelect_rx : holds (exec (.buildSelect 2 1) (rx 40 [0x33, 0x44, 0x55, 0x66, 0x44]))
    (fun t => t.txBytes 0 9 = [0x95, 0x70, 0x33, 0x44, 0x55, 0x66, 0x44, 0xEC, 0xA3] ∧ t.crcRes = 0xA3EC) := by decide
theorem test_buildHalt :
    holds (exec .buildHalt State.reset) (fun t => t.txBytes 0 4 = [0x50, 0x00, 0x57, 0xCD] ∧ t.crcRes = 0xCD57) := by decide
theorem test_buildRats :
    holds (exec (.buildRats 0x80) State.reset) (fun t => t.txBytes 0 4 = [0xE0, 0x80, 0x31, 0x73] ∧ t.txBits = 32) := by decide
theorem test_bccCalc :
    holds (exec .bccCalc (tx 0 [0, 0, 0x88, 0x33, 0x44, 0x55])) (fun t => t.txByte 6 = 0xAA) := by decide
theorem test_parseAnticoll : holds (exec (.parseAnticoll 1 1) (rx 40 [0x88, 0x04, 0x11, 0x22, 0xBE]))
    (fun t => t.rawBcc[0] = 0xBE ∧ statusByte t = 0x22 ∧ warnByte t.warn = 0x01) := by decide
theorem test_parseAnticoll_39 :
    holds (exec (.parseAnticoll 1 1) (rx 39 [0x88, 0x04, 0x11, 0x22, 0x3F])) (fun t => errCode t.err = 0x0B) := by decide
theorem test_parseSak : holds (exec (.parseSak 1) (rx 8 [0x24])) (fun t => t.sak = 0x24 ∧ sakFlags t.sak = 0x03) := by decide
theorem test_assembleUid :
    holds (exec (.assembleUid 2) { State.reset with rawUid := #v[0x04, 0x11, 0x22, 0x33, 0x44, 0x55, 0x66, 0x77, 0, 0, 0, 0] })
      (fun t => t.uid.toList = [0x11, 0x22, 0x33, 0x44, 0x55, 0x66, 0x77, 0, 0, 0] ∧ t.uidLen = 7 ∧ warnByte t.warn = 0x08) := by decide
theorem test_xcvBits : holds (exec .xcvBits (tx 7 [0x26])) (fun t => statusByte t = 0x01 ∧ dueFrame t = some ⟨[0x26], 7⟩) := by decide
theorem test_xcvBits_empty : holds (exec .xcvBits (tx 0 [])) (fun t => errCode t.err = 0x0B) := by decide
theorem test_xcvBytes : holds (exec .xcvBytes { tx 16 [0x30, 0x04] with cfg := ⟨true, false, false, false⟩ })
    (fun t => dueFrame t = some ⟨[0x30, 0x04, 0x26, 0xEE], 32⟩) := by decide
theorem test_xcvBytes_partial : holds (exec .xcvBytes (tx 7 [0x26])) (fun t => errCode t.err = 0x0B) := by decide
theorem test_activate : holds (exec (.activate 1) { State.reset with warn := ⟨true, false, false, false, false⟩, uidLen := 4 })
    (fun t => t.busy ∧ t.uidLen = 0 ∧ warnByte t.warn = 0 ∧ dueFrame t = some wupaFrame) := by decide
theorem test_activate_bad :
    holds (exec (.activate 2) { State.reset with found := true, asm := .activated, uidLen := 4 })
      (fun t => errCode t.err = 0x0B ∧ t.asm = .activated ∧ t.uidLen = 4 ∧ t.found = false) := by decide
theorem test_deselect :
    holds (exec .deselect { State.reset with asm := .activated }) (fun t => t.busy ∧ dueFrame t = some haltFrame) := by decide
theorem test_deselect_reset : holds (exec .deselect State.reset) (fun t => statusByte t = 0x02 ∧ t.asm = .idle) := by decide
theorem test_poll : holds (exec (.poll 3 1) State.reset) (fun t => t.pollCnt = 1 ∧ dueFrame t = some reqaFrame) := by decide
theorem test_poll_0 : holds (exec (.poll 0 1) State.reset) (fun t => errCode t.err = 0x0B ∧ t.pollCnt = 0) := by decide

theorem test_reqa : holds (exec .reqa (sending (.activate false) .wake State.reset))
    (fun t => t.asm = .reqSent ∧ t.rfOut = [[false, true, true, false, false, true, false]] ∧ t.txBits = 7) := by decide
theorem test_reqa_not_due : exec .reqa State.reset = .refused .noFrameDue := rfl
theorem test_wupa : holds (exec .wupa (sending (.activate true) .wake State.reset))
    (fun t => t.asm = .reqSent ∧ t.rfOut = [[false, true, false, false, true, false, true]]) := by decide
theorem test_wake40 : holds (exec .wake40 (sending .xcvBits .raw (tx 7 [0xC0])))
    (fun t => t.rfOut = [[false, false, false, false, false, false, true]] ∧ t.asm = .idle) := by decide
theorem test_anticollCl1 : holds (exec .anticollCl1 (sending (.activate false) (.anticoll .cl1) State.reset))
    (fun t => asmCode t.asm = 0x02 ∧ clCode t.cl = 1 ∧ t.txBytes 0 2 = [0x93, 0x20] ∧ t.crcRes = 0) := by decide
theorem test_anticollCl2 : holds (exec .anticollCl2 (sending (.activate false) (.anticoll .cl2) State.reset))
    (fun t => asmCode t.asm = 0x04 ∧ clCode t.cl = 2 ∧ t.txBytes 0 2 = [0x95, 0x20]) := by decide
theorem test_anticollCl3 : holds (exec .anticollCl3 (sending (.activate false) (.anticoll .cl3) State.reset))
    (fun t => asmCode t.asm = 0x06 ∧ clCode t.cl = 3 ∧ t.txBytes 0 2 = [0x97, 0x20]) := by decide
theorem test_selectCl1 : holds (exec (.selectCl1 0x04 0x11 0x22 0x33 0x05) (sending (.activate false) (.select .cl1)
      { State.reset with rawUid := #v[0x04, 0x11, 0x22, 0x33, 0, 0, 0, 0, 0, 0, 0, 0], rawBcc := #v[0x05, 0, 0] }))
    (fun t => asmCode t.asm = 0x03 ∧ t.crcRes = 0x5672 ∧ t.txBits = 72) := by decide
theorem test_selectCl2 : holds (exec (.selectCl2 0x33 0x44 0x55 0x66 0x44) (sending (.activate false) (.select .cl2)
      { State.reset with rawUid := #v[0, 0, 0, 0, 0x33, 0x44, 0x55, 0x66, 0, 0, 0, 0], rawBcc := #v[0, 0x44, 0] }))
    (fun t => asmCode t.asm = 0x05 ∧ t.crcRes = 0xA3EC) := by decide
theorem test_selectCl3 : holds (exec (.selectCl3 0x66 0x77 0x88 0x99 0x00) (sending (.activate false) (.select .cl3)
      { State.reset with rawUid := #v[0, 0, 0, 0, 0, 0, 0, 0, 0x66, 0x77, 0x88, 0x99] }))
    (fun t => asmCode t.asm = 0x07 ∧ t.crcRes = 0x25CE) := by decide
theorem test_halt : holds (exec .halt (sending .deselect .halt { State.reset with asm := .activated }))
    (fun t => t.asm = .activated ∧ t.crcRes = 0xCD57 ∧ t.txBytes 0 4 = [0x50, 0x00, 0x57, 0xCD]) := by decide
theorem test_rats : holds (exec (.rats 0x50) (sending (.activate false) .rats State.reset))
    (fun t => t.asm = .ratsSent ∧ t.crcRes = 0xA5BC ∧ t.txBytes 0 4 = [0xE0, 0x50, 0xBC, 0xA5]) := by decide
theorem test_magic43 : holds (exec .magic43 (sending .xcvBits .raw (tx 8 [0x43])))
    (fun t => t.rfOut = [[true, true, false, false, false, false, true, false, false]]) := by decide
theorem test_magic41 : holds (exec .magic41 (sending .xcvBits .raw (tx 8 [0x41])))
    (fun t => t.rfOut = [[true, false, false, false, false, false, true, false, true]]) := by decide

theorem test_atqa : holds (exec (.atqa 0x44 0x00) (awaiting (.activate false) .wake false State.reset))
    (fun t => t.atqa0 = 0x44 ∧ t.atqa1 = 0x00 ∧ t.rxBits = 16 ∧ dueFrame t = some ⟨[0x93, 0x20], 16⟩) := by decide
theorem test_anticollAnswer :
    holds (exec (.anticollAnswer 0x04 0x11 0x22 0x33 0x05) (awaiting (.activate false) (.anticoll .cl1) false State.reset))
      (fun t => t.rawBcc[0] = 0x05 ∧ warnByte t.warn = 0x01
        ∧ dueFrame t = some ⟨[0x93, 0x70, 0x04, 0x11, 0x22, 0x33, 0x05, 0x72, 0x56], 72⟩) := by decide
theorem test_sakAnswer : holds (exec (.sakAnswer 0x08) (awaiting (.activate false) (.select .cl1) true
      { State.reset with rawUid := #v[0x04, 0x11, 0x22, 0x33, 0, 0, 0, 0, 0, 0, 0, 0] }))
    (fun t => statusByte t = 0x12 ∧ t.asm = .activated ∧ t.uidLen = 4 ∧ t.rxBits = 8) := by decide
theorem test_sakAnswer_level3 : holds (exec (.sakAnswer 0x04) (awaiting (.activate false) (.select .cl3) true State.reset))
    (fun t => errCode t.err = 0x0A ∧ t.sak = 0x04 ∧ t.uidLen = 0) := by decide
theorem test_ratsAnswer :
    holds (exec (.ratsAnswer [0x75, 0x77, 0x81, 0x02, 0x80]) (awaiting (.activate false) .rats true State.reset))
      (fun t => statusByte t = 0x12 ∧ t.atsLen = 5 ∧ t.atsBytes 5 = [0x75, 0x77, 0x81, 0x02, 0x80] ∧ t.rxBits = 48) := by decide

/-! ### One step that is not an instruction -/

/-- T12: a wrong length byte in the RATS answer. -/
theorem test_rats_wrong_length : holds (step { awaiting (.activate false) .rats true State.reset with
      inbox := [.answer (ln [0x05, 0x75, 0x77, 0x81, 0x02, 0x80, 0x7F, 0xFC])] })
    (fun t => errCode t.err = 0x0A ∧ t.atsLen = 0 ∧ t.rxBits = 48) := by decide
/-- T10: a collision at the wake-up is an error, not silence. -/
theorem test_collision_at_wake : holds (step { awaiting (.activate false) .wake false { State.reset with asm := .reqSent } with
      inbox := [.answer .bitCollision] })
    (fun t => errCode t.err = 0x06 ∧ asmCode t.asm = 0x01) := by decide
/-- T15: POLL pauses after silence while attempts are left. -/
theorem test_poll_pause : holds (step { awaiting (.poll 3) .wake false { State.reset with pollCnt := 1 } with inbox := [.timeout] })
    (fun t => t.busy ∧ asmCode t.asm = 0x0A ∧ t.xch = none) := by decide
/-- T17: an answer to the HALT of DESELECT. -/
theorem test_halt_answered : holds (step { awaiting .deselect .halt false { State.reset with asm := .activated, uidLen := 4 } with
      inbox := [.answer (ln [0x0A])] })
    (fun t => errCode t.err = 0x0A ∧ t.asm = .idle ∧ t.uidLen = 0 ∧ t.rxBits = 0) := by decide
/-- R280, U14: a reset in a wait with an abort pending; the frame already sent stays sent. -/
theorem test_reset_in_wait : holds (step { awaiting .xcvBits .raw false State.reset with
      crcRes := 0x0C97, abortReq := true, rfOut := [[true]], inbox := [.reset] })
    (fun t => statusByte t = 0x00 ∧ t.crcRes = 0x0000 ∧ t.rfOut = [[true]] ∧ t.inbox = []) := by decide
theorem test_undefined_opcode : holds (hostWrites 0x000 0x7F State.reset)
    (fun t => errCode t.err = 0x0C ∧ statusByte t = 0x06 ∧ t.cmd = 0x7F) := by decide
theorem test_write_while_busy : hostWrites 0x004 0x01 (sending .xcvBits .raw State.reset) = .refused .hostWriteWhileBusy := rfl
theorem test_address_too_high : hostWrites 0x800 0x00 State.reset = .fault .noSuchAddress := rfl
theorem test_fetch_command : holds (step (State.reset.withFetchWord 24 0x020301)) (fun t => cfgByte t.cfg = 0x08) := by decide
theorem test_fetch_frame : holds (step (State.reset.withFetchWord 16 0x2093)) (fun t => t.rfOut = [frameLine ⟨[0x93, 0x20], 16⟩]) := by
  decide
theorem test_fetch_answer : holds (step (State.reset.withFetchWord 24 0xDDB608)) (fun t => t.sak = 0x08) := by decide
theorem test_wait_over : waitOver { State.reset with readData := some 0x02 } = true := by decide

/-! ### Witnesses: for each statement with hypotheses, a state and operands that meet them, at the ends of each clause's range -/

/-- The idle state of the statements that ask for `BUSY = 0` only (NOP, INIT_INITIATOR, BUILD_HALT and the other templates, BCC_CALC,
DESELECT, the host reads). -/
theorem witness_idle : State.reset.busy = false ∧ State.reset.asm ≠ .activated := by decide
theorem witness_deselect_activated :
    ({ State.reset with asm := .activated } : State).busy = false ∧ ({ State.reset with asm := .activated } : State).asm = .activated := by
  decide
theorem witness_configure : (3 : Byte).toNat ≤ 3 ∧ (1 : Byte).toNat ≤ 1 ∧ (0 : Byte).toNat ≤ 3 ∧ (0 : Byte).toNat ≤ 1 := by decide
theorem witness_configure_rejects : 3 < (4 : Byte).toNat ∧ 1 < (2 : Byte).toNat := by decide
/-- A source above 2 (the CRC engine, PARSE_ANTICOLL, PARSE_SAK). -/
theorem witness_source_above : 2 < (3 : Byte).toNat ∧ 2 < (0xFF : Byte).toNat := by decide
/-- A source frame of whole bytes: two bytes (the CRC commands and the checks), none (both commands' n = 0), and an ATS (LOCATE_HIST,
both cases). -/
theorem witness_source_two : source 0 (tx 16 [0x63, 0x63]) = some ⟨[0x63, 0x63], 16⟩ ∧ (tx 16 [0x63, 0x63]).busy = false := by decide
theorem witness_source_empty : source 0 (tx 0 []) = some ⟨[], 0⟩ := by decide
theorem witness_source_one : source 1 (rx 8 [0x24]) = some ⟨[0x24], 8⟩ := by decide
theorem witness_source_hist : source 2 (ats [0x00, 0xAA]) = some ⟨[0x00, 0xAA], 16⟩ := by decide
theorem witness_source_no_hist : source 2 (ats [0x00]) = some ⟨[0x00], 8⟩ := by decide
/-- The longest legal source frame, and one bit and one byte more. -/
theorem witness_source_longest : (source 0 (tx 2112 [])).map Frame.nbits = some 2112 := by rfl
theorem witness_source_too_long : (source 0 (tx 2113 [])).map Frame.nbits = some 2113
    ∧ (source 0 (tx 2120 [])).map Frame.nbits = some 2120 := ⟨rfl, rfl⟩
theorem witness_source_partial : (source 0 (tx 7 [0x26])).map Frame.nbits = some 7 := by rfl
theorem witness_append : (tx 2096 []).txBits.toNat % 8 = 0 ∧ (tx 2096 []).txBits.toNat / 8 + 2 ≤ 264 ∧ (tx 0 []).txBits.toNat = 0 := by
  decide
theorem witness_append_full : (tx 2104 []).txBits.toNat % 8 = 0 ∧ (tx 2104 []).txBits.toNat ≤ 2112
    ∧ 264 < (tx 2104 []).txBits.toNat / 8 + 2 ∧ (tx 2112 []).txBits.toNat ≤ 2112 ∧ 264 < (tx 2112 []).txBits.toNat / 8 + 2 := by decide
theorem witness_append_rejects : 2112 < (tx 2113 []).txBits.toNat ∧ (tx 7 [0x26]).txBits.toNat % 8 ≠ 0 := by decide
theorem witness_append_then_check : (tx 0 []).txBits.toNat = 8 * 0 ∧ (tx 2096 []).txBits.toNat = 8 * 262 ∧ (tx 2096 []).busy = false := by
  decide
theorem witness_template_rejects : 1 < (2 : Byte).toNat ∧ (0 : Byte).toNat = 0 ∧ 3 < (4 : Byte).toNat := by decide
theorem witness_select : 1 ≤ (1 : Byte).toNat ∧ (3 : Byte).toNat ≤ 3
    ∧ (rx 40 [0x33, 0x44, 0x55, 0x66, 0x44]).rxBits.toNat = 40 ∧ (rx 40 [0x33, 0x44, 0x55, 0x66, 0x44]).busy = false := by decide
theorem witness_select_rejects : (rx 24 [0x08, 0xB6, 0xDD]).rxBits.toNat ≠ 40 ∧ 1 < (2 : Byte).toNat := by decide
theorem witness_parse_anticoll : source 1 (rx 40 [0x88, 0x04, 0x11, 0x22, 0xBF]) = some ⟨[0x88, 0x04, 0x11, 0x22, 0xBF], 40⟩
    ∧ (1 : Byte).toNat = 0 + 1 ∧ (3 : Byte).toNat = 2 + 1 := by decide
theorem witness_parse_rejects : source 1 (rx 24 [0x08, 0xB6, 0xDD]) = some ⟨[0x08, 0xB6, 0xDD], 24⟩ := by decide
theorem witness_assemble : 1 ≤ (1 : Byte).toNat ∧ (3 : Byte).toNat ≤ 3 ∧ ((0 : Byte).toNat = 0 ∧ 3 < (4 : Byte).toNat) := by decide
theorem witness_line_encode : ([] : List Byte).length = (0 + 7) / 8 ∧ [(0x26 : Byte)].length = (7 + 7) / 8
    ∧ [(0x93 : Byte), 0x20].length = (16 + 7) / 8 := by decide
/-- Lengths of line frames at the ends of the clauses of `LineDecode`: nine bits short of a group's parity, too long, and the longest. -/
theorem witness_line_decode_lengths : (List.replicate 8 false).length = 9 * 0 + 8 ∧ (List.replicate 2377 false).length = 9 * 264 + 1
    ∧ (List.replicate 2385 false).length = 9 * 265 + 0 ∧ (List.replicate 2376 false).length = 9 * 264 + 0
    ∧ (List.replicate 2374 false).length = 9 * 263 + 7 :=
  ⟨List.length_replicate, List.length_replicate, List.length_replicate, List.length_replicate, List.length_replicate⟩
theorem witness_line_decode_frame : [false, true, false, true].length = 9 * 0 + 4 ∧ [(0x0A : Byte)].length = 0 + 1
    ∧ ∀ k, k < 8 → ([(0x0A : Byte)].getD 0 0).getLsbD k = if k < 4 then [false, true, false, true].getD k false else false := by decide
theorem witness_line_frame : [(0x0A : Byte)].length = (4 + 7) / 8 ∧ 4 ≤ 2112
    ∧ ∀ k, 4 % 8 ≤ k → k < 8 → 4 % 8 ≠ 0 → ([(0x0A : Byte)].getD (4 / 8) 0).getLsbD k = false := by
  have h : ∀ k, k < 8 → 4 ≤ k → (0x0A : Byte).getLsbD k = false := by decide
  exact ⟨by decide, by decide, fun k h4 h8 _ => h k h8 h4⟩
/-- Line frames whose decoding a checked CRC turns into each outcome: partial byte, no byte, one byte, two bytes. -/
theorem witness_received_crc : lineDecode [false, true, false, true] = .ok ⟨[0x0A], 4⟩ ∧ lineDecode [] = .ok ⟨[], 0⟩
    ∧ lineDecode (frameLine ⟨[0x0A], 8⟩) = .ok ⟨[0x0A], 8⟩ ∧ lineDecode (frameLine ⟨[0x63, 0x63], 16⟩) = .ok ⟨[0x63, 0x63], 16⟩ := by decide
theorem witness_received_error : lineDecode [false, false, true, false, false, false, false, false] = .err .bitCountError := by decide
theorem witness_xcv_bits : 1 ≤ (tx 1 [0x01]).txBits.toNat ∧ (tx 2112 []).txBits.toNat ≤ 2112 ∧ (tx 1 [0x01]).busy = false := by decide
theorem witness_xcv_bytes : (tx 8 [0x43]).txBits.toNat = 8 * 1 ∧ (tx 2112 []).txBits.toNat = 8 * 264
    ∧ ({ tx 2096 [] with cfg := ⟨true, false, false, false⟩ } : State).txBits.toNat = 8 * 262 := by decide
theorem witness_xcv_bytes_small : ({ tx 2104 [] with cfg := ⟨true, false, false, false⟩ } : State).txBits.toNat = 8 * 263
    ∧ ({ tx 2104 [] with cfg := ⟨true, false, false, false⟩ } : State).cfg.handleCrc = true ∧ 264 < 263 + 2 := by decide
theorem witness_xcv_rejects : (tx 0 []).txBits.toNat = 0 ∧ 2112 < (tx 2113 []).txBits.toNat ∧ (tx 7 [0x26]).txBits.toNat % 8 ≠ 0 := by
  decide

/-- The run of `sending` and `awaiting`. -/
def runAt (job : Job) (p : Point) : Run := ⟨job, p, 0x0064, 0x50⟩

theorem witness_sends (job : Job) (d : Due) (s : State) : Sends (sending job d s) (runAt job (.transmit d)) d := ⟨rfl, rfl⟩
theorem witness_awaits (job : Job) (d : Due) (rxCrc : Bool) (s : State) :
    Awaits (awaiting job d rxCrc s) (runAt job (.await d)) d ⟨[true], rxCrc, 0x0064⟩ := ⟨rfl, rfl, rfl⟩
theorem witness_raw_frame : Sends (sending .xcvBits .raw (tx 16 [0x93, 0x20])) (runAt .xcvBits (.transmit .raw)) .raw
    ∧ frameLine (encode .anticollCl1) = frameLine (rawFrame .xcvBits (sending .xcvBits .raw (tx 16 [0x93, 0x20]))) := by
  exact ⟨⟨rfl, rfl⟩, by decide⟩
theorem witness_magic : (sending .xcvBits .raw (tx 7 [0xC0])).txBits = 7 ∧ (sending .xcvBits .raw (tx 7 [0xC0])).bufByte 0x100 &&& 0x7F = 0x40
    ∧ (sending .xcvBits .raw (tx 8 [0x43])).txBits = 8 ∧ (sending .xcvBits .raw (tx 8 [0x43])).bufByte 0x100 = 0x43
    ∧ (sending .xcvBits .raw (tx 8 [0x41])).bufByte 0x100 = 0x41 := by decide
theorem witness_handle_crc : Sends (sending (.xcvBytes true) .raw (tx 16 [0x30, 0x04])) (runAt (.xcvBytes true) (.transmit .raw)) .raw
    ∧ (sending (.xcvBytes true) .raw (tx 16 [0x30, 0x04])).inbox = []
    ∧ (sending (.xcvBytes true) .raw (tx 16 [0x30, 0x04])).txBits.toNat = 8 * 2 := ⟨⟨rfl, rfl⟩, rfl, rfl⟩
/-- A frame that ends mid-byte and is no row of the table, with a bit set above its last, under `proceed` and without it. -/
theorem witness_partial_frame : Sends (sending .xcvBits .raw (tx 4 [0xFA])) (runAt .xcvBits (.transmit .raw)) .raw
    ∧ (sending .xcvBits .raw (tx 4 [0xFA])).txBits = 4 ∧ (sending .xcvBits .raw (tx 4 [0xFA])).bufByte 0x100 &&& 0x0F = 0x0A
    ∧ (sending .xcvBits .raw (tx 4 [0xFA])).inbox = []
    ∧ ({ sending .xcvBits .raw (tx 4 [0xFA]) with inbox := [.proceed] } : State).inbox = .proceed :: [] :=
  ⟨⟨rfl, rfl⟩, rfl, by decide, rfl, rfl⟩
/-- `awaiting`, with a next move. -/
def awaitingMove (job : Job) (d : Due) (rxCrc : Bool) (m : Input) (s : State) : State :=
  { awaiting job d rxCrc s with inbox := [m] }

/-- What the statements about the end of an exchange ask for together, for a move and its outcome. -/
def Ends (job : Job) (d : Due) (rxCrc : Bool) (m : Input) (o : XResult) : Prop :=
  Awaits (awaitingMove job d rxCrc m State.reset) (runAt job (.await d)) d ⟨[true], rxCrc, 0x0064⟩
    ∧ (awaitingMove job d rxCrc m State.reset).abortReq = false ∧ (awaitingMove job d rxCrc m State.reset).inbox = [m]
    ∧ Delivers m ⟨[true], rxCrc, 0x0064⟩ o

theorem ends_answer {job : Job} {d : Due} {rxCrc : Bool} {a : Answer} {o : XResult} (h : decodeAnswer rxCrc a = o) (hne : a ≠ .line []) :
    Ends job d rxCrc (.answer a) o := ⟨⟨rfl, rfl, rfl⟩, rfl, rfl, .inl ⟨a, rfl, hne, (by decide : (0x0064 : Half) ≠ 0x0000), h⟩⟩

theorem ends_timeout {job : Job} {d : Due} {rxCrc : Bool} : Ends job d rxCrc .timeout (.err .timeout) :=
  ⟨⟨rfl, rfl, rfl⟩, rfl, rfl, .inr ⟨rfl, (by decide : (0x0064 : Half) ≠ 0xFFFF), rfl⟩⟩

/-- XcvEndsWithTheAnswer: a frame of whole bytes, a partial byte for each command, an error. -/
theorem witness_xcv_ends_whole : Ends .xcvBits .raw false (.answer (ln [0x04, 0x00])) (.ok ⟨[0x04, 0x00], 16⟩)
    ∧ Ends (.xcvBytes false) .raw false (.answer (ln [0x04, 0x00])) (.ok ⟨[0x04, 0x00], 16⟩)
    ∧ Ends (.xcvBytes true) .raw true (.answer (ln [0x63, 0x63])) (.ok ⟨[], 0⟩) :=
  ⟨ends_answer (by decide) (by decide), ends_answer (by decide) (by decide), ends_answer (by decide) (by decide)⟩
theorem witness_xcv_ends_partial : Ends .xcvBits .raw false (.answer (.line [false, true, false, true])) (.ok ⟨[0x0A], 4⟩)
    ∧ Ends (.xcvBytes false) .raw false (.answer (.line [false, true, false, true])) (.ok ⟨[0x0A], 4⟩) :=
  ⟨ends_answer (by decide) (by decide), ends_answer (by decide) (by decide)⟩
theorem witness_xcv_ends_error : Ends (.xcvBytes true) .raw true (.answer .bitCollision) (.err .bitCollision)
    ∧ Ends .xcvBits .raw false .timeout (.err .timeout) := ⟨ends_answer rfl (by decide), ends_timeout⟩
/-- DeselectHaltsAndForgetsTheTarget: silence of both kinds, another error, an answer. -/
theorem witness_deselect_ends : Ends .deselect .halt false .timeout (.err .timeout)
    ∧ Ends .deselect .halt false (.answer .rfTimeout) (.err .rfTimeout)
    ∧ Ends .deselect .halt false (.answer .ioError) (.err .ioError)
    ∧ Ends .deselect .halt false (.answer (ln [0x0A])) (.ok ⟨[0x0A], 8⟩) :=
  ⟨ends_timeout, ends_answer rfl (by decide), ends_answer rfl (by decide), ends_answer (by decide) (by decide)⟩
/-- SilenceAtWakeUpIsNoTag: ACTIVATE, POLL at its last attempt and before it. -/
theorem witness_wake_silence : Ends (.activate false) .wake false .timeout (.err .timeout)
    ∧ Ends (.poll 1) .wake false (.answer .rfTimeout) (.err .rfTimeout)
    ∧ State.reset.pollCnt.toNat < (1 : Byte).toNat ∧ (1 : Byte).toNat ≤ ({ State.reset with pollCnt := 1 } : State).pollCnt.toNat :=
  ⟨ends_timeout, ends_answer rfl (by decide), by decide, by decide⟩
/-- FailureFreezesTheSequencer: an error in each exchange, and malformed answers: too short an ATQA, anti-collision answer and SAK, an
empty RATS answer and one with a wrong length byte. -/
theorem witness_failure_error : Ends (.activate false) .wake false (.answer .bitCollision) (.err .bitCollision)
    ∧ Ends (.activate false) (.anticoll .cl2) false .timeout (.err .timeout)
    ∧ Ends (.poll 3) (.select .cl1) true (.answer (ln [0x08, 0xB6, 0xDC])) (.err .crcMismatch)
    ∧ Ends (.activate true) .rats true (.answer .rfTimeout) (.err .rfTimeout) :=
  ⟨ends_answer rfl (by decide), ends_timeout, ends_answer (by decide) (by decide), ends_answer rfl (by decide)⟩
theorem witness_failure_malformed : Ends (.activate false) .wake false (.answer (ln [0x04])) (.ok ⟨[0x04], 8⟩)
    ∧ Ends (.activate false) (.anticoll .cl1) false (.answer (ln [0x04, 0x00])) (.ok ⟨[0x04, 0x00], 16⟩)
    ∧ Ends (.activate false) (.select .cl1) true (.answer (ln [0x63, 0x63])) (.ok ⟨[], 0⟩)
    ∧ Ends (.activate false) .rats true (.answer (ln [0x63, 0x63])) (.ok ⟨[], 0⟩)
    ∧ Ends (.activate false) .rats true (.answer (ln [0x05, 0x75, 0x77, 0x81, 0x02, 0x80, 0x7F, 0xFC]))
        (.ok ⟨[0x05, 0x75, 0x77, 0x81, 0x02, 0x80], 48⟩) :=
  ⟨ends_answer (by decide) (by decide), ends_answer (by decide) (by decide), ends_answer (by decide) (by decide),
    ends_answer (by decide) (by decide), ends_answer (by decide) (by decide)⟩
theorem witness_activate : (1 : Byte).toNat ≤ 1 ∧ 1 < (2 : Byte).toNat := by decide
theorem witness_poll : 1 ≤ (1 : Byte).toNat ∧ (0 : Byte).toNat = 0 := by decide
/-- CascadeFramesAreSent: the SELECT confirm of level 3 carries what stands in its slices. -/
theorem witness_select_slices : ∃ s : State, Sends s (runAt (.activate false) (.transmit (.select .cl3))) (.select .cl3)
    ∧ [0x66, 0x77, 0x88, 0x99] = (s.rawUid.toList.drop (4 * (levelNum .cl3 - 1))).take 4
    ∧ (0x01 : Byte) = s.rawBcc.toList.getD (levelNum .cl3 - 1) 0 :=
  ⟨sending (.activate false) (.select .cl3)
    { State.reset with rawUid := #v[0, 0, 0, 0, 0, 0, 0, 0, 0x66, 0x77, 0x88, 0x99], rawBcc := #v[0, 0, 0x01] }, ⟨rfl, rfl⟩, rfl, rfl⟩
theorem witness_frame_not_due : dueFrame State.reset = none ∧ Instr.kind .reqa = .transmit := by decide
theorem witness_frame_due : dueFrame (sending .deselect .halt State.reset) = some haltFrame := by decide
/-- AtqaIsStored, AnticollAnswerIsStored, CascadeSakLeadsToTheNextLevel, FinalSakAssemblesTheUid, RatsAnswerIsCaptured: the exchange
that awaits the row. -/
theorem witness_row_awaited (job : Job) (d : Due) (rxCrc : Bool) :
    Awaits (awaiting job d rxCrc State.reset) (runAt job (.await d)) d ⟨[true], rxCrc, 0x0064⟩
      ∧ (awaiting job d rxCrc State.reset).abortReq = false ∧ (⟨[true], rxCrc, 0x0064⟩ : Exchange).timeout ≠ 0x0000
      ∧ (⟨[true], rxCrc, 0x0064⟩ : Exchange).rxCrc = rxCrc := ⟨⟨rfl, rfl, rfl⟩, rfl, (by decide : (0x0064 : Half) ≠ 0x0000), rfl⟩
theorem witness_levels : levelNum .cl1 = 0 + 1 ∧ levelNum .cl3 = 2 + 1 ∧ levelNum .cl2 = levelNum .cl1 + 1
    ∧ levelNum .cl3 = levelNum .cl2 + 1 := by decide
theorem witness_sak_bits : (0x04 : Byte).getLsbD 2 = true ∧ (0x20 : Byte).getLsbD 2 = false ∧ (0x20 : Byte).getLsbD 5 = true
    ∧ (0x08 : Byte).getLsbD 2 = false ∧ (0x08 : Byte).getLsbD 5 = false := by decide
theorem witness_ats_lengths : ([] : List Byte).length ≤ 254 ∧ (List.replicate 254 (0x00 : Byte)).length ≤ 254 :=
  ⟨by decide, Nat.le_of_eq List.length_replicate⟩
/-- POLL's last attempt, one before it, and its pause. -/
theorem witness_poll_attempts : (3 : Byte).toNat ≤ (3 : Byte).toNat ∧ (2 : Byte).toNat < (3 : Byte).toNat := by decide
theorem witness_pause : ∃ s : State, s.run = some (runAt (.poll 3) .pause) ∧ (runAt (.poll 3) .pause).point = .pause ∧ s.abortReq = false
    ∧ s.xch = none ∧ s.inbox = [.proceed] :=
  ⟨{ State.reset with busy := true, run := some (runAt (.poll 3) .pause), inbox := [.proceed] }, rfl, rfl, rfl, rfl, rfl⟩
theorem witness_pause_aborted : ∃ s : State, s.run = some (runAt (.poll 3) .pause) ∧ (runAt (.poll 3) .pause).point = .pause
    ∧ s.xch = none ∧ s.abortReq = true :=
  ⟨{ State.reset with busy := true, run := some (runAt (.poll 3) .pause), abortReq := true }, rfl, rfl, rfl, rfl⟩
theorem witness_late_answer : ∃ s : State, s.xch = none ∧ s.inbox = .answer (ln [0x0A]) :: [] ∧ (s.abortReq = true → waiting s = false) :=
  ⟨{ State.reset with inbox := [.answer (ln [0x0A])] }, rfl, rfl, fun h => (by cases h)⟩
theorem witness_abort : ({ awaiting .deselect .halt false State.reset with abortReq := true } : State).abortReq = true
    ∧ Awaits { awaiting .deselect .halt false State.reset with abortReq := true } (runAt .deselect (.await .halt)) .halt
        ⟨[true], false, 0x0064⟩
    ∧ ∀ rest, ({ awaiting .deselect .halt false State.reset with abortReq := true } : State).inbox ≠ .reset :: rest :=
  ⟨rfl, ⟨rfl, rfl, rfl⟩, fun _ h => (by cases h)⟩
/-- HardwareResetAtAnyMoment: a reset while a command waits and an abort is pending. -/
theorem witness_reset : ∃ s : State, s.inbox = .reset :: [] ∧ s.busy = true ∧ s.abortReq = true ∧ waiting s = true :=
  ⟨{ awaiting .xcvBits .raw false State.reset with abortReq := true, inbox := [.reset] }, rfl, rfl, rfl, by decide⟩
/-- A read while a command executes: an address beside `STATUS`, and the last one. -/
theorem witness_busy_read : (sending .xcvBits .raw State.reset).busy = true ∧ (0x7FF : Nat) < 2048 ∧ (0x7FF : Nat) ≠ 0x001
    ∧ (0x002 : Nat) ≠ 0x001 := by decide
theorem witness_busy_write : (sending .xcvBits .raw State.reset).busy = true ∧ (0x7FF : Nat) < 2048 ∧ (0x7FF : Nat) ≠ 0x00F
    ∧ (0x000 : Nat) ≠ 0x00F := by decide
theorem witness_poll_timeout : ∃ s : State, s.xch = some ⟨[true], false, 0x0000⟩ ∧ (⟨[true], false, 0x0000⟩ : Exchange).timeout = 0x0000
    ∧ s.abortReq = false ∧ ln [0x04, 0x00] ≠ .line [] ∧ s.inbox = .answer (ln [0x04, 0x00]) :: [] :=
  ⟨{ State.reset with xch := some ⟨[true], false, 0x0000⟩, inbox := [.answer (ln [0x04, 0x00])] }, rfl, rfl, rfl, by decide, rfl⟩
/-- CoincidencesAreFreeChoices: an answer at the end of a finite timeout, and with the "forever" sentinel. -/
theorem witness_coincidence (timeout : Half) : ∃ s : State, s.xch = some ⟨[true], false, timeout⟩ ∧ s.abortReq = false
    ∧ ln [0x04, 0x00] ≠ .line [] ∧ s.inbox = .answerAtTimeout (ln [0x04, 0x00]) :: []
    ∧ (0x0064 : Half) ≠ 0x0000 ∧ (0x0064 : Half) ≠ 0xFFFF :=
  ⟨{ State.reset with xch := some ⟨[true], false, timeout⟩, inbox := [.answerAtTimeout (ln [0x04, 0x00])] }, rfl, rfl, by decide, rfl,
    by decide, by decide⟩
theorem witness_silence : Awaits (awaiting (.activate false) .wake false State.reset) (runAt (.activate false) (.await .wake)) .wake
      ⟨[true], false, 0x0064⟩ ∧ (awaiting (.activate false) .wake false State.reset).abortReq = false
    ∧ (awaiting (.activate false) .wake false State.reset).inbox = [] ∧ (0x0064 : Half) ≠ 0xFFFF := ⟨⟨rfl, rfl, rfl⟩, rfl, rfl, by decide⟩
theorem witness_forever : ∃ s : State, Awaits s (runAt .xcvBits (.await .raw)) .raw ⟨[true], false, 0xFFFF⟩ ∧ s.abortReq = false ∧ s.inbox = [] :=
  ⟨{ State.reset with run := some (runAt .xcvBits (.await .raw)), xch := some ⟨[true], false, 0xFFFF⟩ }, ⟨rfl, rfl, rfl⟩, rfl, rfl⟩
theorem witness_step_command : ∃ s : State, s.inbox = .hostWrite 0x000 0x40 :: [] ∧ (s.abortReq && waiting s) = false
    ∧ decode .hostCommand (commandWord 0x40 s.p0 s.p1) = .instr (.activate 0) :=
  ⟨{ State.reset with inbox := [.hostWrite 0x000 0x40] }, rfl, rfl, by decide⟩
theorem witness_step_frame : ∃ s : State, s.inbox = [] ∧ Sends s (runAt (.activate false) (.transmit .wake)) .wake
    ∧ dueFrame s = some reqaFrame ∧ decode .transmit reqaFrame = .instr .reqa :=
  ⟨sending (.activate false) .wake State.reset, rfl, ⟨rfl, rfl⟩, rfl, by decide⟩
theorem witness_step_answer : ∃ s : State, s.inbox = .answer (.line (frameLine ⟨[0x04, 0x00], 16⟩)) :: [] ∧ (s.abortReq && waiting s) = false
    ∧ awaitedKind s = some .atqa ∧ lineDecode (frameLine ⟨[0x04, 0x00], 16⟩) = .ok ⟨[0x04, 0x00], 16⟩
    ∧ decode .atqa ⟨[0x04, 0x00], 16⟩ = .instr (.atqa 0x04 0x00) :=
  ⟨awaitingMove (.activate false) .wake false (.answer (.line (frameLine ⟨[0x04, 0x00], 16⟩))) State.reset, rfl, rfl, rfl, by decide, by decide⟩
theorem witness_undefined : 0x03 ≤ (0x03 : Byte).toNat ∧ (0x0F : Byte).toNat ≤ 0x0F ∧ 0x17 ≤ (0x17 : Byte).toNat ∧ (0x1F : Byte).toNat ≤ 0x1F
    ∧ 0x2A ≤ (0x2A : Byte).toNat ∧ (0x2F : Byte).toNat ≤ 0x2F ∧ 0x32 ≤ (0x32 : Byte).toNat ∧ (0x3F : Byte).toNat ≤ 0x3F
    ∧ 0x43 ≤ (0x43 : Byte).toNat ∧ 0x43 ≤ (0xFF : Byte).toNat := by decide
theorem witness_host_read : (ats [0x75]).busy = false ∧ 0 < (ats [0x75]).atsLen.toNat ∧ 0 < ((rx 8 [0x24]).rxBits.toNat + 7) / 8 := by decide
theorem witness_host_write : State.reset.busy = false ∧ (0x207 : Nat) < 2048 ∧ (0x207 : Nat) ≠ 0x000 ∧ 0x100 ≤ 0x207 ∧ 0x207 < 0x208
    ∧ ¬(0x208 = 0x004 ∨ (0x100 ≤ 0x208 ∧ 0x208 < 0x208)) := by decide
theorem witness_tx_frame : ∃ s : State, s.busy = false ∧ s.abortReq = false ∧ [(0xE0 : Byte), 0x50].length ≤ 264 ∧ 16 < 65536
    ∧ s.inbox = expand (.txFrame [0xE0, 0x50] 16) ++ [.hostRead 0x001] :=
  ⟨{ State.reset with inbox := expand (.txFrame [0xE0, 0x50] 16) ++ [.hostRead 0x001] }, rfl, rfl, by decide, by decide, rfl⟩
theorem witness_well_formed : (Instr.ratsAnswer [0x75]).wellFormed = true ∧ (Instr.sakAnswer 0x08).wellFormed = true := by decide
theorem witness_received_instr : receivedInstr (awaiting (.activate false) .wake false State.reset) (frameLine ⟨[0x04, 0x00], 16⟩)
    = some (.atqa 0x04 0x00) := by decide
/-- A well-formed state in which a command is in progress, and a step of it. -/
theorem witness_inv : Inv (sending (.activate false) .wake State.reset)
    ∧ holds (step (sending (.activate false) .wake State.reset)) (fun t => t.asm = .reqSent) :=
  ⟨⟨rfl, fun c hc => (by cases hc), by decide, rfl, by decide, by decide, by decide, by decide, by decide, .inl rfl,
    fun i _ => zeros_getD i⟩, by decide⟩
/-- An instruction that completes and is neither INIT_INITIATOR nor one of the writers named. -/
theorem witness_no_writer : exec .nop State.reset = .next (ended 0x00 .noError State.reset) ∧ Instr.nop ≠ .initInitiator
    ∧ Instr.nop ≠ .crcAAppend ∧ writesCrcRes .nop = false := ⟨rfl, by decide, by decide, rfl⟩
/-- A frame row handed over for XCV_BITS that carries a CRC. -/
theorem witness_raw_writes_no_crc : Sends (sending .xcvBits .raw (tx 32 [0x50, 0x00, 0x57, 0xCD])) (runAt .xcvBits (.transmit .raw)) .raw
    ∧ Instr.kind .halt = .transmit
    ∧ holds (exec .halt (sending .xcvBits .raw (tx 32 [0x50, 0x00, 0x57, 0xCD]))) (fun t => t.crcRes = 0x0000) :=
  ⟨⟨rfl, rfl⟩, rfl, by decide⟩
theorem witness_activation : ∃ s : State, s.busy = false ∧ s.abortReq = false ∧ s.p0 = 0x00 ∧ s.timeout ≠ 0x0000
    ∧ (0x08 : Byte).getLsbD 2 = false ∧ (0x08 : Byte).getLsbD 5 = false
    ∧ s.inbox = [.hostWrite 0x000 0x40,
        .proceed, .answer (.line (frameLine (encode (.atqa 0x04 0x00)))),
        .proceed, .answer (.line (frameLine (encode (.anticollAnswer 0x04 0x11 0x22 0x33 (0x04 ^^^ 0x11 ^^^ 0x22 ^^^ 0x33))))),
        .proceed, .answer (.line (frameLine (encode (.sakAnswer 0x08))))] :=
  ⟨{ State.reset with
      timeout := 0x0064
      inbox := [.hostWrite 0x000 0x40,
        .proceed, .answer (.line (frameLine (encode (.atqa 0x04 0x00)))),
        .proceed, .answer (.line (frameLine (encode (.anticollAnswer 0x04 0x11 0x22 0x33 (0x04 ^^^ 0x11 ^^^ 0x22 ^^^ 0x33))))),
        .proceed, .answer (.line (frameLine (encode (.sakAnswer 0x08))))] }, rfl, rfl, rfl, (by decide : (0x0064 : Half) ≠ 0x0000), by decide,
    by decide, rfl⟩

end Sys2Proof.Tests
end

/-! The host port while a command executes (10_state.md R41, 20_memory.md R68): one rule per case of a host write and of a host
read, and that every host command asks for an idle block. -/

namespace Sys2Proof.Proofs.BusyBlock

open Sys2Proof Sys2Proof.Machine

/-! ### A host command is an `issue` of its opcode and rule -/

/-- Whatever its parameters, a host command does nothing outside the command handshake (44_system.md R230). -/
theorem exec_hostCommand_issue {i : Instr} (h : i.kind = .hostCommand) : ∃ op rule, ∀ s, exec i s = issue op rule s := by
  cases i with
  | nop => exact ⟨_, _, exec_nop⟩
  | initInitiator => exact ⟨_, _, exec_initInitiator⟩
  | configure option enabled => exact ⟨_, _, exec_configure option enabled⟩
  | crcA src => exact ⟨_, _, exec_crcA src⟩
  | crcB src => exact ⟨_, _, exec_crcB src⟩
  | crcAAppend => exact ⟨_, _, exec_crcAAppend⟩
  | crcBAppend => exact ⟨_, _, exec_crcBAppend⟩
  | crcACheck src => exact ⟨_, _, exec_crcACheck src⟩
  | crcBCheck src => exact ⟨_, _, exec_crcBCheck src⟩
  | locateHist src => exact ⟨_, _, exec_locateHist src⟩
  | buildReqa => exact ⟨_, _, exec_buildReqa⟩
  | buildWupa variant => exact ⟨_, _, exec_buildWupa variant⟩
  | buildAnticoll lvl => exact ⟨_, _, exec_buildAnticoll lvl⟩
  | buildSelect lvl fromRx => exact ⟨_, _, exec_buildSelect lvl fromRx⟩
  | buildHalt => exact ⟨_, _, exec_buildHalt⟩
  | buildRats param => exact ⟨_, _, exec_buildRats param⟩
  | bccCalc => exact ⟨_, _, exec_bccCalc⟩
  | parseAnticoll lvl src => exact ⟨_, _, exec_parseAnticoll lvl src⟩
  | parseSak src => exact ⟨_, _, exec_parseSak src⟩
  | assembleUid levels => exact ⟨_, _, exec_assembleUid levels⟩
  | xcvBits => exact ⟨_, _, exec_xcvBits⟩
  | xcvBytes => exact ⟨_, _, exec_xcvBytes⟩
  | activate wake => exact ⟨_, _, exec_activate wake⟩
  | deselect => exact ⟨_, _, exec_deselect⟩
  | poll attempts period => exact ⟨_, _, exec_poll attempts period⟩
  | _ => cases h

theorem exec_hostCommand_busy {i : Instr} {s : State} (hi : i.kind = .hostCommand) (hs : s.busy = true) :
    exec i s = .refused .hostWriteWhileBusy := by
  obtain ⟨op, rule, hexec⟩ := exec_hostCommand_issue hi
  rw [hexec, issue_busy hs]

/-- Defined and undefined opcodes alike: both are issued, so both ask for an idle block. -/
theorem issueCommand_busy (op : Byte) {s : State} (hs : s.busy = true) :
    issueCommand op s = .refused .hostWriteWhileBusy := by
  unfold issueCommand
  split
  · exact exec_hostCommand_busy (decode_kind ‹_›) hs
  · exact issue_busy hs

/-! ### Host writes, case by case -/

theorem writeAbort_eq (s : State) : writeAbort s = { s with abortReq := s.busy || s.abortReq } := by
  unfold writeAbort
  split
  case isTrue hbusy => rw [hbusy, Bool.true_or]
  case isFalse hidle =>
    have hkept : (s.busy || s.abortReq) = s.abortReq := by simp [hidle]
    rw [hkept]

theorem hostWrites_abort (v : Byte) (s : State) : hostWrites 0x00F v s = .next (writeAbort s) := rfl

theorem hostWrites_cmd (op : Byte) (s : State) : hostWrites 0x000 op s = issueCommand op s := rfl

theorem hostWrites_other {a : Nat} (v : Byte) (s : State) (ha : a < Config.hostSpace) (habort : a ≠ 0x00F) (hcmd : a ≠ 0x000) :
    hostWrites a v s = if s.busy then .refused .hostWriteWhileBusy else .next (storeByte a v s) := by
  simp [hostWrites, habort, hcmd, Nat.not_le.mpr ha]

theorem hostWrites_busy {a : Nat} (v : Byte) {s : State} (hs : s.busy = true) (ha : a < Config.hostSpace) (habort : a ≠ 0x00F) :
    hostWrites a v s = .refused .hostWriteWhileBusy := by
  by_cases hcmd : a = 0x000
  · rw [hcmd, hostWrites_cmd, issueCommand_busy v hs]
  · rw [hostWrites_other v s ha habort hcmd, if_pos hs]

/-! ### Host reads, case by case -/

theorem hostReads_status (s : State) : hostReads 0x001 s = .next { s with readData := some (statusByte s) } := by
  simp [hostReads, readByte, Config.hostSpace]

theorem hostReads_busy {a : Nat} {s : State} (hs : s.busy = true) (ha : a < Config.hostSpace) (hstatus : a ≠ 0x001) :
    hostReads a s = .next { s with readData := some (Config.busyReadByte s.fresh), fresh := s.fresh + 1 } := by
  simp [hostReads, hs, hstatus, Nat.not_le.mpr ha]

/-! ### The obligation -/

/-- Settles O41, from the cases of a host write and a host read; a command is refused as every host command is an `issue`. -/
theorem busyBlockTakesOnlyAborts : Obligations.BusyBlockTakesOnlyAborts := by
  unfold Obligations.BusyBlockTakesOnlyAborts
  refine ⟨fun s v => ?abort, fun s a v hs ha habort => ?write, hostReads_status, fun s a hs ha hstatus => ?read⟩
  case abort => rw [hostWrites_abort, writeAbort_eq]
  case write => exact hostWrites_busy v hs ha habort
  case read => exact hostReads_busy hs ha hstatus

end Sys2Proof.Proofs.BusyBlock

/-! The host port while the block is idle (20_memory.md R60 to R67): what a plain store is, as one update of the state, and what each
address reads as. -/

namespace Sys2Proof.Proofs.IdleHostPort

open Sys2Proof Sys2Proof.Machine Sys2Proof.Proofs.BusyBlock

/-! ### The two bytes of a 16-bit register (20_memory.md R64) -/

theorem loByte_eq_extractLsb' (h : Half) : loByte h = h.extractLsb' 0 8 := by
  ext i hi
  simp [loByte]

theorem hiByte_eq_extractLsb' (h : Half) : hiByte h = h.extractLsb' 8 8 := by
  ext i hi
  simp [hiByte]

theorem halfOf_getLsbD (lo hi : Byte) (i : Nat) :
    (halfOf lo hi).getLsbD i = if i < 8 then lo.getLsbD i else hi.getLsbD (i - 8) := BitVec.getLsbD_append

@[simp] theorem loByte_halfOf (lo hi : Byte) : loByte (halfOf lo hi) = lo :=
  BitVec.eq_of_getLsbD_eq fun i hi => by simp [loByte, halfOf_getLsbD, hi]

@[simp] theorem hiByte_halfOf (lo hi : Byte) : hiByte (halfOf lo hi) = hi :=
  BitVec.eq_of_getLsbD_eq fun i hi => by simp [hiByte, halfOf_getLsbD, hi]

@[simp] theorem halfOf_loByte_hiByte (h : Half) : halfOf (loByte h) (hiByte h) = h := by
  refine BitVec.eq_of_getLsbD_eq fun i hi => ?_
  rw [halfOf_getLsbD]
  split
  case isTrue hlow => simp [loByte, hlow]
  case isFalse hhigh =>
    have hsum : 8 + (i - 8) = i := by omega
    have hlt : i - 8 < 8 := by omega
    simp [hiByte, hsum, hlt]

/-! ### A plain store -/

theorem inRange_iff (a lo n : Nat) : inRange a lo n = true ↔ lo ≤ a ∧ a < lo + n := by
  simp [inRange]

/-- A store assigns each host-writable register at its own address, and `TXBUF`; all else stays (20_memory.md R62, R63). -/
theorem storeByte_eq (a : Nat) (v : Byte) (s : State) : storeByte a v s = { s with
    p0 := if a = 0x004 then v else s.p0
    p1 := if a = 0x005 then v else s.p1
    timeout := halfOf (if a = 0x006 then v else loByte s.timeout) (if a = 0x007 then v else hiByte s.timeout)
    txBits := halfOf (if a = 0x018 then v else loByte s.txBits) (if a = 0x019 then v else hiByte s.txBits)
    ratsParam := if a = 0x01C then v else s.ratsParam
    mem := if 0x100 ≤ a ∧ a < 0x208 then Memory.put s.mem a v else s.mem } := by
  unfold storeByte
  split
  case h_8 h4 h5 h6 h7 h18 h19 h1C =>
    have htx : inRange a Config.txBase Config.maxFrameLen = true ↔ 0x100 ≤ a ∧ a < 0x208 := inRange_iff ..
    simp only [if_neg h4, if_neg h5, if_neg h6, if_neg h7, if_neg h18, if_neg h19, if_neg h1C, halfOf_loByte_hiByte]
    by_cases ha : 0x100 ≤ a ∧ a < 0x208
    · rw [if_pos (htx.mpr ha), if_pos ha]
    · rw [if_neg (mt htx.mp ha), if_neg ha]
  all_goals simp

/-- The addresses a plain store has an effect at: the host-writable ones but `CMD` and `ABORT` (20_memory.md R62, R67). -/
def storable (a : Nat) : Prop :=
  a = 0x004 ∨ a = 0x005 ∨ a = 0x006 ∨ a = 0x007 ∨ a = 0x018 ∨ a = 0x019 ∨ a = 0x01C ∨ (0x100 ≤ a ∧ a < 0x208)

theorem storeByte_of_not_storable {a : Nat} (v : Byte) (s : State) (ha : ¬storable a) : storeByte a v s = s := by
  obtain ⟨h4, h5, h6, h7, h18, h19, h1C, htx⟩ : a ≠ 0x004 ∧ a ≠ 0x005 ∧ a ≠ 0x006 ∧ a ≠ 0x007 ∧ a ≠ 0x018 ∧ a ≠ 0x019
      ∧ a ≠ 0x01C ∧ ¬(0x100 ≤ a ∧ a < 0x208) := by simpa only [storable, not_or] using ha
  rw [storeByte_eq, if_neg h4, if_neg h5, if_neg h6, if_neg h7, if_neg h18, if_neg h19, if_neg h1C, if_neg htx]
  simp

theorem storeByte_bufByte (a : Nat) (v : Byte) (s : State) (b : Nat) :
    (storeByte a v s).bufByte b = if b = a ∧ 0x100 ≤ a ∧ a < 0x208 then v else s.bufByte b := by
  rw [storeByte_eq]
  unfold State.bufByte State.genAt
  by_cases htx : 0x100 ≤ a ∧ a < 0x208
  · by_cases hb : b = a
    · simp [htx, hb, Memory.get_put_same]
    · simp [htx, hb, Memory.get_put_other]
  · simp [htx]

/-! ### What an address reads as while the block is idle -/

theorem hostReads_idle {a : Nat} {s : State} (hs : s.busy = false) (ha : a < Config.hostSpace) :
    hostReads a s = .next { s with readData := some (readByte a s) } := by
  simp [hostReads, hs, Nat.not_le.mpr ha]

/-- Above the registers stand the arrays and buffers. -/
theorem readByte_above {a : Nat} (ha : 0x01E < a) (s : State) : readByte a s = readArray a s := by
  unfold readByte
  split
  case h_32 => rfl
  all_goals omega

/-- The address map above the registers (20_memory.md R62, R63). -/
theorem readArray_eq (a : Nat) (s : State) : readArray a s =
    if 0x040 ≤ a ∧ a < 0x04A then s.uid.toList.getD (a - 0x040) 0
    else if 0x050 ≤ a ∧ a < 0x05C then s.rawUid.toList.getD (a - 0x050) 0
    else if 0x05C ≤ a ∧ a < 0x05F then s.rawBcc.toList.getD (a - 0x05C) 0
    else if 0x100 ≤ a ∧ a < 0x208 then s.bufByte a
    else if 0x300 ≤ a ∧ a < 0x408 then readRx a s
    else if 0x500 ≤ a ∧ a < 0x608 then readAts a s
    else 0x00 := by
  unfold readArray
  simp only [inRange_iff]
  rfl

theorem readArray_uid {i : Nat} (hi : i < 10) (s : State) : readArray (0x040 + i) s = s.uid.toList.getD i 0 := by
  rw [readArray_eq, if_pos (by omega), Nat.add_sub_cancel_left]

theorem readArray_rawUid {i : Nat} (hi : i < 12) (s : State) : readArray (0x050 + i) s = s.rawUid.toList.getD i 0 := by
  rw [readArray_eq, if_neg (by omega), if_pos (by omega), Nat.add_sub_cancel_left]

theorem readArray_rawBcc {i : Nat} (hi : i < 3) (s : State) : readArray (0x05C + i) s = s.rawBcc.toList.getD i 0 := by
  rw [readArray_eq, if_neg (by omega), if_neg (by omega), if_pos (by omega), Nat.add_sub_cancel_left]

theorem readArray_tx {a : Nat} (ha : 0x100 ≤ a ∧ a < 0x208) (s : State) : readArray a s = s.bufByte a := by
  rw [readArray_eq, if_neg (by omega), if_neg (by omega), if_neg (by omega), if_pos ha]

/-- Inside the received frame `RXBUF` reads as what it holds (10_state.md R38). -/
theorem readArray_rx {i : Nat} {s : State} (hi : i < 264) (hframe : i < ceil8 s.rxBits.toNat) :
    readArray (0x300 + i) s = s.bufByte (0x300 + i) := by
  have hin : 0x300 + i - Config.rxBase < ceil8 s.rxBits.toNat := by rwa [Config.rxBase, Nat.add_sub_cancel_left]
  rw [readArray_eq, if_neg (by omega), if_neg (by omega), if_neg (by omega), if_neg (by omega), if_pos (by omega), readRx,
    if_pos hin]

/-- Below `ATS_LEN` `ATSBUF` reads as what it holds (10_state.md R34). -/
theorem readArray_ats {i : Nat} {s : State} (hi : i < 264) (hframe : i < s.atsLen.toNat) :
    readArray (0x500 + i) s = s.bufByte (0x500 + i) := by
  have hin : 0x500 + i - Config.atsBase < s.atsLen.toNat := by rwa [Config.atsBase, Nat.add_sub_cancel_left]
  rw [readArray_eq, if_neg (by omega), if_neg (by omega), if_neg (by omega), if_neg (by omega), if_neg (by omega),
    if_pos (by omega), readAts, if_pos hin]

/-- The addresses that 20_memory.md R62 does not list, above the registers. -/
def unmapped (a : Nat) : Prop :=
  (0x01F ≤ a ∧ a ≤ 0x03F) ∨ (0x04A ≤ a ∧ a ≤ 0x04F) ∨ (0x05F ≤ a ∧ a ≤ 0x0FF) ∨ (0x208 ≤ a ∧ a ≤ 0x2FF)
    ∨ (0x408 ≤ a ∧ a ≤ 0x4FF) ∨ (0x608 ≤ a ∧ a ≤ 0x7FF)

theorem readArray_unmapped {a : Nat} (ha : unmapped a) (s : State) : readArray a s = 0x00 := by
  unfold unmapped at ha
  rw [readArray_eq, if_neg (by omega), if_neg (by omega), if_neg (by omega), if_neg (by omega), if_neg (by omega),
    if_neg (by omega)]

theorem hostReads_array {a : Nat} {s : State} {v : Byte} (hs : s.busy = false) (ha : 0x01E < a ∧ a < 0x800)
    (hv : readArray a s = v) : hostReads a s = .next { s with readData := some v } := by
  rw [hostReads_idle hs ha.2, readByte_above ha.1, hv]

/-- Each register at its address, a 16-bit one at two, low byte first (20_memory.md R62, R64). -/
def registerMap (s : State) : List (Nat × Byte) :=
  [(0x000, s.cmd), (0x001, statusByte s), (0x002, errCode s.err), (0x003, cfgByte s.cfg), (0x004, s.p0), (0x005, s.p1),
    (0x006, s.timeout.extractLsb' 0 8), (0x007, s.timeout.extractLsb' 8 8), (0x008, asmCode s.asm), (0x009, warnByte s.warn),
    (0x00A, clCode s.cl), (0x00B, s.sak), (0x00C, s.atqa0), (0x00D, s.atqa1), (0x00E, s.uidLen), (0x00F, 0x00),
    (0x010, s.atsLen.extractLsb' 0 8), (0x011, s.atsLen.extractLsb' 8 8), (0x012, s.crcRes.extractLsb' 0 8),
    (0x013, s.crcRes.extractLsb' 8 8), (0x014, s.hbOff.extractLsb' 0 8), (0x015, s.hbOff.extractLsb' 8 8),
    (0x016, s.hbLen.extractLsb' 0 8), (0x017, s.hbLen.extractLsb' 8 8), (0x018, s.txBits.extractLsb' 0 8),
    (0x019, s.txBits.extractLsb' 8 8), (0x01A, s.rxBits.extractLsb' 0 8), (0x01B, s.rxBits.extractLsb' 8 8),
    (0x01C, s.ratsParam), (0x01D, s.pollCnt), (0x01E, sakFlags s.sak)]

theorem registerMap_eq (s : State) : registerMap s = (List.range 0x01F).map fun a => (a, readByte a s) := by
  simp only [registerMap, ← loByte_eq_extractLsb', ← hiByte_eq_extractLsb']
  rfl

theorem hostReads_register {p : Nat × Byte} {s : State} (hs : s.busy = false) (hp : p ∈ registerMap s) :
    hostReads p.1 s = .next { s with readData := some p.2 } := by
  rw [registerMap_eq] at hp
  obtain ⟨a, ha, rfl⟩ := List.mem_map.mp hp
  exact hostReads_idle hs (Nat.lt_trans (List.mem_range.mp ha) (by decide))

/-! ### The bits of the flag bytes and the numbers of the codes -/

theorem statusByte_bit (s : State) (k : Nat) (hk : k < 8) : (statusByte s).getLsbD k =
    [s.busy, s.done, errFlag s, s.matched, s.found, warnFlag s, s.abortReq].getD k false :=
  bitsToByte_bit _ (by simp) k hk

/-- The bits above the options read 0 (10_state.md R25). -/
theorem cfgByte_above (c : Cfg) (k : Nat) (hk : 4 ≤ k) : (cfgByte c).getLsbD k = false := by
  by_cases h8 : k < 8
  · rw [cfgByte_bit c k h8]
    rw [List.getD_eq_getElem?_getD, List.getElem?_eq_none hk, Option.getD_none]
  · exact BitVec.getLsbD_of_ge _ _ (by omega)

/-- The bits above the warnings read 0 (10_state.md R28). -/
theorem warnByte_above (w : Warn) (k : Nat) (hk : 5 ≤ k) : (warnByte w).getLsbD k = false := by
  by_cases h8 : k < 8
  · rw [warnByte_bit w k h8]
    rw [List.getD_eq_getElem?_getD, List.getElem?_eq_none hk, Option.getD_none]
  · exact BitVec.getLsbD_of_ge _ _ (by omega)

theorem statusByte_flags (s : State) :
    (statusByte s).getLsbD 0 = s.busy ∧ (statusByte s).getLsbD 1 = s.done
      ∧ (statusByte s).getLsbD 2 = decide (errCode s.err ≠ 0x00) ∧ (statusByte s).getLsbD 3 = s.matched
      ∧ (statusByte s).getLsbD 4 = s.found ∧ (statusByte s).getLsbD 5 = decide (warnByte s.warn ≠ 0x00)
      ∧ (statusByte s).getLsbD 6 = s.abortReq ∧ (statusByte s).getLsbD 7 = false :=
  ⟨statusByte_bit s 0 (by decide), statusByte_bit s 1 (by decide), statusByte_bit s 2 (by decide), statusByte_bit s 3 (by decide),
    statusByte_bit s 4 (by decide), statusByte_bit s 5 (by decide), statusByte_bit s 6 (by decide), statusByte_bit s 7 (by decide)⟩

theorem cfgByte_options (c : Cfg) :
    (cfgByte c).getLsbD 0 = c.handleCrc ∧ (cfgByte c).getLsbD 1 = c.easyFraming ∧ (cfgByte c).getLsbD 2 = c.autoIso14443_4
      ∧ (cfgByte c).getLsbD 3 = c.infiniteSelect ∧ ∀ k, 4 ≤ k → (cfgByte c).getLsbD k = false :=
  ⟨cfgByte_bit c 0 (by decide), cfgByte_bit c 1 (by decide), cfgByte_bit c 2 (by decide), cfgByte_bit c 3 (by decide),
    cfgByte_above c⟩

theorem warnByte_flags (w : Warn) :
    (warnByte w).getLsbD 0 = w.bcc1 ∧ (warnByte w).getLsbD 1 = w.bcc2 ∧ (warnByte w).getLsbD 2 = w.bcc3
      ∧ (warnByte w).getLsbD 3 = w.ct1 ∧ (warnByte w).getLsbD 4 = w.ct2 ∧ ∀ k, 5 ≤ k → (warnByte w).getLsbD k = false :=
  ⟨warnByte_bit w 0 (by decide), warnByte_bit w 1 (by decide), warnByte_bit w 2 (by decide), warnByte_bit w 3 (by decide),
    warnByte_bit w 4 (by decide), warnByte_above w⟩

/-! ### The obligations -/

/-- Settles O47: registers by the register map, arrays and buffers by the address map above it; the codes are finite tables. -/
theorem hostReadsFollowTheMap : Obligations.HostReadsFollowTheMap := by
  unfold Obligations.HostReadsFollowTheMap
  refine ⟨fun s hs => ⟨fun p hp => hostReads_register hs hp, fun i hi => ?uid, fun i hi => ?rawUid, fun i hi => ?rawBcc,
    fun i hi => ?tx, fun i hi hframe => ?rx, fun i hi hframe => ?ats, fun a ha => ?unmapped⟩, statusByte_flags, cfgByte_options,
    warnByte_flags, by decide, by decide, rfl, rfl, rfl, rfl⟩
  case uid => exact hostReads_array hs (by omega) (readArray_uid hi s)
  case rawUid => exact hostReads_array hs (by omega) (readArray_rawUid hi s)
  case rawBcc => exact hostReads_array hs (by omega) (readArray_rawBcc hi s)
  case tx => exact hostReads_array hs (by omega) (readArray_tx (by omega) s)
  case rx => exact hostReads_array hs (by omega) (readArray_rx hi hframe)
  case ats => exact hostReads_array hs (by omega) (readArray_ats hi hframe)
  case unmapped => exact hostReads_array hs (by omega) (readArray_unmapped ha s)

/-! ### What a store leaves readable -/

theorem readArray_storeByte_other {a b : Nat} (v : Byte) (s : State) (hb : b ≠ a) :
    readArray b (storeByte a v s) = readArray b s := by
  have hbuf : (storeByte a v s).bufByte b = s.bufByte b := by rw [storeByte_bufByte, if_neg (fun h => hb h.1)]
  simp only [readArray_eq, readRx, readAts, hbuf]
  rw [storeByte_eq]

theorem statusByte_storeByte (a : Nat) (v : Byte) (s : State) : statusByte (storeByte a v s) = statusByte s := by
  rw [storeByte_eq]
  rfl

theorem readByte_storeByte_other {a b : Nat} (v : Byte) (s : State) (hb : b ≠ a) :
    readByte b (storeByte a v s) = readByte b s := by
  unfold readByte
  split
  case h_32 => exact readArray_storeByte_other v s hb
  case h_5 | h_6 | h_7 | h_8 | h_25 | h_26 | h_29 => simp [storeByte_eq, hb.symm]
  case h_2 => exact statusByte_storeByte a v s
  case h_16 => rfl
  all_goals rw [storeByte_eq]

theorem readByte_storeByte_same {a : Nat} (v : Byte) (s : State) (ha : storable a) : readByte a (storeByte a v s) = v := by
  obtain rfl | rfl | rfl | rfl | rfl | rfl | rfl | htx := ha
  case inr.inr.inr.inr.inr.inr.inr => rw [readByte_above (by omega), readArray_tx htx, storeByte_bufByte, if_pos ⟨rfl, htx⟩]
  all_goals simp [storeByte_eq, readByte]

theorem writeAbort_idle {s : State} (hs : s.busy = false) : writeAbort s = s := if_neg (ne_true_of_eq_false hs)

theorem hostWrites_idle {a : Nat} (v : Byte) {s : State} (hs : s.busy = false) (ha : a < Config.hostSpace) (hcmd : a ≠ 0x000) :
    hostWrites a v s = .next (storeByte a v s) := by
  by_cases habort : a = 0x00F
  · rw [habort, hostWrites_abort, writeAbort_idle hs, storeByte_of_not_storable v s (by simp [storable])]
  · rw [hostWrites_other v s ha habort hcmd, if_neg (by rw [hs]; decide)]

/-- Settles O48: an idle write is a plain store, which is read back at its own address and at no other. -/
theorem hostWritesStoreAndNothingElse : Obligations.HostWritesStoreAndNothingElse := by
  unfold Obligations.HostWritesStoreAndNothingElse
  refine fun s a v hs ha hcmd => ⟨fun hstore => ⟨storeByte a v s, hostWrites_idle v hs ha hcmd, fun b => ?_⟩, fun hnot => ?_⟩
  · split
    case isTrue heq => rw [heq, readByte_storeByte_same v s hstore]
    case isFalse hne => exact readByte_storeByte_other v s hne
  · rw [hostWrites_idle v hs ha hcmd, storeByte_of_not_storable v s hnot]

end Sys2Proof.Proofs.IdleHostPort

/-! Every step keeps `Inv`. A command's rule and the end of an exchange leave one of two things: a command that has ended over good
data (`inv_raise`, `inv_complete`), or one that goes on at a consistent place (`Executing.inv_transmit`, `Executing.inv_pause`). -/

namespace Sys2Proof.Proofs.WellFormedSteps

open Sys2Proof Sys2Proof.Machine Sys2Proof.Proofs.BusyBlock Sys2Proof.Proofs.IdleHostPort

/-! ### A command that ends -/

/-- `DataOk.congr` for an update that names none of its five fields. -/
theorem dataOk_update {s t : State} (h : DataOk s) (hmem : t.mem = s.mem := by rfl) (hrx : t.rxBits = s.rxBits := by rfl)
    (hats : t.atsLen = s.atsLen := by rfl) (hlen : t.uidLen = s.uidLen := by rfl) (huid : t.uid = s.uid := by rfl) : DataOk t :=
  h.congr hmem hrx hats hlen huid

theorem inv_raise {s : State} (h : DataOk s) (e : ErrKind) : Inv (s.raise e) := raise_closed s e ▸ h.inv_closed e

theorem inv_complete {s : State} (h : DataOk s) : Inv s.complete := complete_closed s ▸ h.inv_closed s.err

/-! ### A command that goes on -/

/-- A command executes over good data (44_system.md R230); where it stands is left open. -/
structure Executing (s : State) : Prop where
  data : DataOk s
  busy : s.busy = true
  notDone : s.done = false
  noError : s.err = .noError

theorem Executing.update {s t : State} (h : Executing s) (hdata : DataOk t) (hbusy : t.busy = s.busy := by rfl)
    (hdone : t.done = s.done := by rfl) (herr : t.err = s.err := by rfl) : Executing t :=
  ⟨hdata, hbusy ▸ h.busy, hdone ▸ h.notDone, herr ▸ h.noError⟩

theorem executing_accept {s : State} (h : DataOk s) (op : Byte) : Executing (s.accept op) := ⟨h.accept op, rfl, rfl, rfl⟩

theorem executing_of_run {s : State} {r : Run} (h : Inv s) (hr : s.run = some r) : Executing s := by
  have hbusy : s.busy = true := by rw [h.busyRun, hr, Option.isSome_some]
  have hdone : s.done = false := Bool.eq_false_iff.mpr fun hd => h.notBusyDone ⟨hbusy, hd⟩
  exact ⟨h.dataOk, hbusy, hdone, h.noErrorBusy hbusy⟩

/-- The command goes on to hand over a frame that its kind and `ASM_STATE` allow. -/
theorem Executing.inv_transmit {s : State} {r : Run} {d : Due} (h : Executing s) (hx : s.xch = none)
    (hj : jobPerforms r.job d = true) (ha : asmBefore d s.asm = true) : Inv (s.goTo r (.transmit d)) :=
  (dataOk_update h.data).inv_busy h.busy h.notDone h.noError rfl (by simp [runConsistent, hx, hj, ha])

/-- POLL goes on to its pause while attempts are left (43_activation.md R214). -/
theorem Executing.inv_pause {s : State} {r : Run} {attempts : Byte} (h : Executing s) (hx : s.xch = none)
    (hj : r.job = .poll attempts) (ha : s.asm = .noTag) (hleft : s.pollCnt.toNat < attempts.toNat) : Inv (s.goTo r .pause) :=
  (dataOk_update h.data).inv_busy h.busy h.notDone h.noError rfl (by simp [runConsistent, hx, hj, ha, hleft])

/-- As `Executing.inv_transmit`, for a command that has just been accepted. -/
theorem Executing.inv_beginRun {s : State} {job : Job} {d : Due} (h : Executing s) (hx : s.xch = none)
    (hj : jobPerforms job d = true) (ha : asmBefore d s.asm = true) : Inv (s.beginRun job d) :=
  h.inv_transmit (r := ⟨job, .transmit d, s.timeout, s.ratsParam⟩) hx hj ha

/-! ### What a frame due is made of -/

theorem txFrame_congr {s t : State} (hbuf : ∀ a, t.bufByte a = s.bufByte a) (hbits : t.txBits = s.txBits) :
    txFrame t = txFrame s := by
  simp only [txFrame, State.txBytes, bufBytes_congr hbuf, hbits]

theorem rawFrame_congr {s t : State} (job : Job) (h : txFrame t = txFrame s) : rawFrame job t = rawFrame job s := by
  simp only [rawFrame, h]

theorem frameFor_congr {s t : State} (r : Run) (d : Due) (htx : txFrame t = txFrame s) (huid : t.rawUid = s.rawUid)
    (hbcc : t.rawBcc = s.rawBcc) : frameFor r d t = frameFor r d s := by
  simp only [frameFor, asmSelectFrame, rawFrame_congr r.job htx, huid, hbcc]

/-! ### What `runConsistent` says at each place -/

theorem runConsistent_congr {s t : State} (hframe : ∀ r d, frameFor r d t = frameFor r d s) (hrun : t.run = s.run)
    (hxch : t.xch = s.xch) (hasm : t.asm = s.asm) (hcnt : t.pollCnt = s.pollCnt) : runConsistent t = runConsistent s := by
  simp only [runConsistent, hframe, hrun, hxch, hasm, hcnt]

theorem runConsistent_idle {s : State} (hr : s.run = none) : runConsistent s = true ↔ s.xch = none := by
  simp [runConsistent, hr]

theorem runConsistent_transmit {s : State} {r : Run} {d : Due} (hr : s.run = some r) (hp : r.point = .transmit d) :
    runConsistent s = true ↔ s.xch = none ∧ jobPerforms r.job d = true ∧ asmBefore d s.asm = true := by
  simp [runConsistent, hr, hp, and_assoc]

theorem runConsistent_await {s : State} {r : Run} {d : Due} (hr : s.run = some r) (hp : r.point = .await d) :
    runConsistent s = true ↔ s.xch = some ⟨frameLine (frameFor r d s), rxCrcFor r d, r.timeout⟩ ∧ jobPerforms r.job d = true
      ∧ asmAwaits d s.asm = true := by
  simp [runConsistent, hr, hp, and_assoc]

theorem runConsistent_pause {s : State} {r : Run} (hr : s.run = some r) (hp : r.point = .pause) :
    runConsistent s = true ↔ ∃ attempts, r.job = .poll attempts ∧ s.xch = none ∧ s.asm = .noTag
      ∧ s.pollCnt.toNat < attempts.toNat := by
  unfold runConsistent
  rw [hr]
  simp only [hp]
  cases r.job <;> simp [and_assoc]

/-- The exchanges of an activation belong to the same commands (43_activation.md R190). -/
theorem jobPerforms_anticoll (job : Job) (n : Level) : jobPerforms job (.anticoll n) = jobPerforms job .wake := by
  cases job <;> rfl

theorem jobPerforms_select (job : Job) (n : Level) : jobPerforms job (.select n) = jobPerforms job .wake := by
  cases job <;> rfl

theorem jobPerforms_rats (job : Job) : jobPerforms job .rats = jobPerforms job .wake := by
  cases job <;> rfl

/-! ### Host commands -/

/-- The rule of a host command takes every accepted state to a well-formed one. -/
def RuleKeepsInv (rule : State → State) : Prop := ∀ a, Executing a → a.xch = none → Inv (rule a)

theorem issue_keepsInv {op : Byte} {rule : State → State} {s t : State} (h : Inv s) (hrule : RuleKeepsInv rule)
    (ht : issue op rule s = .next t) : Inv t := by
  obtain ⟨hidle, rfl⟩ := issue_next.mp ht
  have hrun : s.run = none := by simpa [hidle] using h.busyRun
  exact hrule _ (executing_accept h.dataOk op) ((runConsistent_idle hrun).mp h.running)

theorem complete_keepsInv : RuleKeepsInv State.complete := fun _ h _ => inv_complete h.data

theorem initRule_keepsInv : RuleKeepsInv initRule := fun a _ _ => inv_complete (dataOk_update (DataOk.clearAll a))

theorem configureRule_keepsInv (option enabled : Byte) : RuleKeepsInv (configureRule option enabled) := by
  intro a h _
  unfold configureRule
  split
  · exact inv_raise h.data _
  · exact inv_complete (dataOk_update h.data)

theorem crcRule_keepsInv (crc : List Byte → Half) (src : Byte) : RuleKeepsInv (crcRule crc src) := by
  intro a h _
  unfold crcRule
  split
  · exact inv_raise h.data _
  · exact inv_complete (dataOk_update h.data)

theorem crcAppendRule_keepsInv (crc : List Byte → Half) : RuleKeepsInv (crcAppendRule crc) := by
  intro a h _
  unfold crcAppendRule
  split
  · exact inv_raise h.data _
  · simp only
    split
    · exact inv_raise h.data _
    case _ bytes _ hroom =>
      have hfits : a.txBits.toNat / 8 + (crcBytes (crc bytes)).length ≤ 264 := by
        simpa [Config.maxFrameLen, crcBytes] using hroom
      exact inv_complete (dataOk_update (h.data.writeTx _ _ hfits))

theorem crcCheckRule_keepsInv (crc : List Byte → Half) (src : Byte) : RuleKeepsInv (crcCheckRule crc src) := by
  intro a h _
  unfold crcCheckRule
  split
  · exact inv_raise h.data _
  · split
    · exact inv_complete (dataOk_update h.data)
    · exact inv_complete (dataOk_update h.data)

theorem locateHistRule_keepsInv (src : Byte) : RuleKeepsInv (locateHistRule src) := by
  intro a h _
  unfold locateHistRule
  split
  · exact inv_raise h.data _
  · split
    · exact inv_complete (dataOk_update h.data)
    · exact inv_complete (dataOk_update h.data)

theorem buildFrame_keepsInv {f : Frame} (hf : f.bytes.length ≤ 264) : RuleKeepsInv fun s => (s.putTxFrame f).complete :=
  fun _ h _ => inv_complete (h.data.putTxFrame f hf)

theorem buildCrcFrame_keepsInv {f : Frame} (hf : f.bytes.length ≤ 264) : RuleKeepsInv fun s => (s.putCrcFrame f).complete :=
  fun _ h _ => inv_complete (h.data.putCrcFrame f hf)

theorem buildWupaRule_keepsInv (variant : Byte) : RuleKeepsInv (buildWupaRule variant) := by
  intro a h _
  unfold buildWupaRule
  split
  · exact inv_complete (h.data.putTxFrame _ (by decide))
  · split
    · exact inv_complete (h.data.putTxFrame _ (by decide))
    · exact inv_raise h.data _

theorem selectFrame_length (n : Level) (u0 u1 u2 u3 bcc : Byte) : (selectFrame n u0 u1 u2 u3 bcc).bytes.length = 9 := rfl

theorem anticollFrame_length (n : Level) : (anticollFrame n).bytes.length = 2 := rfl

theorem ratsFrame_length (param : Byte) : (ratsFrame param).bytes.length = 4 := rfl

theorem buildAnticollRule_keepsInv (lvl : Byte) : RuleKeepsInv (buildAnticollRule lvl) := by
  intro a h _
  unfold buildAnticollRule
  split
  · exact inv_raise h.data _
  case _ n _ => exact inv_complete (h.data.putTxFrame _ (by rw [anticollFrame_length]; decide))

theorem inv_buildSelectInPlace {s : State} (h : DataOk s) (n : Level) : Inv (buildSelectInPlace n s) :=
  inv_complete (h.putCrcFrame _ (by rw [selectFrame_length]; decide))

theorem buildSelectRule_keepsInv (lvl fromRx : Byte) : RuleKeepsInv (buildSelectRule lvl fromRx) := by
  intro a h _
  unfold buildSelectRule
  split
  · exact inv_raise h.data _
  · split
    · split
      · exact inv_raise h.data _
      · exact inv_buildSelectInPlace (h.data.writeTx _ _ (by simp [State.rxBytes])) _
    · split
      · exact inv_buildSelectInPlace h.data _
      · exact inv_raise h.data _

theorem bccCalcRule_keepsInv : RuleKeepsInv bccCalcRule :=
  fun _ h _ => inv_complete (h.data.writeTx 6 _ (by simp))

theorem parseAnticollRule_keepsInv (lvl src : Byte) : RuleKeepsInv (parseAnticollRule lvl src) := by
  intro a h _
  unfold parseAnticollRule
  split
  · exact inv_raise h.data _
  · split
    · exact inv_raise h.data _
    · split
      · exact inv_raise h.data _
      · exact inv_complete (dataOk_update h.data)

theorem parseSakRule_keepsInv (src : Byte) : RuleKeepsInv (parseSakRule src) := by
  intro a h _
  unfold parseSakRule
  split
  · exact inv_raise h.data _
  · split
    · exact inv_raise h.data _
    · exact inv_complete (dataOk_update h.data)

theorem assembleUidRule_keepsInv (levels : Byte) : RuleKeepsInv (assembleUidRule levels) := by
  intro a h _
  unfold assembleUidRule
  split
  · exact inv_raise h.data _
  case _ n _ => exact inv_complete (dataOk_update (h.data.assembleUid n))

theorem xcvBitsRule_keepsInv : RuleKeepsInv xcvBitsRule := by
  intro a h hx
  unfold xcvBitsRule
  split
  · exact inv_raise h.data _
  · exact h.inv_beginRun hx rfl rfl

theorem xcvBytesRule_keepsInv : RuleKeepsInv xcvBytesRule := by
  intro a h hx
  unfold xcvBytesRule
  split
  · exact inv_raise h.data _
  · split
    · exact inv_raise h.data _
    · exact h.inv_beginRun hx rfl rfl

theorem activateRule_keepsInv (wake : Byte) : RuleKeepsInv (activateRule wake) := by
  intro a h hx
  have hclear : Executing a.clearTransaction := h.update h.data.clearTransaction
  unfold activateRule
  split
  · exact hclear.inv_beginRun hx rfl rfl
  · split
    · exact hclear.inv_beginRun hx rfl rfl
    · exact inv_raise h.data _

theorem deselectRule_keepsInv : RuleKeepsInv deselectRule := by
  intro a h hx
  unfold deselectRule
  split
  case isTrue hactivated => exact h.inv_beginRun hx rfl (decide_eq_true hactivated)
  case isFalse => exact inv_complete (dataOk_update h.data.clearTransaction)

theorem pollRule_keepsInv (attempts : Byte) : RuleKeepsInv (pollRule attempts) := by
  intro a h hx
  unfold pollRule
  split
  · exact inv_raise h.data _
  · exact (h.update (dataOk_update h.data.clearTransaction)).inv_beginRun hx rfl rfl

theorem exec_hostCommand_keepsInv {i : Instr} {s t : State} (hk : i.kind = .hostCommand) (h : Inv s) (ht : exec i s = .next t) :
    Inv t := by
  cases i with
  | nop => exact issue_keepsInv h complete_keepsInv ht
  | initInitiator => exact issue_keepsInv h initRule_keepsInv ht
  | configure option enabled => exact issue_keepsInv h (configureRule_keepsInv option enabled) ht
  | crcA src => exact issue_keepsInv h (crcRule_keepsInv _ src) ht
  | crcB src => exact issue_keepsInv h (crcRule_keepsInv _ src) ht
  | crcAAppend => exact issue_keepsInv h (crcAppendRule_keepsInv _) ht
  | crcBAppend => exact issue_keepsInv h (crcAppendRule_keepsInv _) ht
  | crcACheck src => exact issue_keepsInv h (crcCheckRule_keepsInv _ src) ht
  | crcBCheck src => exact issue_keepsInv h (crcCheckRule_keepsInv _ src) ht
  | locateHist src => exact issue_keepsInv h (locateHistRule_keepsInv src) ht
  | buildReqa => exact issue_keepsInv h (buildFrame_keepsInv (by decide)) ht
  | buildWupa variant => exact issue_keepsInv h (buildWupaRule_keepsInv variant) ht
  | buildAnticoll lvl => exact issue_keepsInv h (buildAnticollRule_keepsInv lvl) ht
  | buildSelect lvl fromRx => exact issue_keepsInv h (buildSelectRule_keepsInv lvl fromRx) ht
  | buildHalt => exact issue_keepsInv h (buildCrcFrame_keepsInv (by decide)) ht
  | buildRats param => exact issue_keepsInv h (buildCrcFrame_keepsInv (by rw [ratsFrame_length]; decide)) ht
  | bccCalc => exact issue_keepsInv h bccCalcRule_keepsInv ht
  | parseAnticoll lvl src => exact issue_keepsInv h (parseAnticollRule_keepsInv lvl src) ht
  | parseSak src => exact issue_keepsInv h (parseSakRule_keepsInv src) ht
  | assembleUid levels => exact issue_keepsInv h (assembleUidRule_keepsInv levels) ht
  | xcvBits => exact issue_keepsInv h xcvBitsRule_keepsInv ht
  | xcvBytes => exact issue_keepsInv h xcvBytesRule_keepsInv ht
  | activate wake => exact issue_keepsInv h (activateRule_keepsInv wake) ht
  | deselect => exact issue_keepsInv h deselectRule_keepsInv ht
  | poll attempts period => exact issue_keepsInv h (pollRule_keepsInv attempts) ht
  | _ => cases hk

/-! ### The transmit step -/

/-- A frame that the sequencer writes to `TXBUF` has at most nine bytes (43_activation.md R190, R213). -/
theorem frameFor_length {r : Run} {d : Due} {s : State} (hd : d ≠ .raw) : (frameFor r d s).bytes.length ≤ 9 := by
  cases d with
  | raw => exact absurd rfl hd
  | wake =>
    show (wakeFrame r.job).bytes.length ≤ 9
    unfold wakeFrame
    split <;> decide
  | anticoll n => exact Nat.le_trans (Nat.le_of_eq (anticollFrame_length n)) (by decide)
  | select n => exact Nat.le_refl 9
  | rats => exact Nat.le_trans (Nat.le_of_eq (ratsFrame_length r.ratsParam)) (by decide)
  | halt =>
    show haltFrame.bytes.length ≤ 9
    decide

theorem dataOk_prepareSend {s : State} (h : DataOk s) (r : Run) (d : Due) : DataOk (prepareSend d (frameFor r d s) s) := by
  have hfits (hd : d ≠ .raw) : (frameFor r d s).bytes.length ≤ 264 := Nat.le_trans (frameFor_length hd) (by decide)
  cases d with
  | raw => exact h
  | wake => exact dataOk_update (h.putTxFrame _ (hfits nofun))
  | anticoll n => exact dataOk_update (h.putTxFrame _ (hfits nofun))
  | select n => exact dataOk_update (h.putCrcFrame _ (hfits nofun))
  | rats => exact dataOk_update (h.putCrcFrame _ (hfits nofun))
  | halt => exact h.putCrcFrame _ (hfits nofun)

theorem prepareSend_handshake (d : Due) (f : Frame) (s : State) : (prepareSend d f s).busy = s.busy
    ∧ (prepareSend d f s).done = s.done ∧ (prepareSend d f s).err = s.err := by
  cases d <;> simp [prepareSend]

theorem executing_prepareSend {s : State} (h : Executing s) (r : Run) (d : Due) :
    Executing (prepareSend d (frameFor r d s) s) :=
  have ⟨hbusy, hdone, herr⟩ := prepareSend_handshake d (frameFor r d s) s
  h.update (dataOk_prepareSend h.data r d) hbusy hdone herr

/-- Handing a frame over enters the sequencer state of its exchange (43_activation.md R215). -/
theorem asmAwaits_prepareSend {d : Due} {s : State} (f : Frame) (h : asmBefore d s.asm = true) :
    asmAwaits d (prepareSend d f s).asm = true := by
  cases d with
  | raw => rfl
  | halt =>
    rw [prepareSend, State.putCrcFrame_asm]
    exact h
  | wake | anticoll | select | rats => simp [asmAwaits, prepareSend]

/-- Handing a frame over changes nothing that the frame is made of. -/
theorem frameFor_openExchange (r : Run) (d : Due) (f : Frame) (s : State) :
    frameFor { r with point := .await d } d ((prepareSend d f s).openExchange r d f) = frameFor r d s := by
  cases d with
  | raw => exact rawFrame_congr r.job (txFrame_congr (fun _ => rfl) rfl)
  | wake | anticoll | rats | halt => rfl
  | select n => simp only [frameFor, asmSelectFrame, prepareSend, State.openExchange_rawUid, State.openExchange_rawBcc,
      State.putCrcFrame_rawUid, State.putCrcFrame_rawBcc]

theorem sendDue_keepsInv {s : State} {r : Run} {d : Due} (h : Inv s) (hs : Sends s r d) : Inv (sendDue s) := by
  obtain ⟨-, hj, ha⟩ := (runConsistent_transmit hs.1 hs.2).mp h.running
  have hexec := executing_prepareSend (executing_of_run h hs.1) r d
  rw [sendDue_sends hs]
  refine (dataOk_update hexec.data).inv_busy hexec.busy hexec.notDone hexec.noError rfl ?_
  rw [runConsistent_await (r := { r with point := .await d }) rfl rfl, frameFor_openExchange]
  exact ⟨rfl, hj, asmAwaits_prepareSend _ ha⟩

/-! ### The end of an exchange -/

/-- What an exchange delivers fits the receive buffer (20_memory.md R74). -/
def FitsBuffer : XResult → Prop
  | .ok f => f.bytes.length = ceil8 f.nbits ∧ f.bytes.length ≤ 264
  | .err _ => True

theorem fitsBuffer_decodeAnswer (rxCrc : Bool) (a : Answer) : FitsBuffer (decodeAnswer rxCrc a) := by
  cases hx : decodeAnswer rxCrc a with
  | ok f => exact decodeAnswer_shape hx
  | err e => trivial

theorem dataOk_landRx {s : State} {f : Frame} (h : DataOk s) (hf : FitsBuffer (.ok f)) : DataOk (s.landRx f) :=
  h.landRx f hf.1 hf.2

theorem inv_finishRaw {s : State} {x : XResult} (h : Executing s) (hx : FitsBuffer x) (r : Run) : Inv (finishRaw r x s) := by
  cases x with
  | err e => exact inv_raise h.data.dropRx e
  | ok f =>
    simp only [finishRaw]
    split
    · exact inv_raise h.data.dropRx _
    · exact inv_complete (dataOk_landRx h.data hx)

theorem inv_wakeSilence {s : State} (h : Executing s) (hxch : s.xch = none) (r : Run) : Inv (wakeSilence r s) := by
  have hdata : DataOk s.noTag := dataOk_update h.data.dropRx
  unfold wakeSilence
  split
  case h_1 attempts hjob =>
    split
    case isTrue hleft => exact (h.update hdata).inv_pause hxch hjob rfl hleft
    case isFalse => exact inv_complete hdata
  all_goals exact inv_complete hdata

theorem inv_finishWake {s : State} {r : Run} {x : XResult} (h : Executing s) (hxch : s.xch = none) (hx : FitsBuffer x)
    (hj : jobPerforms r.job .wake = true) (ha : s.asm = .reqSent) : Inv (finishWake r x s) := by
  cases x with
  | err e =>
    simp only [finishWake]
    split
    · exact inv_wakeSilence h hxch r
    · exact inv_raise h.data.dropRx e
  | ok f =>
    have hdata := dataOk_landRx h.data hx
    simp only [finishWake]
    split
    · exact inv_raise hdata _
    · have hland : Executing (s.landAtqa f) := h.update (dataOk_update hdata)
      exact hland.inv_transmit hxch (jobPerforms_anticoll r.job .cl1 ▸ hj) (decide_eq_true ha)

theorem inv_finishAnticoll {s : State} {r : Run} {x : XResult} {n : Level} (h : Executing s) (hxch : s.xch = none)
    (hx : FitsBuffer x) (hj : jobPerforms r.job .wake = true) (ha : s.asm = .arbitration n) : Inv (finishAnticoll n r x s) := by
  cases x with
  | err e => exact inv_raise h.data.dropRx e
  | ok f =>
    have hdata := dataOk_landRx h.data hx
    simp only [finishAnticoll]
    split
    · exact inv_raise hdata _
    · have hland : Executing (s.landAnticoll n f) := h.update (dataOk_update hdata)
      exact hland.inv_transmit hxch (jobPerforms_select r.job n ▸ hj) (decide_eq_true ha)

/-- The next level is the one whose anti-collision frame follows this level's SELECT (43_activation.md R203). -/
theorem asmBefore_levelNext {n m : Level} (h : levelNext n = some m) : asmBefore (.anticoll m) (.selected n) = true := by
  cases n <;> cases h <;> rfl

theorem inv_nextLevel {s : State} {r : Run} {n : Level} (h : Executing s) (hxch : s.xch = none)
    (hj : jobPerforms r.job .wake = true) (ha : s.asm = .selected n) : Inv (nextLevel n r s) := by
  unfold nextLevel
  split
  · exact inv_raise h.data _
  case h_2 m hm =>
    have htag : Executing (s.checkCascadeTag n) := h.update (dataOk_update h.data)
    refine htag.inv_transmit hxch (jobPerforms_anticoll r.job m ▸ hj) ?_
    rw [State.checkCascadeTag_asm, ha, asmBefore_levelNext hm]

theorem dataOk_clearAts {s : State} (h : DataOk s) : DataOk s.clearAts :=
  ⟨h.memWf, h.memMapped, h.rxBitsLegal, Nat.zero_le _, h.uidLenLegal, h.uidTail⟩

theorem inv_activated {s : State} (h : DataOk s) : Inv s.activated := inv_complete (dataOk_update h)

theorem inv_finalLevel {s : State} {r : Run} {n : Level} (h : Executing s) (hxch : s.xch = none)
    (hj : jobPerforms r.job .wake = true) (ha : s.asm = .selected n) : Inv (finalLevel n r s) := by
  have hdata := h.data.assembleUid n
  unfold finalLevel
  split
  · have huid : Executing (s.assembleUid n) := h.update hdata
    refine huid.inv_transmit hxch (jobPerforms_rats r.job ▸ hj) ?_
    rw [State.assembleUid_asm, ha]
    rfl
  · exact inv_activated (dataOk_clearAts hdata)

theorem inv_finishSelect {s : State} {r : Run} {x : XResult} {n : Level} (h : Executing s) (hxch : s.xch = none)
    (hx : FitsBuffer x) (hj : jobPerforms r.job .wake = true) (ha : s.asm = .selected n) : Inv (finishSelect n r x s) := by
  cases x with
  | err e => exact inv_raise h.data.dropRx e
  | ok f =>
    have hdata := dataOk_landRx h.data hx
    have hland : Executing (s.landSak f) := h.update (dataOk_update hdata)
    simp only [finishSelect]
    split
    · exact inv_raise hdata _
    · split
      · exact inv_nextLevel hland hxch hj ha
      · exact inv_finalLevel hland hxch hj ha

/-- The length byte bounds the ATS that a RATS answer brings, so it is legal (10_state.md R34, 43_activation.md R209). -/
theorem ats_length_le {f : Frame} (hf : FitsBuffer (.ok f)) (hlen : (f.bytes.getD 0 0).toNat = f.nbits / 8) :
    (f.bytes.drop 1).length ≤ 261 := by
  have hshape : f.bytes.length = (f.nbits + 7) / 8 := hf.1
  have hbyte : (f.bytes.getD 0 0).toNat < 256 := BitVec.isLt _
  rw [List.length_drop]
  omega

theorem inv_finishRats {s : State} {x : XResult} (h : Executing s) (hx : FitsBuffer x) : Inv (finishRats x s) := by
  cases x with
  | err e => exact inv_raise h.data.dropRx e
  | ok f =>
    have hdata := dataOk_landRx h.data hx
    simp only [finishRats]
    split
    · exact inv_raise hdata _
    case isFalse hlegal =>
      obtain ⟨-, hlen⟩ := not_or.mp hlegal
      exact inv_activated (hdata.landAts _ (ats_length_le hx (Decidable.not_not.mp hlen)))

theorem inv_finishHalt {s : State} (h : Executing s) (x : XResult) : Inv (finishHalt x s) := by
  have hdata : DataOk s.released := dataOk_update h.data.dropRx.clearTransaction
  cases x with
  | err e =>
    simp only [finishHalt]
    split
    · exact inv_complete hdata
    · exact inv_raise hdata e
  | ok f => exact inv_raise hdata _

theorem inv_finish {s : State} {r : Run} {d : Due} {x : XResult} (h : Executing s) (hxch : s.xch = none) (hx : FitsBuffer x)
    (hj : jobPerforms r.job d = true) (ha : asmAwaits d s.asm = true) : Inv (finish r d x s) := by
  cases d with
  | raw => exact inv_finishRaw h hx r
  | wake => exact inv_finishWake h hxch hx hj (of_decide_eq_true ha)
  | anticoll n => exact inv_finishAnticoll h hxch hx (jobPerforms_anticoll r.job n ▸ hj) (of_decide_eq_true ha)
  | select n => exact inv_finishSelect h hxch hx (jobPerforms_select r.job n ▸ hj) (of_decide_eq_true ha)
  | rats => exact inv_finishRats h hx
  | halt => exact inv_finishHalt h x

theorem endExchange_keepsInv {s : State} {x : XResult} (h : Inv s) (hx : FitsBuffer x) : Inv (endExchange x s) := by
  unfold endExchange
  split
  case h_1 hrun =>
    obtain ⟨-, hj, ha⟩ := (runConsistent_await hrun rfl).mp h.running
    exact inv_finish ((executing_of_run h hrun).update (dataOk_update h.dataOk)) rfl hx hj ha
  all_goals exact h

/-! ### The moves of one step -/

/-- `Inv` says nothing of the model's own fields, and of an abort request only that a command executes (10_state.md R41). -/
theorem inv_abortReq_modelFields {s : State} (h : Inv s) (abortReq : Bool) (inbox : List Input) (readData : Option Byte)
    (fresh : Nat) (habort : abortReq = true → s.busy = true) :
    Inv { s with abortReq := abortReq, inbox := inbox, readData := readData, fresh := fresh } :=
  have hrunning := runConsistent_congr (s := s)
    (t := { s with abortReq := abortReq, inbox := inbox, readData := readData, fresh := fresh })
    (fun r d => frameFor_congr r d (txFrame_congr (fun _ => rfl) rfl) rfl rfl) rfl rfl rfl rfl
  ⟨h.memWf, h.memMapped, h.notBusyDone, h.busyRun, hrunning.trans h.running, habort, h.noErrorBusy, h.rxBitsLegal, h.atsLenLegal,
    h.uidLenLegal, h.uidTail⟩

theorem inv_modelFields {s : State} (h : Inv s) (inbox : List Input) (readData : Option Byte) (fresh : Nat) :
    Inv { s with inbox := inbox, readData := readData, fresh := fresh } :=
  inv_abortReq_modelFields h s.abortReq inbox readData fresh h.abortBusy

theorem takeAbort_keepsInv {s : State} (h : Inv s) : Inv (takeAbort s) := by
  unfold takeAbort
  split
  · exact endExchange_keepsInv h trivial
  · exact inv_raise h.dataOk _

theorem answerArrives_keepsInv {s : State} (h : Inv s) (a : Answer) : Inv (answerArrives a s) := by
  have hfresh : Inv { s with fresh := s.fresh + 1 } := inv_modelFields h s.inbox s.readData (s.fresh + 1)
  obtain heq | ⟨-, heq⟩ | ⟨x, -, heq⟩ | ⟨x, -, heq⟩ | ⟨-, heq⟩ := answerArrives_cases a s <;> rw [heq]
  · exact h
  · exact takeAbort_keepsInv h
  · exact endExchange_keepsInv h (fitsBuffer_decodeAnswer x.rxCrc a)
  · exact endExchange_keepsInv hfresh (fitsBuffer_decodeAnswer x.rxCrc a)
  · exact endExchange_keepsInv hfresh trivial

theorem timeoutExpires_keepsInv {s : State} (h : Inv s) : Inv (timeoutExpires s) := by
  obtain heq | ⟨-, heq⟩ | ⟨-, heq⟩ := timeoutExpires_cases s <;> rw [heq]
  · exact h
  · exact takeAbort_keepsInv h
  · exact endExchange_keepsInv h trivial

theorem answerAtTimeout_keepsInv {s : State} (h : Inv s) (a : Answer) : Inv (answerAtTimeout a s) := by
  have hfresh : Inv { s with fresh := s.fresh + 1 } := inv_modelFields h s.inbox s.readData (s.fresh + 1)
  unfold answerAtTimeout
  split
  · exact h
  · split
    · exact timeoutExpires_keepsInv h
    · split
      · exact takeAbort_keepsInv h
      · split
        · exact answerArrives_keepsInv h a
        · split
          · exact answerArrives_keepsInv hfresh a
          · exact timeoutExpires_keepsInv hfresh

theorem nextAttempt_keepsInv {s : State} {r : Run} (h : Inv s) (hr : s.run = some r) (hp : r.point = .pause) :
    Inv (nextAttempt r s) := by
  obtain ⟨attempts, hjob, hxch, -, -⟩ := (runConsistent_pause hr hp).mp h.running
  have hexec := (executing_of_run h hr).update (dataOk_update h.dataOk.clearTransaction)
    (t := { s.clearTransaction with pollCnt := s.pollCnt + 1 })
  exact hexec.inv_transmit hxch (by rw [hjob]; rfl) rfl

/-- While the block is idle no command stands anywhere, so a plain store meets good data only. -/
theorem storeByte_keepsInv {s : State} (h : Inv s) (hidle : s.busy = false) (a : Nat) (v : Byte) : Inv (storeByte a v s) := by
  have hrun : s.run = none := by simpa [hidle] using h.busyRun
  have hxch : s.xch = none := (runConsistent_idle hrun).mp h.running
  have habort : s.abortReq = false := Bool.eq_false_iff.mpr fun ha => by simpa [hidle] using h.abortBusy ha
  have hdata := h.dataOk.storeByte a v
  rw [storeByte_eq] at hdata ⊢
  exact hdata.inv_idle hidle hrun hxch habort

theorem writeAbort_keepsInv {s : State} (h : Inv s) : Inv (writeAbort s) := by
  rw [writeAbort_eq]
  refine inv_abortReq_modelFields h (s.busy || s.abortReq) s.inbox s.readData s.fresh fun habort => ?_
  exact (Bool.or_eq_true _ _ ▸ habort).elim id h.abortBusy

theorem clearAll_inv (s : State) : Inv s.clearAll := (DataOk.clearAll s).inv_idle rfl rfl rfl rfl

theorem moveOf_keepsInv {s t : State} (h : Inv s) (hm : MoveOf s t) : Inv t := by
  cases hm with
  | stutter => exact h
  | send r d hs => exact sendDue_keepsInv h hs
  | resume r hr hp => exact nextAttempt_keepsInv h hr hp
  | timeout => exact timeoutExpires_keepsInv h
  | answer a => exact answerArrives_keepsInv h a
  | answerAtTimeout a => exact answerAtTimeout_keepsInv h a
  | reset => exact clearAll_inv s
  | store a v hidle => exact storeByte_keepsInv h hidle a v
  | abortWrite => exact writeAbort_keepsInv h
  | read v n => exact inv_modelFields h s.inbox (some v) n
  | undefined op hidle => exact inv_raise (h.dataOk.accept op) .commandNotSupported
  | command i t hk ht => exact exec_hostCommand_keepsInv hk h ht

/-- Settles O56, move by move. -/
theorem stepKeepsTheInvariant : Obligations.StepKeepsTheInvariant := by
  unfold Obligations.StepKeepsTheInvariant
  intro s t h ht
  obtain ⟨-, -, rfl⟩ | ⟨rest, hm⟩ := step_move ht
  · exact takeAbort_keepsInv h
  · exact moveOf_keepsInv (inv_modelFields h rest s.readData s.fresh) hm

end Sys2Proof.Proofs.WellFormedSteps

/-! The decoder and the encoder of 30_encoding.md: a round trip in each direction, and the line frame of an awaited row. -/

namespace Sys2Proof.Proofs.Encoding

open Sys2Proof Sys2Proof.Machine

/-! ### Decode of encode, by kind of encoding -/

/-- The opcode alone selects the command, so each of the 25 rows is looked up in the map (30_encoding.md R82). -/
theorem decode_encode_hostCommand {i : Instr} (hk : i.kind = .hostCommand) : decode .hostCommand (encode i) = .instr i := by
  cases i with
  | reqa | wupa | wake40 | anticollCl1 | anticollCl2 | anticollCl3 | selectCl1 | selectCl2 | selectCl3 => cases hk
  | halt | rats | magic43 | magic41 | atqa | anticollAnswer | sakAnswer | ratsAnswer => cases hk
  | _ => rfl

theorem levelOfSelCode_selCode (n : Level) : levelOfSelCode (selCode n) = some n := by cases n <;> rfl

/-- The first byte names the level, once the CRC_A is seen to be that of the frame (30_encoding.md R90). -/
theorem decodeTransmit_selectFrame (n : Level) (u0 u1 u2 u3 bcc : Byte) :
    decodeTransmit (selectFrame n u0 u1 u2 u3 bcc) = .instr (selectOf u0 u1 u2 u3 bcc n) := by
  show decodeSelect (selCode n) 0x70 u0 u1 u2 u3 bcc (loByte _) (hiByte _) = _
  rw [decodeSelect, if_pos rfl, if_pos ((crcBytes_eq_iff _ _ _).mpr ⟨rfl, rfl⟩), levelOfSelCode_selCode]
  cases n <;> rfl

/-- With its right CRC_A, a four-byte frame that begins with 0xE0 is a RATS (30_encoding.md R92). -/
theorem decodeTransmit_ratsFrame (param : Byte) : decodeTransmit (ratsFrame param) = .instr (.rats param) := by
  show decodeHaltRats 0xE0 param (loByte _) (hiByte _) = _
  rw [decodeHaltRats, if_pos ((crcBytes_eq_iff _ _ _).mpr ⟨rfl, rfl⟩), if_pos rfl]

theorem decode_encode_transmit {i : Instr} (hk : i.kind = .transmit) : decode .transmit (encode i) = .instr i := by
  cases i with
  | reqa | wupa | wake40 | anticollCl1 | anticollCl2 | anticollCl3 | halt | magic43 | magic41 => decide
  | selectCl1 u0 u1 u2 u3 bcc => exact decodeTransmit_selectFrame .cl1 u0 u1 u2 u3 bcc
  | selectCl2 u0 u1 u2 u3 bcc => exact decodeTransmit_selectFrame .cl2 u0 u1 u2 u3 bcc
  | selectCl3 u0 u1 u2 u3 bcc => exact decodeTransmit_selectFrame .cl3 u0 u1 u2 u3 bcc
  | rats param => exact decodeTransmit_ratsFrame param
  | _ => cases hk

theorem decodeSakAnswer_frame (sak : Byte) : decodeSakAnswer (frameWithCrcA [sak]) = .instr (.sakAnswer sak) :=
  if_pos ((crcBytes_eq_iff _ _ _).mpr ⟨rfl, rfl⟩)

/-- With its right CRC_A, a RATS answer is accepted exactly where its first byte counts itself and the ATS (30_encoding.md R97). -/
theorem decodeRatsAnswer_frame (tl : Byte) (ats : List Byte) : decodeRatsAnswer (frameWithCrcA (tl :: ats)) =
    if tl.toNat = ats.length + 1 then .instr (.ratsAnswer ats) else .rejected .badLengthByte := by
  have hlen : (tl :: ats ++ crcBytes (Machine.crcA (tl :: ats))).length - 2 = (tl :: ats).length := by
    rw [List.length_append, crcBytes_length, Nat.add_sub_cancel]
  simp only [decodeRatsAnswer, frameWithCrcA, byteFrame, hlen, List.take_left', List.drop_left', if_true]

/-- The length byte of at most 254 ATS bytes holds their number and one more (30_encoding.md R97). -/
theorem lengthByte_toNat {ats : List Byte} (h : ats.length ≤ 254) : (BitVec.ofNat 8 (ats.length + 1)).toNat = ats.length + 1 := by
  rw [BitVec.toNat_ofNat, Nat.mod_eq_of_lt (by omega)]

theorem decode_encode_ratsAnswer {ats : List Byte} (h : ats.length ≤ 254) :
    decode .ratsAnswer (encode (.ratsAnswer ats)) = .instr (.ratsAnswer ats) := by
  show decodeRatsAnswer (frameWithCrcA (BitVec.ofNat 8 (ats.length + 1) :: ats)) = _
  rw [decodeRatsAnswer_frame, if_pos (lengthByte_toNat h)]

/-- A received-frame row is accepted where a frame of its kind is awaited; only the RATS answer can be too long. -/
theorem decode_encode_received {i : Instr} (hwf : i.wellFormed = true) (hk : receivedKind i.kind = true) :
    decode i.kind (encode i) = .instr i := by
  cases i with
  | atqa a0 a1 => rfl
  | anticollAnswer u0 u1 u2 u3 bcc => rfl
  | sakAnswer sak => exact decodeSakAnswer_frame sak
  | ratsAnswer ats => exact decode_encode_ratsAnswer (of_decide_eq_true hwf)
  | _ => cases hk

/-- Settles O51, by kind of encoding: a command word, a transmitted frame, a received frame. -/
theorem decodeInvertsEncode : Obligations.DecodeInvertsEncode := by
  unfold Obligations.DecodeInvertsEncode
  intro i hwf
  cases hk : i.kind with
  | hostCommand => exact decode_encode_hostCommand hk
  | transmit => exact decode_encode_transmit hk
  | atqa | anticollAnswer | sakAnswer | ratsAnswer =>
    rw [← hk]
    exact decode_encode_received hwf (by rw [hk]; rfl)

/-- Settles O50, the words being literals: the decoder is run on each. -/
theorem writtenWordsDecode : Obligations.WrittenWordsDecode := by
  unfold Obligations.WrittenWordsDecode
  decide

/-! ### Encode of decode, for a received frame -/

theorem frame_eq {f g : Frame} (hbytes : f.bytes = g.bytes) (hnbits : f.nbits = g.nbits) : f = g := by
  cases f
  cases g
  cases hbytes
  cases hnbits
  rfl

theorem encode_of_decodeAtqa {f : Frame} {i : Instr} (h : decodeAtqa f = .instr i) : encode i = f := by
  unfold decodeAtqa at h
  split at h
  case h_1 hbits hbytes =>
    cases h
    exact frame_eq hbytes.symm hbits.symm
  case h_2 => cases h

theorem encode_of_decodeAnticollAnswer {f : Frame} {i : Instr} (h : decodeAnticollAnswer f = .instr i) : encode i = f := by
  unfold decodeAnticollAnswer at h
  split at h
  case h_1 hbits hbytes =>
    cases h
    exact frame_eq hbytes.symm hbits.symm
  case h_2 => cases h

theorem encode_of_decodeSakAnswer {f : Frame} {i : Instr} (h : decodeSakAnswer f = .instr i) : encode i = f := by
  unfold decodeSakAnswer at h
  split at h
  case h_1 sak c0 c1 hbits hbytes =>
    split at h
    case isTrue hcrc =>
      cases h
      have hframe : sak :: crcBytes (Machine.crcA [sak]) = f.bytes := by rw [← hcrc]; exact hbytes.symm
      exact frame_eq hframe hbits.symm
    case isFalse => cases h
  case h_2 => cases h

theorem encode_of_decodeRatsAnswer {f : Frame} {i : Instr} (h : decodeRatsAnswer f = .instr i) : encode i = f := by
  obtain ⟨bytes, nbits⟩ := f
  unfold decodeRatsAnswer at h
  split at h
  case isFalse => cases h
  case isTrue hbits =>
    simp only at h hbits
    split at h
    case isFalse => cases h
    case isTrue hcrc =>
      split at h
      case h_1 => cases h
      case h_2 tl ats hpayload =>
        split at h
        case isFalse => cases h
        case isTrue htl =>
          cases h
          have hbyte : BitVec.ofNat 8 (ats.length + 1) = tl := by rw [← htl, BitVec.ofNat_toNat, BitVec.setWidth_eq]
          have hbytes : tl :: ats ++ crcBytes (Machine.crcA (tl :: ats)) = bytes := by
            rw [← hpayload, ← hcrc, List.take_append_drop]
          show byteFrame (BitVec.ofNat 8 (ats.length + 1) :: ats ++ crcBytes _) = _
          rw [hbyte, hbytes, hbits, byteFrame]

/-- Where a kind of answer is awaited, a frame read as a row is that row's own frame. -/
theorem encode_of_decode_received {k : FrameKind} {f : Frame} {i : Instr} (hk : receivedKind k = true)
    (h : decode k f = .instr i) : encode i = f := by
  cases k with
  | hostCommand | transmit => cases hk
  | atqa => exact encode_of_decodeAtqa h
  | anticollAnswer => exact encode_of_decodeAnticollAnswer h
  | sakAnswer => exact encode_of_decodeSakAnswer h
  | ratsAnswer => exact encode_of_decodeRatsAnswer h

/-! ### The line frame of a received row -/

theorem decodeGroups_byteFrame (bytes : List Byte) : decodeGroups (frameLine (byteFrame bytes)) = .ok (byteFrame bytes) := by
  induction bytes with
  | nil => rfl
  | cons b bs ih =>
    have hgroup : frameLine (byteFrame (b :: bs)) = byteBits b ++ par b :: frameLine (byteFrame bs) :=
      lineEncode_group b bs (8 * (bs.length + 1)) (by omega)
    rw [hgroup, decodeGroups_group, ih, consByte_ok]
    simp only [byteFrame, List.length_cons, XResult.ok.injEq, Frame.mk.injEq, true_and]
    omega

/-- Nine line bits for each byte, its parity bit included (42_bit_transceive.md R165). -/
theorem frameLine_byteFrame_length (bytes : List Byte) : (frameLine (byteFrame bytes)).length = 9 * bytes.length := by
  have hshape : bytes.length = ceil8 (8 * bytes.length) := by unfold ceil8; omega
  show (lineEncode bytes (8 * bytes.length)).length = _
  rw [lineEncode_length _ _ hshape]
  omega

/-- A frame of whole bytes that fits the buffer comes back from its line frame (42_bit_transceive.md R166). -/
theorem lineDecode_byteFrame {bytes : List Byte} (h : bytes.length ≤ 264) :
    lineDecode (frameLine (byteFrame bytes)) = .ok (byteFrame bytes) := by
  rw [lineDecode, frameLine_byteFrame_length, if_neg (by omega), if_neg (by unfold Config.maxFrameLen; omega),
    decodeGroups_byteFrame]

theorem byteBits_eq_map (b : Byte) : byteBits b = (List.range 8).map b.getLsbD := rfl

/-- At most eight line bits are the low bits of the byte they make up (42_bit_transceive.md R166). -/
theorem take_byteBits_bitsToByte {l : List Bool} (h : l.length ≤ 8) : (byteBits (bitsToByte l)).take l.length = l := by
  rw [byteBits_eq_map]
  refine List.ext_getElem ?_ fun k _ hk => ?_
  · rw [List.length_take, List.length_map, List.length_range, Nat.min_eq_left h]
  · rw [List.getElem_take, List.getElem_map, List.getElem_range, bitsToByte_bit l h k (by omega), List.getD_eq_getElem?_getD,
      List.getElem?_eq_getElem hk, Option.getD_some]

/-- A byte and the parity bit checked are nine line bits again. -/
theorem frameLine_consByte {b : Byte} {x : XResult} {f : Frame} (h : consByte b x = .ok f) :
    ∃ g, x = .ok g ∧ frameLine f = byteBits b ++ par b :: frameLine g := by
  cases x with
  | err e => cases h
  | ok g =>
    cases h
    refine ⟨g, rfl, ?_⟩
    rw [frameLine, lineEncode_group b g.bytes _ (by simp only; omega), Nat.add_sub_cancel_left]
    rfl

/-- What holds no nine-bit group and is not empty is the short rest of a line frame. -/
theorem length_lt_nine {l : LineBits}
    (h : ∀ x0 x1 x2 x3 x4 x5 x6 x7 p rest, l = x0 :: x1 :: x2 :: x3 :: x4 :: x5 :: x6 :: x7 :: p :: rest → False) :
    l.length < 9 := by
  refine Nat.lt_of_not_le fun hnine => ?_
  obtain ⟨n, hn⟩ := Nat.exists_eq_add_of_le' hnine
  match l, hn with
  | x0 :: x1 :: x2 :: x3 :: x4 :: x5 :: x6 :: x7 :: p :: rest, _ => exact h x0 x1 x2 x3 x4 x5 x6 x7 p rest rfl

theorem frameLine_of_decodeGroups {bits : LineBits} {f : Frame} (hlen : bits.length % 9 ≠ 8) (h : decodeGroups bits = .ok f) :
    frameLine f = bits := by
  induction bits using decodeGroups.induct generalizing f with
  | case1 x0 x1 x2 x3 x4 x5 x6 x7 rest b =>
    rename_i ih
    rw [decodeGroups, if_pos rfl] at h
    obtain ⟨g, hg, hline⟩ := frameLine_consByte h
    have hbits : byteBits (bitsToByte [x0, x1, x2, x3, x4, x5, x6, x7]) = [x0, x1, x2, x3, x4, x5, x6, x7] :=
      take_byteBits_bitsToByte (l := [x0, x1, x2, x3, x4, x5, x6, x7]) (Nat.le_refl 8)
    rw [hline, hbits, ih (by simp only [List.length_cons] at hlen; omega) hg]
    rfl
  | case2 x0 x1 x2 x3 x4 x5 x6 x7 p rest b =>
    rename_i hp
    rw [decodeGroups, if_neg hp] at h
    cases h
  | case3 =>
    cases h
    rfl
  | case4 rest hnine hnil =>
    rw [decodeGroups.eq_3 rest hnine hnil] at h
    cases h
    have hshort : rest.length < 8 := by have := length_lt_nine hnine; omega
    rw [frameLine, lineEncode_partial _ _ _ hshort, take_byteBits_bitsToByte (Nat.le_of_lt hshort)]

theorem frameLine_of_lineDecode {bits : LineBits} {f : Frame} (h : lineDecode bits = .ok f) : frameLine f = bits := by
  unfold lineDecode at h
  split at h
  · cases h
  · split at h
    · cases h
    · exact frameLine_of_decodeGroups ‹_› h

/-! ### Which rows are awaited -/

theorem receivedKind_of_awaitedKind {s : State} {k : FrameKind} (h : awaitedKind s = some k) : receivedKind k = true := by
  unfold awaitedKind at h
  split at h <;> cases h <;> rfl

theorem receivedInstr_eq_some {s : State} {k : FrameKind} {bits : LineBits} {i : Instr} (hk : awaitedKind s = some k) :
    receivedInstr s bits = some i ↔ ∃ f, lineDecode bits = .ok f ∧ decode k f = .instr i := by
  unfold receivedInstr
  rw [hk]
  cases lineDecode bits with
  | err e => simp
  | ok f =>
    simp only [XResult.ok.injEq, exists_eq_left']
    exact ⟨decoded_toOption, fun h => by rw [h]; rfl⟩

/-- A received-frame row is whole bytes, at most the 257 of the longest RATS answer (30_encoding.md R94 to R97). -/
theorem encode_received_byteFrame {i : Instr} (hwf : i.wellFormed = true) (hk : receivedKind i.kind = true) :
    ∃ bytes, encode i = byteFrame bytes ∧ bytes.length ≤ 264 := by
  cases i with
  | atqa a0 a1 => exact ⟨[a0, a1], rfl, by simp⟩
  | anticollAnswer u0 u1 u2 u3 bcc => exact ⟨[u0, u1, u2, u3, bcc], rfl, by simp⟩
  | sakAnswer sak => exact ⟨[sak] ++ crcBytes (Machine.crcA [sak]), rfl, by simp⟩
  | ratsAnswer ats =>
    have hlen : ats.length ≤ 254 := of_decide_eq_true hwf
    refine ⟨_, rfl, ?_⟩
    rw [List.length_append, crcBytes_length, List.length_cons]
    omega
  | _ => cases hk

theorem lineDecode_encode_received {i : Instr} (hwf : i.wellFormed = true) (hk : receivedKind i.kind = true) :
    lineDecode (frameLine (encode i)) = .ok (encode i) := by
  obtain ⟨bytes, hbytes, hlen⟩ := encode_received_byteFrame hwf hk
  rw [hbytes, lineDecode_byteFrame hlen]

/-- Settles O52: the line coding and the encoding are both undone, in one direction and in the other. -/
theorem awaitedRowsAreRecognised : Obligations.AwaitedRowsAreRecognised := by
  unfold Obligations.AwaitedRowsAreRecognised
  intro s k hk
  have hreceived := receivedKind_of_awaitedKind hk
  refine ⟨fun i hwf hkind => ?recognised, fun bits i h => ?own⟩
  case recognised =>
    subst hkind
    exact (receivedInstr_eq_some hk).mpr ⟨encode i, lineDecode_encode_received hwf hreceived, decode_encode_received hwf hreceived⟩
  case own =>
    obtain ⟨f, hf, hi⟩ := (receivedInstr_eq_some hk).mp h
    rw [encode_of_decode_received hreceived hi, frameLine_of_lineDecode hf]

end Sys2Proof.Proofs.Encoding

/-! Which instruction a step runs (30_encoding.md R80, R83, R84, 42_bit_transceive.md R163). -/

namespace Sys2Proof.Proofs.DecodedSteps

open Sys2Proof Sys2Proof.Machine Sys2Proof.Proofs.BusyBlock Sys2Proof.Proofs.Encoding
open Sys2Proof.Proofs.WellFormedSteps (frameFor_congr txFrame_congr)

/-! ### A write to `CMD` -/

theorem issueCommand_decoded {s : State} {op : Byte} {i : Instr} (h : decode .hostCommand (commandWord op s.p0 s.p1) = .instr i) :
    issueCommand op s = exec i s := by
  simp only [issueCommand, h]

theorem issueCommand_rejected {s : State} {op : Byte} {r : Reject}
    (h : decode .hostCommand (commandWord op s.p0 s.p1) = .rejected r) :
    issueCommand op s = issue op (fun s => s.raise .commandNotSupported) s := by
  simp only [issueCommand, h]

/-- The opcodes that the map leaves out (30_encoding.md R83). -/
def undefinedOpcode (op : Byte) : Prop :=
  (0x03 ≤ op.toNat ∧ op.toNat ≤ 0x0F) ∨ (0x17 ≤ op.toNat ∧ op.toNat ≤ 0x1F) ∨ (0x2A ≤ op.toNat ∧ op.toNat ≤ 0x2F)
    ∨ (0x32 ≤ op.toNat ∧ op.toNat ≤ 0x3F) ∨ 0x43 ≤ op.toNat

theorem decodeOpcode_undefined {op : Byte} (h : undefinedOpcode op) (p0 p1 : Byte) :
    decodeOpcode op p0 p1 = .rejected (.undefinedOpcode op) := by
  unfold undefinedOpcode at h
  unfold decodeOpcode
  split
  case h_26 => rfl
  all_goals omega

/-- Settles O46: the opcode is rejected, so the command is accepted and raises. -/
theorem undefinedOpcodeIsNotSupported : Obligations.UndefinedOpcodeIsNotSupported := by
  unfold Obligations.UndefinedOpcodeIsNotSupported
  intro s op hidle hop
  have hrejected : decode .hostCommand (commandWord op s.p0 s.p1) = .rejected (.undefinedOpcode op) :=
    decodeOpcode_undefined hop s.p0 s.p1
  rw [hostWrites_cmd, issueCommand_rejected hrejected, issue_idle hidle, raise_accept]

/-! ### The block's own move and an answer -/

theorem ownMove_sends {s : State} {r : Run} {d : Due} (h : Sends s r d) : ownMove s = runDueFrame s := by
  obtain ⟨hrun, hpoint⟩ := h
  obtain ⟨job, point, timeout, ratsParam⟩ := r
  simp only at hpoint
  subst hpoint
  simp only [ownMove, hrun]

theorem silentMove_sends {s : State} {r : Run} {d : Due} (h : Sends s r d) : silentMove s = ownMove s := by
  obtain ⟨hrun, hpoint⟩ := h
  obtain ⟨job, point, timeout, ratsParam⟩ := r
  simp only at hpoint
  subst hpoint
  simp only [silentMove, hrun]

/-- While a frame is due, the block's own move comes where it is the next entry and where the inbox is empty. -/
theorem step_sends {s : State} {r : Run} {d : Due} {rest : List Input}
    (hin : s.inbox = .proceed :: rest ∨ (s.inbox = [] ∧ rest = [])) (h : Sends s r d) :
    step s = runDueFrame { s with inbox := rest } := by
  have hwait : (s.abortReq && waiting s) = false := by rw [waiting_sends h, Bool.and_false]
  have hown : ownMove { s with inbox := rest } = runDueFrame { s with inbox := rest } := ownMove_sends h
  obtain hproceed | ⟨hempty, rfl⟩ := hin
  · rw [step_makeMove hproceed hwait, makeMove, hown]
  · have hsame : { s with inbox := [] } = s := by rw [← hempty]
    rw [step_silent hempty hwait, silentMove_sends h, ← hown, hsame]

/-- The moves still to come are no part of the frame that is due. -/
theorem dueFrame_inbox {s : State} {r : Run} {d : Due} (h : Sends s r d) (rest : List Input) :
    dueFrame { s with inbox := rest } = dueFrame s := by
  have hsends : Sends { s with inbox := rest } r d := h
  rw [dueFrame_sends h, dueFrame_sends hsends]
  exact congrArg some (frameFor_congr r d (txFrame_congr (fun _ => rfl) rfl) rfl rfl)

theorem runDueFrame_decoded {s : State} {f : Frame} {i : Instr} (hf : dueFrame s = some f) (hi : decode .transmit f = .instr i) :
    runDueFrame s = exec i s := by
  simp only [runDueFrame, hf, hi]

theorem answerMove_received {s : State} {bits : LineBits} {i : Instr} (h : receivedInstr s bits = some i) :
    answerMove (.line bits) s = exec i s := by
  simp only [answerMove, h]

/-- Settles O44, by the place the instruction comes from: the host port, the frame due, the answer awaited. -/
theorem stepRunsTheDecodedInstruction : Obligations.StepRunsTheDecodedInstruction := by
  unfold Obligations.StepRunsTheDecodedInstruction
  refine fun s i rest => ⟨fun op hin hwait hi => ?command, fun f d r hin hs hf hi => ?due,
    fun bits f k hin hwait hk hf hi => ?received⟩
  case command =>
    rw [step_makeMove hin hwait]
    exact issueCommand_decoded hi
  case due =>
    rw [step_sends hin hs]
    exact runDueFrame_decoded ((dueFrame_inbox hs rest).trans hf) hi
  case received =>
    rw [step_makeMove hin hwait]
    exact answerMove_received ((receivedInstr_eq_some hk).mpr ⟨f, hf, hi⟩)

end Sys2Proof.Proofs.DecodedSteps

/-! The source select (30_encoding.md R81). -/

namespace Sys2Proof.Proofs.SourceSelect

open Sys2Proof Sys2Proof.Machine

/-- A byte read back from a list of consecutive buffer bytes. -/
theorem bufBytes_getD_of_lt {s : State} {a n i : Nat} (h : i < (s.bufBytes a n).length) :
    (s.bufBytes a n).getD i 0 = s.bufByte (a + i) :=
  bufBytes_getD s a n i (by rwa [bufBytes_length] at h)

/-- Settles O4: each source is a list of consecutive bytes of its buffer. -/
theorem sourceSelectNamesTheFrame : Obligations.SourceSelectNamesTheFrame := by
  unfold Obligations.SourceSelectNamesTheFrame
  intro s
  refine ⟨⟨txFrame s, rfl, rfl, bufBytes_length .., fun i hi => ?tx⟩, ⟨rxFrame s, rfl, rfl, bufBytes_length .., fun i hi => ?rx⟩,
    ⟨atsFrame s, rfl, rfl, bufBytes_length .., fun i hi => ?ats⟩, fun src hsrc => source_none.mpr hsrc⟩
  case tx => exact bufBytes_getD_of_lt hi
  case rx => exact bufBytes_getD_of_lt hi
  case ats => exact bufBytes_getD_of_lt hi

end Sys2Proof.Proofs.SourceSelect

/-! The host moves of `TXFRAME` (30_encoding.md R101), run one store at a time. -/

namespace Sys2Proof.Proofs.TxFrameMoves

open Sys2Proof Sys2Proof.Machine
open Sys2Proof.Proofs.IdleHostPort (hostWrites_idle storeByte_eq)

/-- With no command in progress and no abort pending, a host write that is next is a plain store. -/
theorem step_store {s : State} {a : Nat} {v : Byte} {rest : List Input} (hidle : s.busy = false) (habort : s.abortReq = false)
    (hin : s.inbox = .hostWrite a v :: rest) (ha : a < Config.hostSpace) (hcmd : a ≠ 0x000) :
    step s = .next (storeByte a v { s with inbox := rest }) := by
  rw [step_makeMove hin (by rw [habort, Bool.false_and])]
  exact hostWrites_idle v hidle ha hcmd

theorem storeByte_tx {a : Nat} (v : Byte) (s : State) (ha : 0x100 ≤ a ∧ a < 0x208) :
    storeByte a v s = { s with mem := Memory.put s.mem a v } := by
  rw [storeByte_eq, if_neg (by omega), if_neg (by omega), if_neg (by omega), if_neg (by omega), if_neg (by omega),
    if_neg (by omega), if_neg (by omega), if_pos ha, halfOf_bytes, halfOf_bytes]

theorem storeByte_txBits (lo hi : Byte) (s : State) :
    storeByte 0x019 hi (storeByte 0x018 lo s) = { s with txBits := halfOf lo hi } := by
  show { s with txBits := halfOf (loByte (halfOf lo (hiByte s.txBits))) hi } = _
  rw [loByte_halfOf]

/-- Byte writes into `TXBUF` store their bytes, one step each. -/
theorem run_writeMoves {s : State} {a : Nat} {bytes : List Byte} {rest : List Input} (k : Nat) (hidle : s.busy = false)
    (habort : s.abortReq = false) (hlo : 0x100 ≤ a) (hhi : a + bytes.length ≤ 0x208)
    (hin : s.inbox = writeMoves a bytes ++ rest) :
    Host.Core.run Sys2Proof.core (k + bytes.length) s
      = Host.Core.run Sys2Proof.core k { s with inbox := rest, mem := Memory.putList s.mem a bytes } := by
  induction bytes generalizing s a with
  | nil =>
    have hsame : s = { s with inbox := rest } := by rw [show rest = s.inbox from hin.symm]
    exact congrArg (Host.Core.run Sys2Proof.core k) hsame
  | cons b bs ih =>
    rw [List.length_cons] at hhi
    have hstep : step s = .next { s with inbox := writeMoves (a + 1) bs ++ rest, mem := Memory.put s.mem a b } := by
      rw [step_store hidle habort hin (by unfold Config.hostSpace; omega) (by omega), storeByte_tx _ _ ⟨hlo, by omega⟩]
      rfl
    exact (run_next _ hstep).trans (ih hidle habort (by omega) (by omega) rfl)

/-- The two writes of `TX_BITS`, low byte first (20_memory.md R64). -/
theorem run_writeHalf_txBits {s : State} {v : Half} {rest : List Input} (hidle : s.busy = false) (habort : s.abortReq = false)
    (hin : s.inbox = writeHalf 0x018 v ++ rest) :
    Host.Core.run Sys2Proof.core 2 s = .next { s with inbox := rest, txBits := v } := by
  have hlow := step_store hidle habort hin (by decide) (by decide)
  have hhigh := step_store (s := storeByte 0x018 (loByte v) { s with inbox := .hostWrite 0x019 (hiByte v) :: rest })
    hidle habort rfl (by decide) (by decide)
  have hboth := storeByte_txBits (loByte v) (hiByte v) { s with inbox := rest }
  rw [halfOf_bytes] at hboth
  exact (run_next 1 hlow).trans ((run_next 0 hhigh).trans (congrArg Host.Outcome.next hboth))

/-- Settles O49: the byte writes into `TXBUF`, then the two of `TX_BITS`. -/
theorem txFrameLoadsTheFrame : Obligations.TxFrameLoadsTheFrame := by
  unfold Obligations.TxFrameLoadsTheFrame
  intro s bytes nbits rest hidle habort hlen _ hin
  rw [expand, List.append_assoc] at hin
  refine ⟨{ s with inbox := rest, txBits := BitVec.ofNat 16 nbits, mem := Memory.putList s.mem 0x100 bytes }, ?run, rfl, ?stores⟩
  case run =>
    rw [Nat.add_comm]
    exact (run_writeMoves (a := 0x100) 2 hidle habort (by omega) (by omega) hin).trans (run_writeHalf_txBits hidle habort rfl)
  case stores => exact bufByte_putList rfl rfl rfl rfl

end Sys2Proof.Proofs.TxFrameMoves

/-! Which instructions write the registers that few commands write (30_encoding.md R82, 10_state.md R25, R26, R30, R35, R36, R40): a
projection of the state to those registers, what each rule does to it, and one statement for all instructions. -/

namespace Sys2Proof.Proofs.RegisterWriters

open Sys2Proof Sys2Proof.Machine Sys2Proof.Proofs.Encoding
open Sys2Proof.Proofs.WellFormedSteps (selectFrame_length ratsFrame_length)

/-! ### The registers -/

/-- The registers that few commands write. -/
structure Registers where
  p0 : Byte
  p1 : Byte
  timeout : Half
  ratsParam : Byte
  cfg : Cfg
  hbOff : Half
  hbLen : Half
  pollCnt : Byte
  crcRes : Half
  sak : Byte

/-- What a state holds in them. -/
def registers (s : State) : Registers :=
  ⟨s.p0, s.p1, s.timeout, s.ratsParam, s.cfg, s.hbOff, s.hbLen, s.pollCnt, s.crcRes, s.sak⟩

/-- What an instruction, INIT_INITIATOR excepted, may write of them. -/
inductive Writes : Instr → Registers → Registers → Prop where
  | nothing {i : Instr} {r : Registers} : Writes i r r
  | cfg {option enabled : Byte} {r : Registers} (cfg : Cfg) : Writes (.configure option enabled) r { r with cfg := cfg }
  | hist {src : Byte} {r : Registers} (off len : Half) : Writes (.locateHist src) r { r with hbOff := off, hbLen := len }
  | crcRes {i : Instr} {r : Registers} (crc : Half) (hi : writesCrcRes i = true) : Writes i r { r with crcRes := crc }
  | parsedSak {src : Byte} {r : Registers} (sak : Byte) : Writes (.parseSak src) r { r with sak := sak }
  | activateSak {wake : Byte} {r : Registers} (sak : Byte) : Writes (.activate wake) r { r with sak := sak }
  | deselectSak {r : Registers} (sak : Byte) : Writes .deselect r { r with sak := sak }
  | receivedSak {i : Instr} {r : Registers} (sak : Byte) (hi : receivedKind i.kind = true) : Writes i r { r with sak := sak }
  | poll {attempts period : Byte} {r : Registers} (cnt sak : Byte) :
    Writes (.poll attempts period) r { r with pollCnt := cnt, sak := sak }

/-! ### The rules of the host commands -/

@[simp] theorem registers_raise (s : State) (e : ErrKind) : registers (s.raise e) = registers s := rfl

@[simp] theorem registers_complete (s : State) : registers s.complete = registers s := rfl

@[simp] theorem registers_accept (s : State) (op : Byte) : registers (s.accept op) = registers s := rfl

theorem registers_clearTransaction (s : State) : registers s.clearTransaction = { registers s with sak := 0x00 } := rfl

@[simp] theorem registers_writeTx (s : State) (k : Nat) (bytes : List Byte) : registers (s.writeTx k bytes) = registers s := rfl

@[simp] theorem registers_putTxFrame (s : State) (f : Frame) : registers (s.putTxFrame f) = registers s := rfl

theorem registers_putCrcFrame (s : State) (f : Frame) :
    registers (s.putCrcFrame f) = { registers s with crcRes := frameCrc f } := rfl

theorem Writes.putTxFrame (i : Instr) (s : State) (f : Frame) : Writes i (registers s) (registers (s.putTxFrame f).complete) := by
  rw [registers_complete, registers_putTxFrame]
  exact .nothing

theorem Writes.putCrcFrame {i : Instr} (hi : writesCrcRes i = true) (s : State) (f : Frame) :
    Writes i (registers s) (registers (s.putCrcFrame f).complete) := by
  rw [registers_complete, registers_putCrcFrame]
  exact .crcRes (frameCrc f) hi

/-- The rule of a command writes nothing else of the registers. -/
def RuleWrites (i : Instr) (rule : State → State) : Prop := ∀ a, Writes i (registers a) (registers (rule a))

theorem writes_issue {i : Instr} {op : Byte} {rule : State → State} {s t : State} (hrule : RuleWrites i rule)
    (h : issue op rule s = .next t) : Writes i (registers s) (registers t) := by
  obtain ⟨-, rfl⟩ := issue_next.mp h
  exact hrule (s.accept op)

theorem configureRule_writes (option enabled : Byte) : RuleWrites (.configure option enabled) (configureRule option enabled) := by
  intro a
  unfold configureRule
  split
  · exact .nothing
  · exact .cfg _

theorem crcRule_writes {i : Instr} (hi : writesCrcRes i = true) (crc : List Byte → Half) (src : Byte) :
    RuleWrites i (crcRule crc src) := by
  intro a
  unfold crcRule
  split
  · exact .nothing
  · exact .crcRes _ hi

theorem crcAppendRule_writes {i : Instr} (hi : writesCrcRes i = true) (crc : List Byte → Half) :
    RuleWrites i (crcAppendRule crc) := by
  intro a
  unfold crcAppendRule
  split
  · exact .nothing
  · simp only
    split
    · exact .nothing
    · exact .crcRes _ hi

theorem crcCheckRule_writes {i : Instr} (hi : writesCrcRes i = true) (crc : List Byte → Half) (src : Byte) :
    RuleWrites i (crcCheckRule crc src) := by
  intro a
  unfold crcCheckRule
  split
  · exact .nothing
  · split
    · exact .nothing
    · exact .crcRes _ hi

theorem locateHistRule_writes (src : Byte) : RuleWrites (.locateHist src) (locateHistRule src) := by
  intro a
  unfold locateHistRule
  split
  · exact .nothing
  · split
    · exact .hist _ _
    · exact .hist _ _

theorem buildFrame_writes (i : Instr) (f : Frame) : RuleWrites i fun s => (s.putTxFrame f).complete :=
  fun a => .putTxFrame i a f

theorem buildCrcFrame_writes {i : Instr} (hi : writesCrcRes i = true) (f : Frame) :
    RuleWrites i fun s => (s.putCrcFrame f).complete := fun a => .putCrcFrame hi a f

theorem buildWupaRule_writes (variant : Byte) : RuleWrites (.buildWupa variant) (buildWupaRule variant) := by
  intro a
  unfold buildWupaRule
  split
  · exact .putTxFrame _ _ _
  · split
    · exact .putTxFrame _ _ _
    · exact .nothing

theorem buildAnticollRule_writes (lvl : Byte) : RuleWrites (.buildAnticoll lvl) (buildAnticollRule lvl) := by
  intro a
  unfold buildAnticollRule
  split
  · exact .nothing
  · exact .putTxFrame _ _ _

theorem buildSelectInPlace_writes (lvl fromRx : Byte) (n : Level) (s : State) :
    Writes (.buildSelect lvl fromRx) (registers s) (registers (buildSelectInPlace n s)) := by
  unfold buildSelectInPlace
  exact .putCrcFrame rfl _ _

theorem buildSelectRule_writes (lvl fromRx : Byte) : RuleWrites (.buildSelect lvl fromRx) (buildSelectRule lvl fromRx) := by
  intro a
  unfold buildSelectRule
  split
  · exact .nothing
  · split
    · split
      · exact .nothing
      · exact buildSelectInPlace_writes lvl fromRx _ (a.writeTx 2 (a.rxBytes 5))
    · split
      · exact buildSelectInPlace_writes lvl fromRx _ a
      · exact .nothing

theorem parseAnticollRule_writes (lvl src : Byte) : RuleWrites (.parseAnticoll lvl src) (parseAnticollRule lvl src) := by
  intro a
  unfold parseAnticollRule
  split
  · exact .nothing
  · split
    · exact .nothing
    · split
      · exact .nothing
      · exact .nothing

theorem parseSakRule_writes (src : Byte) : RuleWrites (.parseSak src) (parseSakRule src) := by
  intro a
  unfold parseSakRule
  split
  · exact .nothing
  · split
    · exact .nothing
    · exact .parsedSak _

theorem assembleUidRule_writes (levels : Byte) : RuleWrites (.assembleUid levels) (assembleUidRule levels) := by
  intro a
  unfold assembleUidRule
  split
  · exact .nothing
  · exact .nothing

theorem xcvBitsRule_writes : RuleWrites .xcvBits xcvBitsRule := by
  intro a
  unfold xcvBitsRule
  split
  · exact .nothing
  · exact .nothing

theorem xcvBytesRule_writes : RuleWrites .xcvBytes xcvBytesRule := by
  intro a
  unfold xcvBytesRule
  split
  · exact .nothing
  · split
    · exact .nothing
    · exact .nothing

theorem activateRule_writes (wake : Byte) : RuleWrites (.activate wake) (activateRule wake) := by
  intro a
  unfold activateRule
  split
  · exact .activateSak _
  · split
    · exact .activateSak _
    · exact .nothing

theorem deselectRule_writes : RuleWrites .deselect deselectRule := by
  intro a
  unfold deselectRule
  split
  · exact .nothing
  · exact .deselectSak _

theorem pollRule_writes (attempts period : Byte) : RuleWrites (.poll attempts period) (pollRule attempts) := by
  intro a
  unfold pollRule
  split
  · exact .nothing
  · exact .poll _ _

theorem writes_hostCommand {i : Instr} {s t : State} (hk : i.kind = .hostCommand) (hi : i ≠ .initInitiator)
    (h : exec i s = .next t) : Writes i (registers s) (registers t) := by
  cases i with
  | nop => exact writes_issue (rule := State.complete) (fun _ => .nothing) h
  | initInitiator => exact absurd rfl hi
  | configure option enabled => exact writes_issue (configureRule_writes option enabled) h
  | crcA src => exact writes_issue (crcRule_writes rfl _ src) h
  | crcB src => exact writes_issue (crcRule_writes rfl _ src) h
  | crcAAppend => exact writes_issue (crcAppendRule_writes rfl _) h
  | crcBAppend => exact writes_issue (crcAppendRule_writes rfl _) h
  | crcACheck src => exact writes_issue (crcCheckRule_writes rfl _ src) h
  | crcBCheck src => exact writes_issue (crcCheckRule_writes rfl _ src) h
  | locateHist src => exact writes_issue (locateHistRule_writes src) h
  | buildReqa => exact writes_issue (buildFrame_writes _ _) h
  | buildWupa variant => exact writes_issue (buildWupaRule_writes variant) h
  | buildAnticoll lvl => exact writes_issue (buildAnticollRule_writes lvl) h
  | buildSelect lvl fromRx => exact writes_issue (buildSelectRule_writes lvl fromRx) h
  | buildHalt => exact writes_issue (buildCrcFrame_writes rfl _) h
  | buildRats param => exact writes_issue (buildCrcFrame_writes rfl _) h
  | bccCalc => exact writes_issue (rule := bccCalcRule) (fun _ => .nothing) h
  | parseAnticoll lvl src => exact writes_issue (parseAnticollRule_writes lvl src) h
  | parseSak src => exact writes_issue (parseSakRule_writes src) h
  | assembleUid levels => exact writes_issue (assembleUidRule_writes levels) h
  | xcvBits => exact writes_issue xcvBitsRule_writes h
  | xcvBytes => exact writes_issue xcvBytesRule_writes h
  | activate wake => exact writes_issue (activateRule_writes wake) h
  | deselect => exact writes_issue deselectRule_writes h
  | poll attempts period => exact writes_issue (pollRule_writes attempts period) h
  | _ => cases hk

/-! ### The transmit step -/

/-- The exchanges whose frame carries a CRC (43_activation.md R201, R207, R213). -/
def carriesCrc : Due → Bool
  | .select _ | .rats | .halt => true
  | .raw | .wake | .anticoll _ => false

theorem registers_prepareSend_plain {d : Due} (h : carriesCrc d = false) (f : Frame) (s : State) :
    registers (prepareSend d f s) = registers s := by
  cases d with
  | raw | wake | anticoll => simp [prepareSend, registers]
  | select | rats | halt => cases h

theorem registers_prepareSend_crc {d : Due} (h : carriesCrc d = true) (f : Frame) (s : State) :
    registers (prepareSend d f s) = { registers s with crcRes := frameCrc f } := by
  cases d with
  | raw | wake | anticoll => cases h
  | select | rats | halt => simp [prepareSend, registers]

theorem registers_sendDue {s : State} {r : Run} {d : Due} (h : Sends s r d) :
    registers (sendDue s) = registers (prepareSend d (frameFor r d s) s) := by
  rw [sendDue_sends h]
  rfl

theorem frameLine_length_of_four {bytes : List Byte} (h : 4 ≤ bytes.length) : 36 ≤ (frameLine (byteFrame bytes)).length := by
  rw [frameLine_byteFrame_length]
  omega

/-- A frame that the sequencer sends with a CRC has at least four bytes. -/
theorem frameLine_length_of_carriesCrc {d : Due} (h : carriesCrc d = true) (r : Run) (s : State) :
    36 ≤ (frameLine (frameFor r d s)).length := by
  cases d with
  | raw | wake | anticoll => cases h
  | select n =>
    have hnine : 4 ≤ (asmSelectFrame n s).bytes.length := by rw [asmSelectFrame, selectFrame_length]; omega
    exact frameLine_length_of_four hnine
  | rats =>
    have hfour : 4 ≤ (ratsFrame r.ratsParam).bytes.length := Nat.le_of_eq (ratsFrame_length r.ratsParam).symm
    exact frameLine_length_of_four hfour
  | halt =>
    have hfour : 4 ≤ haltFrame.bytes.length := by decide
    exact frameLine_length_of_four hfour

/-- A transmitted-frame row that carries no CRC has at most two bytes (30_encoding.md R86 to R89, R93). -/
theorem frameLine_length_of_plain {i : Instr} (hk : i.kind = .transmit) (hi : writesCrcRes i = false) :
    (frameLine (encode i)).length ≤ 18 := by
  cases i with
  | reqa | wupa | wake40 | anticollCl1 | anticollCl2 | anticollCl3 | magic43 | magic41 => decide
  | selectCl1 | selectCl2 | selectCl3 | halt | rats => cases hi
  | _ => cases hk

/-- A row is sent only where its own line frame is due, so one without a CRC is not sent by an exchange that carries one. -/
theorem writes_transmit {i : Instr} {s t : State} (hk : i.kind = .transmit) (h : exec i s = .next t) :
    Writes i (registers s) (registers t) := by
  rw [exec_transmit hk, sendFrame_next] at h
  obtain ⟨⟨g, hg, hline⟩, rfl⟩ := h
  obtain ⟨r, d, hs⟩ := dueFrame_some hg
  rw [dueFrame_sends hs] at hg
  cases hg
  rw [registers_sendDue hs]
  cases hd : carriesCrc d with
  | false =>
    rw [registers_prepareSend_plain hd]
    exact .nothing
  | true =>
    rw [registers_prepareSend_crc hd]
    have hcrc : writesCrcRes i = true := by
      cases hplain : writesCrcRes i with
      | true => rfl
      | false =>
        have hlong := frameLine_length_of_carriesCrc hd r s
        have hshort := frameLine_length_of_plain hk hplain
        rw [hline] at hlong
        omega
    exact .crcRes _ hcrc

/-! ### The end of an exchange -/

/-- Of the registers, nothing but `SAK` is written. -/
def KeepsButSak (s t : State) : Prop := registers t = { registers s with sak := t.sak }

theorem finishRaw_keepsButSak (r : Run) (x : XResult) (s : State) : KeepsButSak s (finishRaw r x s) := by
  unfold finishRaw
  split
  · rfl
  · split
    · rfl
    · rfl

theorem wakeSilence_keepsButSak (r : Run) (s : State) : KeepsButSak s (wakeSilence r s) := by
  unfold wakeSilence
  split
  case h_1 =>
    split
    · rfl
    · rfl
  all_goals rfl

theorem finishWake_keepsButSak (r : Run) (x : XResult) (s : State) : KeepsButSak s (finishWake r x s) := by
  unfold finishWake
  split
  · split
    · exact wakeSilence_keepsButSak r s
    · rfl
  · split
    · rfl
    · rfl

theorem finishAnticoll_keepsButSak (n : Level) (r : Run) (x : XResult) (s : State) : KeepsButSak s (finishAnticoll n r x s) := by
  unfold finishAnticoll
  split
  · simp [KeepsButSak, registers]
  · split
    · simp [KeepsButSak, registers]
    · simp [KeepsButSak, registers]

theorem nextLevel_keepsButSak (n : Level) (r : Run) (s : State) : KeepsButSak s (nextLevel n r s) := by
  unfold nextLevel
  split
  · rfl
  · rfl

theorem finalLevel_keepsButSak (n : Level) (r : Run) (s : State) : KeepsButSak s (finalLevel n r s) := by
  unfold finalLevel
  split
  · rfl
  · rfl

theorem finishSelect_keepsButSak (n : Level) (r : Run) (x : XResult) (s : State) : KeepsButSak s (finishSelect n r x s) := by
  unfold finishSelect
  split
  case h_1 => rfl
  case h_2 f =>
    split
    · rfl
    · split
      · exact nextLevel_keepsButSak n r (s.landSak f)
      · exact finalLevel_keepsButSak n r (s.landSak f)

theorem finishRats_keepsButSak (x : XResult) (s : State) : KeepsButSak s (finishRats x s) := by
  unfold finishRats
  split
  · rfl
  · split
    · rfl
    · rfl

theorem finishHalt_keepsButSak (x : XResult) (s : State) : KeepsButSak s (finishHalt x s) := by
  unfold finishHalt
  split
  · split
    · simp [KeepsButSak, registers]
    · simp [KeepsButSak, registers]
  · simp [KeepsButSak, registers]

theorem finish_keepsButSak (r : Run) (d : Due) (x : XResult) (s : State) : KeepsButSak s (finish r d x s) := by
  cases d with
  | raw => exact finishRaw_keepsButSak r x s
  | wake => exact finishWake_keepsButSak r x s
  | anticoll n => exact finishAnticoll_keepsButSak n r x s
  | select n => exact finishSelect_keepsButSak n r x s
  | rats => exact finishRats_keepsButSak x s
  | halt => exact finishHalt_keepsButSak x s

theorem endExchange_keepsButSak (x : XResult) (s : State) : KeepsButSak s (endExchange x s) := by
  unfold endExchange
  split
  case h_1 => exact finish_keepsButSak _ _ x { s with xch := none }
  all_goals rfl

theorem takeAbort_keepsButSak (s : State) : KeepsButSak s (takeAbort s) := by
  unfold takeAbort
  split
  · exact endExchange_keepsButSak _ s
  · rfl

theorem answerArrives_keepsButSak (a : Answer) (s : State) : KeepsButSak s (answerArrives a s) := by
  obtain heq | ⟨-, heq⟩ | ⟨x, -, heq⟩ | ⟨x, -, heq⟩ | ⟨-, heq⟩ := answerArrives_cases a s <;> rw [heq]
  · rfl
  · exact takeAbort_keepsButSak s
  · exact endExchange_keepsButSak _ s
  · exact endExchange_keepsButSak _ { s with fresh := s.fresh + 1 }
  · exact endExchange_keepsButSak _ { s with fresh := s.fresh + 1 }

theorem writes_received {i : Instr} {s t : State} (hk : receivedKind i.kind = true) (h : exec i s = .next t) :
    Writes i (registers s) (registers t) := by
  rw [exec_received hk] at h
  cases h
  rw [answerArrives_keepsButSak]
  exact .receivedSak _ hk

/-! ### All instructions -/

theorem exec_writes {i : Instr} {s t : State} (h : exec i s = .next t) (hi : i ≠ .initInitiator) :
    Writes i (registers s) (registers t) := by
  cases hk : i.kind with
  | hostCommand => exact writes_hostCommand hk hi h
  | transmit => exact writes_transmit hk h
  | atqa | anticollAnswer | sakAnswer | ratsAnswer => exact writes_received (by rw [hk]; rfl) h

section

variable {i : Instr} {r r' : Registers}

theorem Writes.operands (h : Writes i r r') :
    r'.p0 = r.p0 ∧ r'.p1 = r.p1 ∧ r'.timeout = r.timeout ∧ r'.ratsParam = r.ratsParam := by
  cases h <;> exact ⟨rfl, rfl, rfl, rfl⟩

theorem Writes.cfg_of_ne (h : Writes i r r') (hi : ∀ option enabled, i ≠ .configure option enabled) : r'.cfg = r.cfg := by
  cases h with
  | cfg => exact absurd rfl (hi _ _)
  | _ => rfl

theorem Writes.hist_of_ne (h : Writes i r r') (hi : ∀ src, i ≠ .locateHist src) :
    r'.hbOff = r.hbOff ∧ r'.hbLen = r.hbLen := by
  cases h with
  | hist => exact absurd rfl (hi _)
  | _ => exact ⟨rfl, rfl⟩

theorem Writes.pollCnt_of_ne (h : Writes i r r') (hi : ∀ attempts period, i ≠ .poll attempts period) :
    r'.pollCnt = r.pollCnt := by
  cases h with
  | poll => exact absurd rfl (hi _ _)
  | _ => rfl

theorem Writes.crcRes_of_not (h : Writes i r r') (hi : writesCrcRes i = false) : r'.crcRes = r.crcRes := by
  cases h with
  | crcRes crc hwrites => exact absurd hwrites (Bool.eq_false_iff.mp hi)
  | _ => rfl

theorem Writes.sak_of_ne (h : Writes i r r') (hparse : ∀ src, i ≠ .parseSak src) (hactivate : ∀ wake, i ≠ .activate wake)
    (hpoll : ∀ attempts period, i ≠ .poll attempts period) (hdeselect : i ≠ .deselect) (hk : i.kind = .hostCommand) :
    r'.sak = r.sak := by
  cases h with
  | parsedSak => exact absurd rfl (hparse _)
  | activateSak => exact absurd rfl (hactivate _)
  | deselectSak => exact absurd rfl hdeselect
  | poll => exact absurd rfl (hpoll _ _)
  | receivedSak sak hreceived =>
    rw [hk] at hreceived
    cases hreceived
  | _ => rfl

end

/-- XCV_BITS and XCV_BYTES send without writing `CRC_RES` (42_bit_transceive.md R168, R169). -/
theorem crcRes_of_sends_raw {i : Instr} {s t : State} {r : Run} (hs : Sends s r .raw) (hk : i.kind = .transmit)
    (h : exec i s = .next t) : t.crcRes = s.crcRes := by
  rw [exec_transmit hk, sendFrame_next] at h
  rw [h.2, sendDue_sends hs]
  rfl

/-- Settles O58, register by register from what an instruction may write. -/
theorem registersHaveTheirWriters : Obligations.RegistersHaveTheirWriters := by
  unfold Obligations.RegistersHaveTheirWriters
  intro i s t h hi
  have hw := exec_writes h hi
  obtain ⟨hp0, hp1, htimeout, hrats⟩ := hw.operands
  exact ⟨hp0, hp1, htimeout, hrats, hw.cfg_of_ne, hw.hist_of_ne, hw.pollCnt_of_ne, hw.crcRes_of_not,
    fun ⟨_, hs⟩ hk => crcRes_of_sends_raw hs hk h, hw.sak_of_ne⟩

end Sys2Proof.Proofs.RegisterWriters

/-! The CRC functions (40_crc_engine.md R110, R111, R121, R122): the bit-serial form is linear over exclusive-or, which ties it to the
byte-at-a-time form, and the residue that a frame's own CRC leaves. -/

namespace Sys2Proof.Proofs.CrcFunctions

open Sys2Proof Sys2Proof.Machine
open Sys2Proof.Proofs.Encoding (byteBits_eq_map)

/-! ### The bit-serial form -/

/-- What a step of the division adds to the shifted remainder where the bit shifted out is `x`: x^16 + x^12 + x^5 + 1. -/
def crcTaps (x : Bool) : Half := if x then 0x8408 else 0x0000

theorem crcTaps_xor (x y : Bool) : crcTaps (x ^^ y) = crcTaps x ^^^ crcTaps y := by
  revert x y
  decide

theorem crcBit_eq_taps (w : Half) (x : Bool) : crcBit w x = w >>> 1 ^^^ crcTaps (x ^^ w.getLsbD 0) := by
  unfold crcBit crcTaps
  cases x ^^ w.getLsbD 0 with
  | false => exact BitVec.xor_zero.symm
  | true => rfl

/-- A bit that agrees with bit 0 of the remainder is a plain shift. -/
theorem crcBit_bitZero (w : Half) : crcBit w (w.getLsbD 0) = w >>> 1 := by
  rw [crcBit_eq_taps, Bool.xor_self]
  exact BitVec.xor_zero

/-- One step of the division is linear over exclusive-or. -/
theorem crcBit_xor (v w : Half) (x y : Bool) : crcBit (v ^^^ w) (x ^^ y) = crcBit v x ^^^ crcBit w y := by
  simp only [crcBit_eq_taps, BitVec.getLsbD_xor, BitVec.ushiftRight_xor_distrib, crcTaps_xor]
  ac_rfl

theorem crcUpdateSerial_xor (v w : Half) (b c : Byte) :
    crcUpdateSerial (v ^^^ w) (b ^^^ c) = crcUpdateSerial v b ^^^ crcUpdateSerial w c := by
  simp only [crcUpdateSerial, byteBits, List.foldl_cons, List.foldl_nil, BitVec.getLsbD_xor, crcBit_xor]

/-- The low bits of the remainder shift themselves out. -/
theorem foldl_crcBit_lowBits (w : Half) (n : Nat) : ((List.range n).map w.getLsbD).foldl crcBit w = w >>> n := by
  induction n with
  | zero => exact (BitVec.ushiftRight_zero w).symm
  | succ n ih =>
    have hbit : w.getLsbD n = (w >>> n).getLsbD 0 := (BitVec.getLsbD_ushiftRight w n 0).symm
    rw [List.range_succ, List.map_append, List.foldl_append, ih, List.map_singleton, List.foldl_cons, List.foldl_nil, hbit,
      crcBit_bitZero, BitVec.shiftRight_add]

theorem crcUpdateSerial_loByte (w : Half) : crcUpdateSerial w (loByte w) = w >>> 8 := by
  have hbits : byteBits (loByte w) = (List.range 8).map w.getLsbD := by
    rw [byteBits_eq_map]
    refine List.map_congr_left fun i hi => ?_
    rw [loByte_getLsbD, decide_eq_true (List.mem_range.mp hi), Bool.true_and]
  rw [crcUpdateSerial, hbits, foldl_crcBit_lowBits]

set_option maxRecDepth 20000 in
/-- From remainder zero, a byte adds its mix. -/
theorem crcUpdateSerial_zero (t : Byte) : crcUpdateSerial 0 t = crcMix t := by
  revert t
  decide

theorem crcUpdate_eq_serial (w : Half) (b : Byte) : crcUpdate w b = crcUpdateSerial w b := by
  have hw : w ^^^ 0 = w := BitVec.xor_zero
  have hb : loByte w ^^^ (b ^^^ loByte w) = b := by
    rw [BitVec.xor_comm b, ← BitVec.xor_assoc, BitVec.xor_self, BitVec.zero_xor]
  calc crcUpdate w b
    _ = w >>> 8 ^^^ crcMix (b ^^^ loByte w) := crcUpdate_eq_mix w b
    _ = crcUpdateSerial w (loByte w) ^^^ crcUpdateSerial 0 (b ^^^ loByte w) := by
      rw [crcUpdateSerial_loByte, crcUpdateSerial_zero]
    _ = crcUpdateSerial (w ^^^ 0) (loByte w ^^^ (b ^^^ loByte w)) := (crcUpdateSerial_xor ..).symm
    _ = crcUpdateSerial w b := by rw [hw, hb]

/-- Settles O11, from the agreement of the two forms and the law of an appended byte. -/
theorem crcUpdateIsBitSerialDivision : Obligations.CrcUpdateIsBitSerialDivision := by
  unfold Obligations.CrcUpdateIsBitSerialDivision
  refine ⟨crcUpdate_eq_serial, rfl, by decide, fun d b => ⟨?crcA, ?crcB⟩, by decide, by decide⟩
  case crcA => exact (crcA_append d [b]).trans (crcUpdate_eq_serial ..)
  case crcB =>
    have hloop : crcBLoop (d ++ [b]) = crcUpdateSerial (crcBLoop d) b := (crcBLoop_append d [b]).trans (crcUpdate_eq_serial ..)
    rw [crcB, crcB, BitVec.not_not, hloop]

/-! ### The residue -/

theorem xor_eq_iff_eq_xor (b c d : Byte) : b ^^^ d = c ↔ b = c ^^^ d := by
  rw [← BitVec.xor_left_inj d, BitVec.xor_assoc, BitVec.xor_self, BitVec.xor_zero]

/-- Two bytes lead to the remainder that the byte `c` twice leads to from zero exactly when they are the two bytes of the
remainder before, each mixed with `c`. -/
theorem crcUpdate_two_residue_iff (w : Half) (b0 b1 c : Byte) :
    crcUpdate (crcUpdate w b0) b1 = crcUpdate (crcUpdate 0 c) c ↔ b0 = c ^^^ loByte w ∧ b1 = c ^^^ hiByte w := by
  have hlo : loByte 0 = 0#8 := rfl
  have hhi : hiByte 0 = 0#8 := rfl
  rw [crcUpdate_two_iff, hlo, hhi, BitVec.xor_zero, xor_eq_iff_eq_xor, xor_eq_iff_eq_xor]

theorem crcA_residue_iff (d : List Byte) (b0 b1 : Byte) :
    crcA (d ++ [b0, b1]) = 0x0000 ↔ b0 = loByte (crcA d) ∧ b1 = hiByte (crcA d) := by
  rw [crcA_append]
  have h := crcUpdate_two_residue_iff (crcA d) b0 b1 0#8
  rwa [BitVec.zero_xor, BitVec.zero_xor] at h

theorem crcBLoop_residue_iff (d : List Byte) (b0 b1 : Byte) :
    crcBLoop (d ++ [b0, b1]) = 0xF0B8 ↔ b0 = loByte (crcB d) ∧ b1 = hiByte (crcB d) := by
  rw [crcBLoop_append, crcB, loByte_not, hiByte_not]
  exact crcUpdate_two_residue_iff (crcBLoop d) b0 b1 0xFF

/-- Settles O10; the residue of `CrcB` is the complement of its loop's. -/
theorem crcResidueIsConstant : Obligations.CrcResidueIsConstant := by
  unfold Obligations.CrcResidueIsConstant
  intro d b0 b1
  have hcompl : crcB (d ++ [b0, b1]) = 0x0F47 ↔ crcBLoop (d ++ [b0, b1]) = 0xF0B8 := BitVec.not_eq_comm
  exact ⟨crcA_residue_iff d b0 b1, crcBLoop_residue_iff d b0 b1, hcompl.trans (crcBLoop_residue_iff d b0 b1)⟩

end Sys2Proof.Proofs.CrcFunctions

/-! The commands of the CRC engine (40_crc_engine.md R113 to R120): what each rule does to an accepted state, for any CRC function, and the
append and check commands one after the other. -/

namespace Sys2Proof.Proofs.CrcCommands

open Sys2Proof Sys2Proof.Machine

/-! ### The source frame -/

theorem sourceBytes_of_source {src : Byte} {s : State} {f : Frame} (hf : source src s = some f) (hmax : f.nbits ≤ 2112)
    (hwhole : f.nbits % 8 = 0) : sourceBytes src s = some f.bytes :=
  sourceBytes_some.mpr ⟨f, hf, hmax, hwhole, rfl⟩

theorem source_length {src : Byte} {s : State} {f : Frame} {n : Nat} (hf : source src s = some f) (hn : f.nbits = 8 * n) :
    f.bytes.length = n := by
  rw [source_shape hf, ceil8]
  omega

/-- An illegal source changes nothing but the handshake, whatever the command does with a legal one (40_crc_engine.md R113 to R119). -/
theorem rejects_of_sourceBytes_none {i : Instr} {op src : Byte} {rule : State → State} {s : State} (hidle : s.busy = false)
    (hexec : exec i s = issue op rule s) (hrule : ∀ t, sourceBytes src t = none → rule t = t.raise .invalidParameter)
    (hsrc : sourceBytes src s = none) : Rejects i op s := by
  rw [Rejects, hexec, issue_idle hidle, hrule _ (by rw [sourceBytes_accept, hsrc]), raise_accept]

/-! ### The rules on a legal and on an illegal source -/

section Rules

variable {crc : List Byte → Half} {src : Byte} {s : State} {a : List Byte}

theorem crcRule_none (h : sourceBytes src s = none) : crcRule crc src s = s.raise .invalidParameter := by
  rw [crcRule, h]

theorem crcRule_some (h : sourceBytes src s = some a) : crcRule crc src s = { s with crcRes := crc a }.complete := by
  rw [crcRule, h]

theorem crcCheckRule_none (h : sourceBytes src s = none) : crcCheckRule crc src s = s.raise .invalidParameter := by
  rw [crcCheckRule, h]

theorem crcCheckRule_short (h : sourceBytes src s = some a) (hlen : a.length < 2) :
    crcCheckRule crc src s = { s with matched := false }.complete := by
  simp only [crcCheckRule, h, if_pos hlen]

theorem crcCheckRule_append {d : List Byte} {b0 b1 : Byte} (h : sourceBytes src s = some (d ++ [b0, b1])) :
    crcCheckRule crc src s
      = { s with crcRes := crc d, matched := decide (b0 = loByte (crc d) ∧ b1 = hiByte (crc d)) }.complete := by
  have hlen : (d ++ [b0, b1]).length = d.length + 2 := List.length_append
  simp only [crcCheckRule, h, hlen, Nat.add_sub_cancel, List.take_left', List.drop_left', crcBytes_eq_iff]
  rw [if_neg (by omega)]

theorem locateHistRule_none (h : sourceBytes src s = none) : locateHistRule src s = s.raise .invalidParameter := by
  rw [locateHistRule, h]

end Rules

/-! ### CRC_A and CRC_B -/

theorem issue_crcRule {op src : Byte} {s : State} {f : Frame} (crc : List Byte → Half) (hidle : s.busy = false)
    (hf : source src s = some f) (hmax : f.nbits ≤ 2112) (hwhole : f.nbits % 8 = 0) :
    issue op (crcRule crc src) s = .next { ended op .noError s with crcRes := crc (f.bytes.take (f.nbits / 8)) } := by
  have hall : f.bytes.take (f.nbits / 8) = f.bytes := List.take_of_length_le (Nat.le_of_eq (source_length hf (by omega)))
  rw [issue_idle hidle, crcRule_some (by rw [sourceBytes_accept]; exact sourceBytes_of_source hf hmax hwhole), hall]
  rfl

/-- The CRC of an empty frame is the CRC function's value on no bytes. -/
theorem issue_crcRule_empty {op src : Byte} {s : State} {f : Frame} {crc : List Byte → Half} {c : Half} (hc : crc [] = c)
    (hidle : s.busy = false) (hf : source src s = some f) (hzero : f.nbits = 0) :
    issue op (crcRule crc src) s = .next { ended op .noError s with crcRes := c } := by
  rw [issue_crcRule crc hidle hf (by omega) (by omega), hzero, Nat.zero_div, List.take_zero, hc]

/-- Settles O5: one rule for both CRC functions. -/
theorem crcCommandsLeaveTheCrc : Obligations.CrcCommandsLeaveTheCrc := by
  unfold Obligations.CrcCommandsLeaveTheCrc
  intro src s hidle
  refine ⟨fun f hf hmax hwhole => ⟨?wholeA, ?wholeB⟩, fun f hf hzero => ⟨?emptyA, ?emptyB⟩, fun hbad => ?illegal⟩
  case wholeA => exact issue_crcRule crcA hidle hf hmax hwhole
  case wholeB => exact issue_crcRule crcB hidle hf hmax hwhole
  case emptyA => exact issue_crcRule_empty rfl hidle hf hzero
  case emptyB => exact issue_crcRule_empty (by decide) hidle hf hzero
  case illegal =>
    have hnone := sourceBytes_none.mpr hbad
    exact ⟨rejects_of_sourceBytes_none hidle (exec_crcA src s) (fun _ => crcRule_none) hnone,
      rejects_of_sourceBytes_none hidle (exec_crcB src s) (fun _ => crcRule_none) hnone⟩

/-! ### The check commands -/

/-- A list of two bytes or more is its front and its last two. -/
theorem eq_take_append_last_two {a : List Byte} {n : Nat} (hlen : a.length = n) (hn : 2 ≤ n) :
    a = a.take (n - 2) ++ [a.getD (n - 2) 0, a.getD (n - 1) 0] := by
  have hlast : a.drop (n - 2) = [a.getD (n - 2) 0, a.getD (n - 1) 0] := by
    have hnext : n - 2 + 1 = n - 1 := by omega
    have hend : n - 1 + 1 = n := by omega
    rw [List.drop_eq_getElem_cons (by omega), hnext, List.drop_eq_getElem_cons (by omega), hend,
      List.drop_of_length_le (Nat.le_of_eq hlen), List.getElem_eq_getD 0, List.getElem_eq_getD 0]
  rw [← hlast, List.take_append_drop]

theorem issue_crcCheckRule {op src : Byte} {s : State} {f : Frame} {n : Nat} (crc : List Byte → Half) (hidle : s.busy = false)
    (hf : source src s = some f) (hmax : f.nbits ≤ 2112) (hbits : f.nbits = 8 * n) (hn : 2 ≤ n) :
    issue op (crcCheckRule crc src) s = .next { ended op .noError s with
      crcRes := crc (f.bytes.take (n - 2))
      matched := decide (f.bytes.getD (n - 2) 0 = loByte (crc (f.bytes.take (n - 2)))
        ∧ f.bytes.getD (n - 1) 0 = hiByte (crc (f.bytes.take (n - 2)))) } := by
  have hbytes : sourceBytes src (s.accept op)
      = some (f.bytes.take (n - 2) ++ [f.bytes.getD (n - 2) 0, f.bytes.getD (n - 1) 0]) := by
    rw [← eq_take_append_last_two (source_length hf hbits) hn, sourceBytes_accept]
    exact sourceBytes_of_source hf hmax (by omega)
  rw [issue_idle hidle, crcCheckRule_append hbytes]
  rfl

theorem issue_crcCheckRule_short {op src : Byte} {s : State} {f : Frame} (crc : List Byte → Half) (hidle : s.busy = false)
    (hf : source src s = some f) (hbits : f.nbits = 0 ∨ f.nbits = 8) :
    issue op (crcCheckRule crc src) s = .next (ended op .noError s) := by
  have hlen : f.bytes.length = f.nbits / 8 := source_length hf (by omega)
  have hbytes : sourceBytes src (s.accept op) = some f.bytes := by
    rw [sourceBytes_accept]
    exact sourceBytes_of_source hf (by omega) (by omega)
  rw [issue_idle hidle, crcCheckRule_short hbytes (by omega)]
  rfl

/-- Settles O7: the last two bytes are compared with the two bytes of the CRC. -/
theorem crcCheckComparesTheLastTwoBytes : Obligations.CrcCheckComparesTheLastTwoBytes := by
  unfold Obligations.CrcCheckComparesTheLastTwoBytes
  intro src s hidle
  refine ⟨fun f n hf hmax hbits hn => ⟨?checkA, ?checkB⟩, fun f hf hbits => ⟨?shortA, ?shortB⟩, fun hbad => ?illegal⟩
  case checkA => exact issue_crcCheckRule crcA hidle hf hmax hbits hn
  case checkB => exact issue_crcCheckRule crcB hidle hf hmax hbits hn
  case shortA => exact issue_crcCheckRule_short crcA hidle hf hbits
  case shortB => exact issue_crcCheckRule_short crcB hidle hf hbits
  case illegal =>
    have hnone := sourceBytes_none.mpr hbad
    exact ⟨rejects_of_sourceBytes_none hidle (exec_crcACheck src s) (fun _ => crcCheckRule_none) hnone,
      rejects_of_sourceBytes_none hidle (exec_crcBCheck src s) (fun _ => crcCheckRule_none) hnone⟩

/-! ### LOCATE_HIST -/

/-- The three presence bits of T0, each counted by itself. -/
theorem histOffset_bits (t0 : Byte) :
    histOffset t0 = 1 + (t0.getLsbD 4).toNat + (t0.getLsbD 5).toNat + (t0.getLsbD 6).toNat := by
  revert t0
  decide

theorem locateHistorical_some {a : List Byte} (h : histOffset (a.getD 0 0) < a.length) :
    locateHistorical a = some (histOffset (a.getD 0 0), a.length - histOffset (a.getD 0 0)) := by
  cases a with
  | nil => cases h
  | cons t0 rest => exact if_pos h

theorem locateHistorical_none {a : List Byte} (h : a.length ≤ histOffset (a.getD 0 0)) : locateHistorical a = none := by
  cases a with
  | nil => rfl
  | cons t0 rest => exact if_neg (Nat.not_lt.mpr h)

/-- Settles O8, by whether T0 and the bytes it announces leave anything. -/
theorem locateHistSkipsInterfaceBytes : Obligations.LocateHistSkipsInterfaceBytes := by
  unfold Obligations.LocateHistSkipsInterfaceBytes
  intro src s hidle
  refine ⟨fun f n off hf hmax hbits hoff => ?legal, fun hbad => ?illegal⟩
  case legal =>
    have hlen := source_length hf hbits
    have hbytes : sourceBytes src (s.accept 0x16) = some f.bytes := by
      rw [sourceBytes_accept]
      exact sourceBytes_of_source hf hmax (by omega)
    rw [← histOffset_bits] at hoff
    rw [exec_locateHist, issue_idle hidle]
    refine ⟨fun hleft => ?found, fun hnothing => ?nothing⟩
    case found =>
      have hloc := locateHistorical_some (a := f.bytes) (by omega)
      simp only [locateHistRule, hbytes, hloc, hoff, hlen]
      rfl
    case nothing =>
      have hloc := locateHistorical_none (a := f.bytes) (by omega)
      simp only [locateHistRule, hbytes, hloc]
      rfl
  case illegal =>
    exact rejects_of_sourceBytes_none hidle (exec_locateHist src s) (fun _ => locateHistRule_none) (sourceBytes_none.mpr hbad)

/-! ### The append commands -/

theorem txFrame_bytes {s : State} (hwhole : s.txBits.toNat % 8 = 0) : (txFrame s).bytes = s.txBytes 0 (s.txBits.toNat / 8) := by
  have hceil : ceil8 s.txBits.toNat = s.txBits.toNat / 8 := by
    unfold ceil8
    omega
  rw [txFrame, hceil]

theorem wholeBytes_txFrame {s : State} (hmax : s.txBits.toNat ≤ 2112) (hwhole : s.txBits.toNat % 8 = 0) :
    wholeBytes (txFrame s) = some (s.txBytes 0 (s.txBits.toNat / 8)) :=
  wholeBytes_some.mpr ⟨hmax, hwhole, (txFrame_bytes hwhole).symm⟩

/-- `s` after an append command has ended well: the two bytes of `crc` behind the frame (40_crc_engine.md R115). -/
def crcAppended (op : Byte) (crc : Half) (s : State) : State :=
  { ended op .noError s with
    txBits := s.txBits + 16
    crcRes := crc
    mem := Memory.putList s.mem (0x100 + s.txBits.toNat / 8) (crcBytes crc) }

theorem crcAppended_stores (op : Byte) (crc : Half) (s : State) :
    Stores s (crcAppended op crc s) (0x100 + s.txBits.toNat / 8) [loByte crc, hiByte crc] :=
  bufByte_putList rfl rfl rfl rfl

section Append

variable {i : Instr} {op : Byte} {crc : List Byte → Half} {s : State}

theorem issue_crcAppendRule (hidle : s.busy = false) (hwhole : s.txBits.toNat % 8 = 0) (hroom : s.txBits.toNat / 8 + 2 ≤ 264) :
    issue op (crcAppendRule crc) s = .next (crcAppended op (crc (s.txBytes 0 (s.txBits.toNat / 8))) s) := by
  have hroom' : ¬Config.maxFrameLen < (s.accept op).txBits.toNat / 8 + 2 := Nat.not_lt.mpr hroom
  rw [issue_idle hidle, crcAppendRule, txFrame_accept, wholeBytes_txFrame (by omega) hwhole]
  simp only [if_neg hroom']
  rfl

theorem issue_crcAppendRule_noRoom (hidle : s.busy = false) (hwhole : s.txBits.toNat % 8 = 0) (hmax : s.txBits.toNat ≤ 2112)
    (hroom : 264 < s.txBits.toNat / 8 + 2) : issue op (crcAppendRule crc) s = .next (ended op .bufferTooSmall s) := by
  have hroom' : Config.maxFrameLen < (s.accept op).txBits.toNat / 8 + 2 := hroom
  rw [issue_idle hidle, crcAppendRule, txFrame_accept, wholeBytes_txFrame hmax hwhole]
  simp only [if_pos hroom']
  rfl

theorem issue_crcAppendRule_illegal (hidle : s.busy = false) (hbad : 2112 < s.txBits.toNat ∨ s.txBits.toNat % 8 ≠ 0) :
    issue op (crcAppendRule crc) s = .next (ended op .invalidParameter s) := by
  rw [issue_idle hidle, crcAppendRule, txFrame_accept, wholeBytes_none.mpr hbad]
  rfl

theorem appends_of_issue (hexec : exec i s = issue op (crcAppendRule crc) s) (hidle : s.busy = false)
    (hwhole : s.txBits.toNat % 8 = 0) (hroom : s.txBits.toNat / 8 + 2 ≤ 264) :
    Appends i op (crc (s.txBytes 0 (s.txBits.toNat / 8))) s :=
  ⟨_, hexec.trans (issue_crcAppendRule hidle hwhole hroom), rfl, crcAppended_stores _ _ _⟩

end Append

/-- Settles O6: one rule for both CRC functions, in each of its three outcomes. -/
theorem crcAppendWritesTwoBytes : Obligations.CrcAppendWritesTwoBytes := by
  unfold Obligations.CrcAppendWritesTwoBytes
  intro s hidle
  refine ⟨fun hwhole hroom => ⟨?appendA, ?appendB⟩, fun hwhole hmax hroom => ⟨?fullA, ?fullB⟩,
    fun hbad => ⟨?illegalA, ?illegalB⟩⟩
  case appendA => exact appends_of_issue (exec_crcAAppend s) hidle hwhole hroom
  case appendB => exact appends_of_issue (exec_crcBAppend s) hidle hwhole hroom
  case fullA => exact issue_crcAppendRule_noRoom hidle hwhole hmax hroom
  case fullB => exact issue_crcAppendRule_noRoom hidle hwhole hmax hroom
  case illegalA => exact issue_crcAppendRule_illegal hidle hbad
  case illegalB => exact issue_crcAppendRule_illegal hidle hbad

/-! ### An append command and the check after it -/

theorem bufBytes_add (s : State) (a m n : Nat) : s.bufBytes a (m + n) = s.bufBytes a m ++ s.bufBytes (a + m) n := by
  induction m generalizing a with
  | zero => rw [Nat.zero_add]; rfl
  | succ m ih => rw [Nat.succ_add, State.bufBytes, State.bufBytes, ih, List.cons_append, Nat.add_assoc, Nat.add_comm 1]

theorem txBytes_add_two (s : State) (n : Nat) : s.txBytes 0 (n + 2) = s.txBytes 0 n ++ [s.txByte n, s.txByte (n + 1)] :=
  bufBytes_add s Config.txBase n 2

/-- A store behind the first `n` bytes does not change them. -/
theorem bufBytes_of_stores_behind {s t : State} {a n lo : Nat} {bytes : List Byte} (h : Stores s t lo bytes) (hlo : a + n ≤ lo) :
    t.bufBytes a n = s.bufBytes a n := by
  induction n generalizing a with
  | zero => rfl
  | succ n ih => rw [State.bufBytes, State.bufBytes, ih (by omega), h a, if_neg (by omega)]

theorem bufByte_of_stores {s t : State} {lo i : Nat} {bytes : List Byte} (h : Stores s t lo bytes) (hi : i < bytes.length) :
    t.bufByte (lo + i) = bytes.getD i 0 := by
  rw [h, if_pos (by omega), Nat.add_sub_cancel_left]

/-- A frame of whole bytes in `TXBUF` is a legal source. -/
theorem sourceBytes_tx {s : State} {n : Nat} (hbits : s.txBits.toNat = 8 * n) (hn : n ≤ 264) :
    sourceBytes 0 s = some (s.txBytes 0 n) := by
  have hdiv : s.txBits.toNat / 8 = n := by omega
  have h := wholeBytes_txFrame (s := s) (by omega) (by omega)
  rwa [hdiv] at h

theorem txBits_add_crc {b : Half} {n : Nat} (hbits : b.toNat = 8 * n) (hn : n ≤ 262) : (b + 16).toNat = 8 * (n + 2) := by
  rw [BitVec.toNat_add, hbits, show (16 : Half).toNat = 16 from rfl]
  omega

/-- A frame in `TXBUF` whose last two bytes are the CRC of those before matches. -/
theorem issue_crcCheckRule_matches {op : Byte} {crc : List Byte → Half} {t : State} {n : Nat} (hidle : t.busy = false)
    (hbits : t.txBits.toNat = 8 * (n + 2)) (hn : n ≤ 262) (hlo : t.txByte n = loByte (crc (t.txBytes 0 n)))
    (hhi : t.txByte (n + 1) = hiByte (crc (t.txBytes 0 n))) :
    ∃ u, issue op (crcCheckRule crc 0) t = .next u ∧ u.matched = true := by
  have hsource : sourceBytes 0 (t.accept op) = some (t.txBytes 0 n ++ [t.txByte n, t.txByte (n + 1)]) := by
    rw [sourceBytes_accept, sourceBytes_tx hbits (by omega), txBytes_add_two]
  refine ⟨_, issue_idle hidle, ?_⟩
  rw [crcCheckRule_append hsource]
  exact decide_eq_true ⟨hlo, hhi⟩

/-- An append command and the check command of the same CRC function: the check reads the frame with the two bytes behind it. -/
theorem append_then_check {append check : Instr} {op op' : Byte} {crc : List Byte → Half} {s : State} {n : Nat}
    (happend : ∀ s, exec append s = issue op (crcAppendRule crc) s)
    (hcheck : ∀ s, exec check s = issue op' (crcCheckRule crc 0) s) (hidle : s.busy = false) (hbits : s.txBits.toNat = 8 * n)
    (hn : n ≤ 262) :
    ∃ t u, exec append s = .next t ∧ t.txByte n = loByte (crc (t.txBytes 0 n)) ∧ t.txByte (n + 1) = hiByte (crc (t.txBytes 0 n))
      ∧ exec check t = .next u ∧ u.matched = true := by
  have hdiv : s.txBits.toNat / 8 = n := by omega
  obtain ⟨t, hnext, ht, hstores⟩ := appends_of_issue (happend s) hidle (by omega) (by omega)
  rw [hdiv] at hstores
  have hfront : t.txBytes 0 n = s.txBytes 0 n := bufBytes_of_stores_behind hstores (Nat.le_refl _)
  have hlo : t.txByte n = loByte (crc (t.txBytes 0 n)) := by
    rw [hfront]
    exact bufByte_of_stores (i := 0) hstores Nat.zero_lt_two
  have hhi : t.txByte (n + 1) = hiByte (crc (t.txBytes 0 n)) := by
    rw [hfront]
    exact bufByte_of_stores (i := 1) hstores Nat.one_lt_two
  have hidle' : t.busy = false := by rw [ht]; rfl
  have hbits' : t.txBits = s.txBits + 16 := by rw [ht]
  obtain ⟨u, hu, hmatched⟩ := issue_crcCheckRule_matches hidle' (hbits' ▸ txBits_add_crc hbits hn) hn hlo hhi
  exact ⟨t, u, hnext, hlo, hhi, (hcheck t).trans hu, hmatched⟩

/-- Settles O9, for both CRC functions at once. -/
theorem appendThenCheckMatches : Obligations.AppendThenCheckMatches := by
  unfold Obligations.AppendThenCheckMatches
  intro s n hidle hbits hn
  exact ⟨append_then_check exec_crcAAppend (exec_crcACheck 0) hidle hbits hn,
    append_then_check exec_crcBAppend (exec_crcBCheck 0) hidle hbits hn⟩

end Sys2Proof.Proofs.CrcCommands

/-! The commands of the frame codec (41_frame_codec.md R131 to R144): what each rule does to an accepted state with legal and with
illegal operands. -/

namespace Sys2Proof.Proofs.FrameCodec

open Sys2Proof Sys2Proof.Machine

/-! ### Operands -/

theorem ne_zero_and_ne_one {b : Byte} (h : 1 < b.toNat) : b ≠ 0 ∧ b ≠ 1 := by
  constructor
  · rintro rfl
    exact absurd h (by decide)
  · rintro rfl
    exact absurd h (by decide)

theorem exists_level {k : Nat} (hlo : 1 ≤ k) (hhi : k ≤ 3) : ∃ n : Level, k = levelNum n := by
  match k, hlo, hhi with
  | 1, _, _ => exact ⟨.cl1, rfl⟩
  | 2, _, _ => exact ⟨.cl2, rfl⟩
  | 3, _, _ => exact ⟨.cl3, rfl⟩

/-- The first byte of a level's frames is 0x93, 0x95 or 0x97 (30_encoding.md R98). -/
theorem selCode_eq (n : Level) : selCode n = BitVec.ofNat 8 (0x91 + 2 * levelNum n) := by
  cases n <;> rfl

/-! ### How a command ends -/

section Endings

variable {i : Instr} {op : Byte} {rule : State → State} {s t : State} {f : Frame} {crc : Half}

theorem rejects_of_raise (hidle : s.busy = false) (hexec : exec i s = issue op rule s)
    (hrule : rule (s.accept op) = (s.accept op).raise .invalidParameter) : Rejects i op s := by
  rw [Rejects, hexec, issue_idle hidle, hrule, raise_accept]

theorem builds_of_putTxFrame (hidle : s.busy = false) (hexec : exec i s = issue op rule s)
    (hrule : rule (s.accept op) = ((s.accept op).putTxFrame f).complete) :
    Builds i op f.bytes (BitVec.ofNat 16 f.nbits) s := by
  refine ⟨((s.accept op).putTxFrame f).complete, ?next, rfl, putTxFrame_bufByte (s.accept op) f⟩
  rw [hexec, issue_idle hidle, hrule]

/-- A frame with a CRC may be written over a state `t` that differs from the accepted one in bytes the frame covers. -/
theorem buildsWithCrc_of_putCrcFrame (hidle : s.busy = false) (hexec : exec i s = issue op rule s) (hcrc : frameCrc f = crc)
    (hrule : rule (s.accept op) = (t.putCrcFrame f).complete) (hother : t = { s.accept op with mem := t.mem })
    (hmem : ∀ a, ¬(0x100 ≤ a ∧ a < 0x100 + f.bytes.length) → t.bufByte a = s.bufByte a) :
    BuildsWithCrc i op f.bytes (BitVec.ofNat 16 f.nbits) crc s := by
  refine ⟨(t.putCrcFrame f).complete, ?next, ?frame, fun a => ?stores⟩
  case next => rw [hexec, issue_idle hidle, hrule]
  case frame =>
    rw [hother, ← hcrc]
    rfl
  case stores =>
    refine (putTxFrame_bufByte t f a).trans ?_
    by_cases hin : 0x100 ≤ a ∧ a < 0x100 + f.bytes.length
    · exact (if_pos hin).trans (if_pos hin).symm
    · exact (if_neg hin).trans ((hmem a hin).trans (if_neg hin).symm)

end Endings

/-- The CRC that goes into `CRC_RES` is that of the bytes before it (41_frame_codec.md R130). -/
theorem frameCrc_frameWithCrcA (bytes : List Byte) : frameCrc (frameWithCrcA bytes) = crcA bytes := by
  simp [frameCrc, frameWithCrcA, byteFrame, crcBytes]

theorem frameCrc_haltFrame : frameCrc haltFrame = 0xCD57 := by decide

/-! ### BUILD_REQA, BUILD_WUPA, BUILD_ANTICOLL, BUILD_HALT and BUILD_RATS -/

theorem buildWupaRule_illegal {variant : Byte} (s : State) (h : 1 < variant.toNat) :
    buildWupaRule variant s = s.raise .invalidParameter := by
  obtain ⟨h0, h1⟩ := ne_zero_and_ne_one h
  rw [buildWupaRule, if_neg h0, if_neg h1]

theorem buildAnticollRule_illegal {lvl : Byte} (s : State) (h : lvl.toNat = 0 ∨ 3 < lvl.toNat) :
    buildAnticollRule lvl s = s.raise .invalidParameter := by
  rw [buildAnticollRule, levelOperand_none.mpr h]

/-- Settles O12, one template after the other. -/
theorem templateFramesAreBuilt : Obligations.TemplateFramesAreBuilt := by
  unfold Obligations.TemplateFramesAreBuilt
  intro param s hidle
  refine ⟨?reqa, ?wupa, ?wake40, fun hbad => ?wupaIllegal, ?cl1, ?cl2, ?cl3, fun hbad => ?anticollIllegal, ?halt, ?rats⟩
  case reqa => exact builds_of_putTxFrame hidle (exec_buildReqa s) rfl
  case wupa => exact builds_of_putTxFrame hidle (exec_buildWupa 0 s) rfl
  case wake40 => exact builds_of_putTxFrame hidle (exec_buildWupa 1 s) rfl
  case wupaIllegal => exact rejects_of_raise hidle (exec_buildWupa param s) (buildWupaRule_illegal _ hbad)
  case cl1 => exact builds_of_putTxFrame (f := anticollFrame .cl1) hidle (exec_buildAnticoll 1 s) rfl
  case cl2 => exact builds_of_putTxFrame (f := anticollFrame .cl2) hidle (exec_buildAnticoll 2 s) rfl
  case cl3 => exact builds_of_putTxFrame (f := anticollFrame .cl3) hidle (exec_buildAnticoll 3 s) rfl
  case anticollIllegal => exact rejects_of_raise hidle (exec_buildAnticoll param s) (buildAnticollRule_illegal _ hbad)
  case halt => exact buildsWithCrc_of_putCrcFrame hidle (exec_buildHalt s) frameCrc_haltFrame rfl rfl fun _ _ => rfl
  case rats =>
    exact buildsWithCrc_of_putCrcFrame (f := ratsFrame param) hidle (exec_buildRats param s) (frameCrc_frameWithCrcA _) rfl rfl
      fun _ _ => rfl

/-! ### BUILD_SELECT -/

section Select

variable {lvl fromRx : Byte} {n : Level} {s t : State}

theorem buildSelectRule_fromTx (hlvl : levelOperand lvl = some n) : buildSelectRule lvl 0 s = buildSelectInPlace n s := by
  simp only [buildSelectRule, hlvl]
  rfl

theorem buildSelectRule_fromRx (hlvl : levelOperand lvl = some n) (hbits : s.rxBits.toNat = 40) :
    buildSelectRule lvl 1 s = buildSelectInPlace n (s.writeTx 2 (s.rxBytes 5)) := by
  simp only [buildSelectRule, hlvl, if_true, if_neg (not_not_intro hbits)]

theorem buildSelectRule_illegal
    (hbad : lvl.toNat = 0 ∨ 3 < lvl.toNat ∨ 1 < fromRx.toNat ∨ (fromRx = 1 ∧ s.rxBits.toNat ≠ 40)) :
    buildSelectRule lvl fromRx s = s.raise .invalidParameter := by
  rw [buildSelectRule]
  cases hlvl : levelOperand lvl with
  | none => rfl
  | some n =>
    have hnum := levelOperand_some.mp hlvl
    have hlegal : 1 ≤ levelNum n ∧ levelNum n ≤ 3 := by cases n <;> decide
    rcases hbad with hbad | hbad | hbad | ⟨hone, hbits⟩
    · omega
    · omega
    · obtain ⟨h0, h1⟩ := ne_zero_and_ne_one hbad
      simp only [if_neg h1, if_neg h0]
    · simp only [if_pos hone, if_pos hbits]

/-- The SELECT confirm of a level around the five buffer bytes from host address `lo` (41_frame_codec.md R134). -/
def selectFrameAt (n : Level) (s : State) (lo : Nat) : Frame :=
  selectFrame n (s.bufByte lo) (s.bufByte (lo + 1)) (s.bufByte (lo + 2)) (s.bufByte (lo + 3)) (s.bufByte (lo + 4))

/-- The five bytes may have been brought to `TXBUF[2..7)` before the frame is built around them. -/
theorem buildsWithCrc_of_buildSelectInPlace {lo : Nat} (hidle : s.busy = false)
    (hrule : buildSelectRule lvl fromRx (s.accept 0x23) = buildSelectInPlace n t)
    (hother : t = { s.accept 0x23 with mem := t.mem })
    (hmem : ∀ a, t.bufByte a = if 0x102 ≤ a ∧ a < 0x107 then s.bufByte (lo + (a - 0x102)) else s.bufByte a) :
    BuildsWithCrc (.buildSelect lvl fromRx) 0x23 (selectFrameAt n s lo).bytes 72 (frameCrc (selectFrameAt n s lo)) s := by
  have hframe : buildSelectInPlace n t = (t.putCrcFrame (selectFrameAt n s lo)).complete := by
    have hbyte (i : Nat) (hi : i < 5) : t.txByte (i + 2) = s.bufByte (lo + i) := by
      rw [State.txByte, hmem, if_pos (by unfold Config.txBase; omega)]
      exact congrArg s.bufByte (by unfold Config.txBase; omega)
    rw [buildSelectInPlace, hbyte 0 (by decide), hbyte 1 (by decide), hbyte 2 (by decide), hbyte 3 (by decide),
      hbyte 4 (by decide)]
    rfl
  refine buildsWithCrc_of_putCrcFrame (f := selectFrameAt n s lo) hidle (exec_buildSelect lvl fromRx s) rfl
    (hrule.trans hframe) hother fun a hout => ?_
  have hlen : (selectFrameAt n s lo).bytes.length = 9 := rfl
  rw [hmem, if_neg (by omega)]

theorem buildSelect_fromTx_builds (hidle : s.busy = false) (hlvl : levelOperand lvl = some n) :
    BuildsWithCrc (.buildSelect lvl 0) 0x23 (selectFrameAt n s 0x102).bytes 72 (frameCrc (selectFrameAt n s 0x102)) s := by
  refine buildsWithCrc_of_buildSelectInPlace hidle (buildSelectRule_fromTx hlvl) rfl fun a => ?_
  rw [bufByte_accept]
  split
  · exact congrArg s.bufByte (by omega)
  · rfl

theorem buildSelect_fromRx_builds (hidle : s.busy = false) (hlvl : levelOperand lvl = some n) (hbits : s.rxBits.toNat = 40) :
    BuildsWithCrc (.buildSelect lvl 1) 0x23 (selectFrameAt n s 0x300).bytes 72 (frameCrc (selectFrameAt n s 0x300)) s := by
  refine buildsWithCrc_of_buildSelectInPlace hidle (buildSelectRule_fromRx hlvl hbits) rfl fun a => ?_
  have hwrite := writeTx_bufByte (s.accept 0x23) 2 ((s.accept 0x23).rxBytes 5) a
  rw [State.rxBytes, bufBytes_length, bufBytes_accept, bufByte_accept] at hwrite
  refine hwrite.trans ?_
  by_cases hin : 0x102 ≤ a ∧ a < 0x107
  · exact (if_pos hin).trans ((bufBytes_getD s 0x300 5 _ (by unfold Config.txBase; omega)).trans (if_pos hin).symm)
  · exact (if_neg hin).trans (if_neg hin).symm

end Select

/-- Settles O13, by the source of the five bytes. -/
theorem selectConfirmIsBuilt : Obligations.SelectConfirmIsBuilt := by
  unfold Obligations.SelectConfirmIsBuilt
  intro lvl fromRx s hidle
  refine ⟨fun lo body crc hlo hhi hsrc hbody hcrc => ?legal, fun hbad => ?illegal⟩
  case legal =>
    obtain ⟨n, hn⟩ := exists_level hlo hhi
    have hlvl := levelOperand_some.mpr hn
    rw [hn, ← selCode_eq] at hbody
    have hframe : selectFrameAt n s lo = frameWithCrcA body := by rw [hbody]; rfl
    have hbytes : (selectFrameAt n s lo).bytes = body ++ [loByte crc, hiByte crc] := by rw [hframe, hcrc]; rfl
    have hres : frameCrc (selectFrameAt n s lo) = crc := by rw [hframe, frameCrc_frameWithCrcA, hcrc]
    rw [← hbytes, ← hres]
    rcases hsrc with ⟨rfl, rfl⟩ | ⟨rfl, hbits, rfl⟩
    · exact buildSelect_fromTx_builds hidle hlvl
    · exact buildSelect_fromRx_builds hidle hlvl hbits
  case illegal => exact rejects_of_raise hidle (exec_buildSelect lvl fromRx s) (buildSelectRule_illegal hbad)

/-! ### BCC_CALC -/

/-- Settles O14: one stored byte. -/
theorem bccCalcStoresTheCheckCharacter : Obligations.BccCalcStoresTheCheckCharacter := by
  unfold Obligations.BccCalcStoresTheCheckCharacter
  intro s hidle
  exact ⟨bccCalcRule (s.accept 0x26), by rw [exec_bccCalc, issue_idle hidle], rfl, bufByte_putList rfl rfl rfl rfl⟩

/-! ### PARSE_ANTICOLL and PARSE_SAK -/

section Parse

variable {lvl src : Byte} {n : Level} {s : State} {f : Frame}

theorem parseAnticollRule_legal (hlvl : levelOperand lvl = some n) (hf : source src s = some f) (hbits : f.nbits = 40) :
    parseAnticollRule lvl src s = { s.storeAnticoll n f.bytes with
      warn := setBccWarn s.warn n (!bccOk f.bytes)
      matched := bccOk f.bytes }.complete := by
  simp only [parseAnticollRule, hlvl, hf, hbits, ne_eq, not_true_eq_false, if_false]

theorem parseAnticollRule_illegal
    (hbad : lvl.toNat = 0 ∨ 3 < lvl.toNat ∨ 2 < src.toNat ∨ ∃ f, source src s = some f ∧ f.nbits ≠ 40) :
    parseAnticollRule lvl src s = s.raise .invalidParameter := by
  rw [← or_assoc, ← levelOperand_none, ← source_none (s := s)] at hbad
  rw [parseAnticollRule]
  rcases hbad with hlvl | hsrc | ⟨f, hf, hbits⟩
  · rw [hlvl]
  · rw [hsrc]
    cases levelOperand lvl <;> rfl
  · cases levelOperand lvl with
    | none => rfl
    | some n => simp only [hf, if_pos hbits]

theorem parseSakRule_legal (hf : source src s = some f) (hbits : f.nbits = 8) :
    parseSakRule src s = { s with sak := f.bytes.getD 0 0 }.complete := by
  simp only [parseSakRule, hf, hbits, ne_eq, not_true_eq_false, if_false]

theorem parseSakRule_illegal (hbad : 2 < src.toNat ∨ ∃ f, source src s = some f ∧ f.nbits ≠ 8) :
    parseSakRule src s = s.raise .invalidParameter := by
  rw [← source_none (s := s)] at hbad
  rcases hbad with hsrc | ⟨f, hf, hbits⟩
  · rw [parseSakRule, hsrc]
  · simp only [parseSakRule, hf, if_pos hbits]

end Parse

theorem first_four_getD (a : List Byte) {k : Nat} (hk : k < 4) :
    [a.getD 0 0, a.getD 1 0, a.getD 2 0, a.getD 3 0].getD k 0 = a.getD k 0 := by
  match k, hk with
  | 0, _ | 1, _ | 2, _ | 3, _ => rfl

/-- `SAK_FLAGS` has two bits, `Cascade` and `AtsSupported` (10_state.md R30). -/
theorem sakFlags_bit (sak : Byte) {k : Nat} (hk : k < 8) :
    (sakFlags sak).getLsbD k = (decide (k = 0) && sak.getLsbD 2 || decide (k = 1) && sak.getLsbD 5) := by
  rw [sakFlags, bitsToByte_bit _ (by simp) k hk, cascade_bit, atsSupported_bit]
  match k with
  | 0 => simp
  | 1 => simp
  | k + 2 => simp

/-- Settles O15: the slices and the warning bit of the level, and the one byte of a SAK. -/
theorem parseCommandsStoreTheAnswer : Obligations.ParseCommandsStoreTheAnswer := by
  unfold Obligations.ParseCommandsStoreTheAnswer
  refine ⟨fun lvl src s hidle => ⟨fun f k ok hk hlt hf hbits hok => ?anticoll, fun hbad => ?anticollIllegal⟩,
    fun src s hidle => ⟨fun f hf hbits => ⟨?sak, fun k hk => sakFlags_bit _ hk⟩, fun hbad => ?sakIllegal⟩⟩
  case anticoll =>
    obtain ⟨n, hn⟩ := exists_level (k := k + 1) (by omega) (by omega)
    have hrule := parseAnticollRule_legal (levelOperand_some.mpr (hk.trans hn))
      ((source_accept s 0x27 src).trans hf) hbits
    have hbcc : bccOk f.bytes = ok := hok.symm
    rw [hbcc] at hrule
    refine ⟨_, by rw [exec_parseAnticoll, issue_idle hidle, hrule], rfl, fun i _ => ?rawUid, fun i hi => ?rawBcc,
      fun j hj => ?warn⟩
    case rawUid =>
      refine (setRawPart_getD s.rawUid n _ _ _ _ k i hn.symm).trans (ite_congr rfl (fun hin => ?_) fun _ => rfl)
      exact first_four_getD f.bytes (by omega)
    case rawBcc => exact setRawBcc_getD s.rawBcc n _ k i hn.symm hi
    case warn =>
      refine (setBccWarn_bit s.warn n (!ok) j hj).trans ?_
      simp only [← hn, Nat.add_right_cancel_iff]
  case anticollIllegal =>
    exact rejects_of_raise hidle (exec_parseAnticoll lvl src s) (parseAnticollRule_illegal (by rwa [source_accept]))
  case sak =>
    rw [exec_parseSak, issue_idle hidle, parseSakRule_legal ((source_accept s 0x28 src).trans hf) hbits]
    rfl
  case sakIllegal =>
    exact rejects_of_raise hidle (exec_parseSak src s) (parseSakRule_illegal (by rwa [source_accept]))

/-! ### ASSEMBLE_UID -/

theorem assembleUidRule_illegal {levels : Byte} (s : State) (hbad : levels.toNat = 0 ∨ 3 < levels.toNat) :
    assembleUidRule levels s = s.raise .invalidParameter := by
  rw [assembleUidRule, levelOperand_none.mpr hbad]

/-- The slices of `RAWUID` that make up a UID, by the number of its last level (41_frame_codec.md R144). -/
theorem uidAssemble_eq_ite (raw : Vector Byte 12) (n : Level) :
    uidAssemble raw n =
      if levelNum n = 1 then raw.toList.take 4
      else if levelNum n = 2 then (raw.toList.drop 1).take 3 ++ (raw.toList.drop 4).take 4
      else (raw.toList.drop 1).take 3 ++ (raw.toList.drop 5).take 3 ++ (raw.toList.drop 8).take 4 := by
  rw [uidAssemble_slices]
  cases n <;> rfl

theorem uidAssemble_fits (raw : Vector Byte 12) (n : Level) : (uidAssemble raw n).length ≤ 10 := by
  rw [uidAssemble_length]
  cases n <;> decide

/-- The warning bits of ASSEMBLE_UID: levels 1 and 2, where they are not the last one, and whether their first byte is the cascade
tag (41_frame_codec.md R143). -/
theorem assembleUidRule_legal {levels : Byte} {n : Level} {s : State} (hlvl : levelOperand levels = some n) :
    assembleUidRule levels s = { s.assembleUid n with
      warn := { s.warn with
        ct1 := decide (2 ≤ levelNum n ∧ s.rawUid.toList.getD 0 0 ≠ 0x88)
        ct2 := decide (levelNum n = 3 ∧ s.rawUid.toList.getD 4 0 ≠ 0x88) } }.complete := by
  have hfirst : s.rawUid[0] = s.rawUid.toList.getD 0 0 := rawFirst_getD s.rawUid .cl1
  have hsecond : s.rawUid[4] = s.rawUid.toList.getD 4 0 := rawFirst_getD s.rawUid .cl2
  have hnotLast : n ≠ .cl1 ↔ 2 ≤ levelNum n := by cases n <;> decide
  have hthird : n = .cl3 ↔ levelNum n = 3 := by cases n <;> decide
  simp only [assembleUidRule, hlvl, hfirst, hsecond, hnotLast, hthird]
  rfl

/-- Settles O16: the slices of the assembled UID, zero above them, and both cascade-tag bits. -/
theorem assembleUidDropsCascadeTags : Obligations.AssembleUidDropsCascadeTags := by
  unfold Obligations.AssembleUidDropsCascadeTags
  intro levels s hidle
  refine ⟨fun raw u hlo hhi hraw hu => ?legal, fun hbad => ?illegal⟩
  case legal =>
    obtain ⟨n, hn⟩ := exists_level hlo hhi
    have hassembled : uidAssemble s.rawUid n = u := by rw [uidAssemble_eq_ite, hu, hraw, hn]
    have hrule := assembleUidRule_legal (s := s.accept 0x29) (levelOperand_some.mpr hn)
    refine ⟨_, by rw [exec_assembleUid, issue_idle hidle, hrule], ?frame, ?uid⟩
    case frame =>
      rw [hn, hraw, ← uidAssemble_length s.rawUid n]
      rfl
    case uid =>
      rw [← hassembled]
      exact uidFill_toList _ (uidAssemble_fits s.rawUid n)
  case illegal => exact rejects_of_raise hidle (exec_assembleUid levels s) (assembleUidRule_illegal _ hbad)

end Sys2Proof.Proofs.FrameCodec

/-! The line coding (42_bit_transceive.md R163, R165 to R167). Behind its first `i` groups a line frame is the line frame of the bytes
left, which places every bit; and the round trips in both directions say what `LineDecode` returns. -/

namespace Sys2Proof.Proofs.LineCoding

open Sys2Proof Sys2Proof.Machine Sys2Proof.Proofs.Encoding

/-! ### Where each bit of a frame stands on the line -/

/-- An entry within a list; the rules of `getD` that core Lean has go through `getElem?`. -/
theorem getD_eq_getElem_of_lt {α : Type} {l : List α} {i : Nat} (d : α) (h : i < l.length) : l.getD i d = l[i] := by
  rw [List.getD_eq_getElem?_getD, List.getElem?_eq_getElem h, Option.getD_some]

theorem byteBits_getD (b : Byte) {k : Nat} (hk : k < 8) : (byteBits b).getD k false = b.getLsbD k := by
  rw [getD_eq_getElem_of_lt _ (by rwa [byteBits_length])]
  simp only [byteBits_eq_map, List.getElem_map, List.getElem_range]

theorem take_byteBits_getD (b : Byte) {k n : Nat} (hkn : k < n) (hk : k < 8) :
    ((byteBits b).take n).getD k false = b.getLsbD k := by
  rw [List.getD_eq_getElem?_getD, List.getElem?_take_of_lt hkn, ← List.getD_eq_getElem?_getD, byteBits_getD b hk]

/-- Nine bits further on, the line frame is that of the bytes behind the first (42_bit_transceive.md R165). -/
theorem lineEncode_drop_group {bytes : List Byte} {n : Nat} (hlen : bytes.length = ceil8 n) (h8 : 8 ≤ n) :
    (lineEncode bytes n).drop 9 = lineEncode (bytes.drop 1) (n - 8) := by
  cases bytes with
  | nil =>
    have hzero : 0 = (n + 7) / 8 := hlen
    omega
  | cons b bs => rw [lineEncode_group b bs n h8]; rfl

theorem lineEncode_drop {bytes : List Byte} {n i : Nat} (hlen : bytes.length = ceil8 n) (hi : i ≤ n / 8) :
    (lineEncode bytes n).drop (9 * i) = lineEncode (bytes.drop i) (n - 8 * i) := by
  induction i with
  | zero => rfl
  | succ i ih =>
    have hrest : (bytes.drop i).length = ceil8 (n - 8 * i) := by
      rw [List.length_drop, hlen]
      unfold ceil8
      omega
    rw [Nat.mul_succ, ← List.drop_drop, ih (by omega), lineEncode_drop_group hrest (by omega), List.drop_drop]
    congr 1

theorem lineEncode_getD {bytes : List Byte} {n i : Nat} (hlen : bytes.length = ceil8 n) (hi : i ≤ n / 8) (k : Nat) :
    (lineEncode bytes n).getD (9 * i + k) false = (lineEncode (bytes.drop i) (n - 8 * i)).getD k false := by
  rw [← lineEncode_drop hlen hi]
  simp only [List.getD_eq_getElem?_getD, List.getElem?_drop]

theorem drop_eq_getD_cons {bytes : List Byte} {i : Nat} (h : i < bytes.length) :
    bytes.drop i = bytes.getD i 0 :: bytes.drop (i + 1) := by
  rw [getD_eq_getElem_of_lt _ h]
  exact List.drop_eq_getElem_cons h

/-- From bit `9i` on, the line frame is the eight bits of byte `i`, its parity bit and the rest. -/
theorem lineEncode_getD_group {bytes : List Byte} {n i : Nat} (hlen : bytes.length = ceil8 n) (hi : i < n / 8) (k : Nat) :
    (lineEncode bytes n).getD (9 * i + k) false =
      (byteBits (bytes.getD i 0) ++ par (bytes.getD i 0) :: lineEncode (bytes.drop (i + 1)) (n - 8 * i - 8)).getD k false := by
  have hbyte : i < bytes.length := by
    rw [hlen]
    unfold ceil8
    omega
  rw [lineEncode_getD hlen (Nat.le_of_lt hi), drop_eq_getD_cons hbyte, lineEncode_group _ _ _ (by omega)]

theorem lineEncode_dataBit {bytes : List Byte} {n i k : Nat} (hlen : bytes.length = ceil8 n) (hi : i < n / 8) (hk : k < 8) :
    (lineEncode bytes n).getD (9 * i + k) false = (bytes.getD i 0).getLsbD k := by
  rw [lineEncode_getD_group hlen hi, List.getD_eq_getElem?_getD, List.getElem?_append_left (by rwa [byteBits_length]),
    ← List.getD_eq_getElem?_getD, byteBits_getD _ hk]

theorem lineEncode_parityBit {bytes : List Byte} {n i : Nat} (hlen : bytes.length = ceil8 n) (hi : i < n / 8) :
    (lineEncode bytes n).getD (9 * i + 8) false = par (bytes.getD i 0) := by
  rw [lineEncode_getD_group hlen hi]
  rfl

theorem lineEncode_partialBit {bytes : List Byte} {n k : Nat} (hlen : bytes.length = ceil8 n) (hk : k < n % 8) :
    (lineEncode bytes n).getD (9 * (n / 8) + k) false = (bytes.getD (n / 8) 0).getLsbD k := by
  have hbyte : n / 8 < bytes.length := by
    rw [hlen]
    unfold ceil8
    omega
  rw [lineEncode_getD hlen (Nat.le_refl _), drop_eq_getD_cons hbyte, lineEncode_partial _ _ _ (by omega),
    take_byteBits_getD _ (by omega) (by omega)]

/-- The parity bit makes the number of ones odd (42_bit_transceive.md R167). -/
theorem par_odd (b : Byte) : ((List.range 8).countP (fun k => b.getLsbD k) + (par b).toNat) % 2 = 1 := by
  revert b
  decide

/-- Settles O17, by the place of a bit: in a group of nine, at its end, or in the partial byte. -/
theorem lineEncodeGivesGroupsOfNine : Obligations.LineEncodeGivesGroupsOfNine := by
  unfold Obligations.LineEncodeGivesGroupsOfNine
  exact ⟨par_odd, fun bytes nbits hlen => ⟨lineEncode_length bytes nbits hlen, fun i k => lineEncode_dataBit hlen,
    fun i => lineEncode_parityBit hlen, fun k => lineEncode_partialBit hlen⟩⟩

/-! ### Decoding what was encoded -/

/-- The bits of the partial last byte above the length are 0 (42_bit_transceive.md R166). -/
def UnusedBitsZero (bytes : List Byte) (n : Nat) : Prop :=
  ∀ k, n % 8 ≤ k → k < 8 → n % 8 ≠ 0 → (bytes.getD (n / 8) 0).getLsbD k = false

theorem unusedBitsZero_tail {b : Byte} {bs : List Byte} {n : Nat} (h8 : 8 ≤ n) (h : UnusedBitsZero (b :: bs) n) :
    UnusedBitsZero bs (n - 8) := by
  obtain ⟨m, rfl⟩ := Nat.exists_eq_add_of_le' h8
  unfold UnusedBitsZero at h ⊢
  rw [Nat.add_sub_cancel]
  rwa [Nat.add_mod_right, Nat.add_div_right m (by decide)] at h

/-- The low bits of a byte make it up again where the bits above them are 0. -/
theorem bitsToByte_take_byteBits {b : Byte} {n : Nat} (hn : n ≤ 8) (hzero : ∀ k, n ≤ k → k < 8 → b.getLsbD k = false) :
    bitsToByte ((byteBits b).take n) = b := by
  have hlen : ((byteBits b).take n).length = n := by rw [List.length_take, byteBits_length, Nat.min_eq_left hn]
  refine BitVec.eq_of_getLsbD_eq fun k hk => ?_
  rw [bitsToByte_bit _ (by omega) k hk]
  by_cases hkn : k < n
  · rw [take_byteBits_getD b hkn hk]
  · rw [List.getD_eq_getElem?_getD, List.getElem?_eq_none (by omega), Option.getD_none, hzero k (by omega) hk]

/-- A rest that is not empty and holds no group is one partial byte (42_bit_transceive.md R166). -/
theorem decodeGroups_short {l : LineBits} (hne : l ≠ []) (hlen : l.length < 9) :
    decodeGroups l = .ok ⟨[bitsToByte l], l.length⟩ := by
  refine decodeGroups.eq_3 l (fun x0 x1 x2 x3 x4 x5 x6 x7 p rest hl => ?_) hne
  rw [hl] at hlen
  simp only [List.length_cons] at hlen
  omega

theorem decodeGroups_lineEncode {bytes : List Byte} {n : Nat} (hlen : bytes.length = ceil8 n) (hzero : UnusedBitsZero bytes n) :
    decodeGroups (lineEncode bytes n) = .ok ⟨bytes, n⟩ := by
  induction bytes generalizing n with
  | nil =>
    have hn : 0 = (n + 7) / 8 := hlen
    obtain rfl : n = 0 := by omega
    rfl
  | cons b bs ih =>
    have hn : bs.length + 1 = (n + 7) / 8 := hlen
    by_cases h8 : 8 ≤ n
    · have hrest : bs.length = ceil8 (n - 8) := by unfold ceil8; omega
      rw [lineEncode_group b bs n h8, decodeGroups_group, ih hrest (unusedBitsZero_tail h8 hzero), consByte_ok]
      simp only [XResult.ok.injEq, Frame.mk.injEq, true_and]
      omega
    · obtain rfl : bs = [] := List.eq_nil_of_length_eq_zero (by omega)
      have hbits : ((byteBits b).take n).length = n := by rw [List.length_take, byteBits_length]; omega
      have hb : ∀ k, n ≤ k → k < 8 → b.getLsbD k = false := by
        unfold UnusedBitsZero at hzero
        rw [Nat.mod_eq_of_lt (by omega), Nat.div_eq_of_lt (by omega)] at hzero
        exact fun k hnk hk => hzero k hnk hk (by omega)
      rw [lineEncode_partial b [] n (by omega), decodeGroups_short (List.ne_nil_of_length_pos (by omega)) (by omega), hbits,
        bitsToByte_take_byteBits (by omega) hb]

/-- Settles O19: the length passes both checks, and the groups are undone byte by byte. -/
theorem lineDecodeInvertsLineEncode : Obligations.LineDecodeInvertsLineEncode := by
  unfold Obligations.LineDecodeInvertsLineEncode
  intro f hlen hmax hzero
  rw [lineDecode, lineEncode_length _ _ hlen, if_neg (by omega), if_neg (by unfold Config.maxFrameLen; omega)]
  exact decodeGroups_lineEncode hlen hzero

/-! ### What `LineDecode` returns -/

theorem decodeGroups_err {bits : LineBits} {e : ErrKind} (h : decodeGroups bits = .err e) : e = .parityError := by
  induction bits using decodeGroups.induct with
  | case1 x0 x1 x2 x3 x4 x5 x6 x7 rest b =>
    rename_i ih
    rw [decodeGroups, if_pos rfl] at h
    cases hrest : decodeGroups rest with
    | ok f =>
      rw [hrest] at h
      cases h
    | err e' =>
      rw [hrest] at h
      cases h
      exact ih hrest
  | case2 x0 x1 x2 x3 x4 x5 x6 x7 p rest b =>
    rename_i hp
    rw [decodeGroups, if_neg hp] at h
    cases h
    rfl
  | case3 => cases h
  | case4 rest hnine hnil =>
    rw [decodeGroups.eq_3 rest hnine hnil] at h
    cases h

/-- The bits of `q` complete groups and a rest of `r` bits are those of `bytes`, the unused ones 0 (42_bit_transceive.md R166);
the parity bits are left open. -/
structure Unpacks (bits : LineBits) (q r : Nat) (bytes : List Byte) : Prop where
  bitsLength : bits.length = 9 * q + r
  shortRest : r < 8
  bytesLength : bytes.length = ceil8 (8 * q + r)
  dataBit : ∀ i k, i < q → k < 8 → (bytes.getD i 0).getLsbD k = bits.getD (9 * i + k) false
  partialBit : ∀ k, k < 8 → 0 < r → (bytes.getD q 0).getLsbD k = if k < r then bits.getD (9 * q + k) false else false

/-- The parity bit of each group is that of its byte (42_bit_transceive.md R167). -/
def ParityRight (bits : LineBits) (q : Nat) (bytes : List Byte) : Prop :=
  ∀ i, i < q → bits.getD (9 * i + 8) false = par (bytes.getD i 0)

section Unpacking

variable {bits : LineBits} {q r : Nat} {bytes : List Byte}

theorem Unpacks.div_mod (h : Unpacks bits q r bytes) : (8 * q + r) / 8 = q ∧ (8 * q + r) % 8 = r := by
  have := h.shortRest
  omega

theorem Unpacks.unusedBitsZero (h : Unpacks bits q r bytes) : UnusedBitsZero bytes (8 * q + r) := by
  unfold UnusedBitsZero
  rw [h.div_mod.1, h.div_mod.2]
  intro k hrk hk hr
  rw [h.partialBit k hk (Nat.pos_of_ne_zero hr), if_neg (by omega)]

/-- Bits whose parity is right are the line frame of the bytes they make up. -/
theorem Unpacks.lineEncode_eq (h : Unpacks bits q r bytes) (hpar : ParityRight bits q bytes) :
    lineEncode bytes (8 * q + r) = bits := by
  obtain ⟨hdiv, hmod⟩ := h.div_mod
  have hlen := lineEncode_length _ _ h.bytesLength
  rw [hdiv, hmod, ← h.bitsLength] at hlen
  refine List.ext_getElem hlen fun j hj hj' => ?_
  rw [← getD_eq_getElem_of_lt false hj, ← getD_eq_getElem_of_lt false hj', ← Nat.div_add_mod j 9]
  have hbits := h.bitsLength
  have hj9 : j % 9 < 9 := Nat.mod_lt j (by decide)
  by_cases hgroup : j / 9 < q
  · by_cases hdata : j % 9 < 8
    · rw [lineEncode_dataBit h.bytesLength (by rwa [hdiv]) hdata, h.dataBit _ _ hgroup hdata]
    · have hparity : j % 9 = 8 := by omega
      rw [hparity, lineEncode_parityBit h.bytesLength (by rwa [hdiv]), hpar _ hgroup]
  · have hlast : j / 9 = q := by have := h.shortRest; omega
    have hrest : j % 9 < r := by omega
    have hpartial := lineEncode_partialBit (k := j % 9) h.bytesLength (by rwa [hmod])
    rw [hdiv] at hpartial
    rw [hlast, hpartial, h.partialBit _ (by have := h.shortRest; omega) (by omega), if_pos hrest]

/-- Two frames that unpack the same bits agree byte by byte in the complete groups. -/
theorem Unpacks.byte_unique {bytes' : List Byte} (h : Unpacks bits q r bytes)
    (h' : ∀ i k, i < q → k < 8 → (bytes'.getD i 0).getLsbD k = bits.getD (9 * i + k) false) {i : Nat} (hi : i < q) :
    bytes'.getD i 0 = bytes.getD i 0 :=
  BitVec.eq_of_getLsbD_eq fun k hk => by rw [h' i k hi hk, h.dataBit i k hi hk]

/-- An accepted line frame has the right parity bits, being the line frame of what it decodes to. -/
theorem Unpacks.parityRight (h : Unpacks bits q r bytes) {f : Frame} (hf : lineDecode bits = .ok f) : ParityRight bits q bytes := by
  have hshape := (lineDecode_shape hf).1
  have hline : lineEncode f.bytes f.nbits = bits := frameLine_of_lineDecode hf
  have hq : f.nbits / 8 = q := by
    have hlen := lineEncode_length _ _ hshape
    rw [hline, h.bitsLength] at hlen
    have := h.shortRest
    omega
  have hbytes {i : Nat} (hi : i < q) : f.bytes.getD i 0 = bytes.getD i 0 := by
    refine h.byte_unique (fun i k hi hk => ?_) hi
    rw [← hline, lineEncode_dataBit hshape (by rwa [hq]) hk]
  intro i hi
  rw [← hbytes hi, ← hline, lineEncode_parityBit hshape (by rwa [hq])]

/-- Past the checks of its length, a line frame decodes or has a wrong parity bit. -/
theorem lineDecode_of_length (hlen : bits.length = 9 * q + r) (hr : r < 8) (hfits : (if 0 < r then q + 1 else q) ≤ 264) :
    lineDecode bits = decodeGroups bits := by
  have hgroups : (9 * q + r + 8) / 9 ≤ 264 := by split at hfits <;> omega
  rw [lineDecode, hlen, if_neg (by omega), if_neg (by unfold Config.maxFrameLen; omega)]

theorem Unpacks.lineDecode_eq (h : Unpacks bits q r bytes) (hfits : (if 0 < r then q + 1 else q) ≤ 264)
    (hpar : ParityRight bits q bytes) : lineDecode bits = .ok ⟨bytes, 8 * q + r⟩ := by
  rw [lineDecode_of_length h.bitsLength h.shortRest hfits, ← h.lineEncode_eq hpar]
  exact decodeGroups_lineEncode h.bytesLength h.unusedBitsZero

theorem Unpacks.lineDecode_parityError (h : Unpacks bits q r bytes) (hfits : (if 0 < r then q + 1 else q) ≤ 264)
    (hpar : ¬ParityRight bits q bytes) : lineDecode bits = .err .parityError := by
  cases hx : lineDecode bits with
  | ok f => exact absurd (h.parityRight hx) hpar
  | err e =>
    rw [lineDecode_of_length h.bitsLength h.shortRest hfits] at hx
    rw [decodeGroups_err hx]

end Unpacking

theorem lineDecode_bitCountError {bits : LineBits} (h : bits.length % 9 = 8) : lineDecode bits = .err .bitCountError := by
  rw [lineDecode, if_pos h]

theorem lineDecode_bufferOverflow {bits : LineBits} (h8 : bits.length % 9 ≠ 8) (h : 264 < (bits.length + 8) / 9) :
    lineDecode bits = .err .bufferOverflow := by
  rw [lineDecode, if_neg h8]
  exact if_pos h

/-- Settles O18: both checks of the length, then the round trips decide by the parity bits. -/
theorem lineDecodeChecksThenUnpacks : Obligations.LineDecodeChecksThenUnpacks := by
  unfold Obligations.LineDecodeChecksThenUnpacks
  intro bits q r hlen hr9
  refine ⟨fun hr => ?bitCount, fun hr hlong => ?overflow, fun hr hfits bytes hbytes hdata hpartial => ?unpacked⟩
  case bitCount => exact lineDecode_bitCountError (by omega)
  case overflow => exact lineDecode_bufferOverflow (by omega) (by split at hlong <;> omega)
  case unpacked =>
    have hceil : bytes.length = ceil8 (8 * q + r) := by
      unfold ceil8
      split at hbytes <;> omega
    have hunpacks : Unpacks bits q r bytes := ⟨hlen, hr, hceil, hdata, hpartial⟩
    split
    case isTrue hwrong =>
      obtain ⟨i, hi, hne⟩ := hwrong
      exact hunpacks.lineDecode_parityError hfits fun hpar => hne (hpar i hi)
    case isFalse hright =>
      exact hunpacks.lineDecode_eq hfits fun i hi => Decidable.byContradiction fun hne => hright ⟨i, hi, hne⟩

/-! ### The CRC_A of a received frame -/

section CheckCrc

variable {f : Frame}

theorem checkCrcA_partial (h : f.nbits % 8 ≠ 0) : checkCrcA f = .err .bitCountError := by
  simp only [checkCrcA, if_pos h]

theorem checkCrcA_short (h : f.nbits = 0 ∨ f.nbits = 8) : checkCrcA f = .err .crcMismatch := by
  have hwhole : ¬f.nbits % 8 ≠ 0 := by omega
  have hshort : f.nbits / 8 < 2 := by omega
  simp only [checkCrcA, if_neg hwhole, if_pos hshort]

/-- The last two of at least two bytes. -/
theorem drop_eq_last_two {bytes : List Byte} {k : Nat} (hk : 2 ≤ k) (hlen : bytes.length = k) :
    bytes.drop (k - 2) = [bytes.getD (k - 2) 0, bytes.getD (k - 1) 0] := by
  rw [drop_eq_getD_cons (by omega), drop_eq_getD_cons (by omega), List.drop_eq_nil_of_le (by omega),
    (by omega : k - 2 + 1 = k - 1)]

/-- Two bytes or more: the last two are compared with the CRC_A of those before them (42_bit_transceive.md R163). -/
theorem checkCrcA_whole {k : Nat} (hnbits : f.nbits = 8 * k) (hk : 2 ≤ k) (hlen : f.bytes.length = k) :
    checkCrcA f =
      if f.bytes.getD (k - 2) 0 = loByte (crcA (f.bytes.take (k - 2))) ∧ f.bytes.getD (k - 1) 0 = hiByte (crcA (f.bytes.take (k - 2)))
      then .ok ⟨f.bytes.take (k - 2), 8 * (k - 2)⟩ else .err .crcMismatch := by
  have hwhole : ¬f.nbits % 8 ≠ 0 := by omega
  have hdiv : f.nbits / 8 = k := by omega
  simp only [checkCrcA, if_neg hwhole, hdiv, if_neg (Nat.not_lt.mpr hk), drop_eq_last_two hk hlen, crcBytes_eq_iff]

end CheckCrc

theorem decodeAnswer_line_ok {bits : LineBits} {f : Frame} (h : lineDecode bits = .ok f) (rxCrc : Bool) :
    decodeAnswer rxCrc (.line bits) = if rxCrc then checkCrcA f else .ok f := by
  simp only [decodeAnswer, decodeLine, h]

theorem decodeAnswer_line_err {bits : LineBits} {e : ErrKind} (h : lineDecode bits = .err e) (rxCrc : Bool) :
    decodeAnswer rxCrc (.line bits) = .err e := by
  simp only [decodeAnswer, decodeLine, h]

/-- Settles O20, by the outcome of the line decoding and then by the length of the frame. -/
theorem receivedCrcIsCheckedAndRemoved : Obligations.ReceivedCrcIsCheckedAndRemoved := by
  unfold Obligations.ReceivedCrcIsCheckedAndRemoved
  refine ⟨fun bits f hf => ?decoded, fun bits e rxCrc he => decodeAnswer_line_err he rxCrc,
    fun rxCrc => ⟨rfl, rfl, rfl, rfl⟩⟩
  have hcrc : decodeAnswer true (.line bits) = checkCrcA f := decodeAnswer_line_ok hf true
  rw [hcrc]
  refine ⟨decodeAnswer_line_ok hf false, checkCrcA_partial, checkCrcA_short, fun k c hnbits hk hc => ?whole⟩
  have hlen : f.bytes.length = k := by
    rw [(lineDecode_shape hf).1, hnbits]
    unfold ceil8
    omega
  rw [hc]
  exact checkCrcA_whole hnbits hk hlen

end Sys2Proof.Proofs.LineCoding

/-! Reading a line frame as an instruction makes no difference (42_bit_transceive.md R163, R164): a frame that is decoded as a row has
that row's line bits, so running the row hands over, or takes, the same line frame. -/

namespace Sys2Proof.Proofs.FrameRows

open Sys2Proof Sys2Proof.Machine Sys2Proof.Proofs.Encoding Sys2Proof.Proofs.DecodedSteps

/-! ### The frame due, read as a row -/

/-- The low bits of a byte are those that a mask keeps (70_reset_and_hazards.md R295). -/
theorem take_byteBits_congr {b c mask : Byte} {n : Nat} (hmask : ∀ k, k < n → mask.getLsbD k = true)
    (h : b &&& mask = c &&& mask) : (byteBits b).take n = (byteBits c).take n := by
  have hbit (k : Nat) (hk : k < n) : b.getLsbD k = c.getLsbD k := by
    have hand := congrArg (fun x : Byte => x.getLsbD k) h
    simpa only [BitVec.getLsbD_and, hmask k hk, Bool.and_true] using hand
  rw [byteBits_eq_map, byteBits_eq_map, ← List.map_take, ← List.map_take]
  refine List.map_congr_left fun k hk => hbit k ?_
  rw [List.take_range, List.mem_range] at hk
  omega

/-- The bit above a seven-bit frame is ignored (70_reset_and_hazards.md R295). -/
theorem frameLine_seven {b c : Byte} (h : b &&& 0x7F = c &&& 0x7F) : frameLine ⟨[b], 7⟩ = frameLine ⟨[c], 7⟩ :=
  take_byteBits_congr (n := 7) (by decide) h

theorem frameLine_of_decodeShortFrame {b : Byte} {i : Instr} (h : decodeShortFrame b = .instr i) :
    frameLine (encode i) = frameLine ⟨[b], 7⟩ := by
  unfold decodeShortFrame at h
  split at h
  case isTrue hreqa => cases h; exact (frameLine_seven hreqa).symm
  split at h
  case isTrue hwupa => cases h; exact (frameLine_seven hwupa).symm
  split at h
  case isTrue hwake => cases h; exact (frameLine_seven hwake).symm
  case isFalse => cases h

theorem encode_of_decodeMagic {b : Byte} {i : Instr} (h : decodeMagic b = .instr i) : encode i = ⟨[b], 8⟩ := by
  unfold decodeMagic at h
  split at h
  case isTrue h43 => cases h; rw [h43]; rfl
  split at h
  case isTrue h41 => cases h; rw [h41]; rfl
  case isFalse => cases h

/-- The first byte of a frame names one level (30_encoding.md R98). -/
theorem selCode_of_levelOfSelCode {b : Byte} {n : Level} (h : levelOfSelCode b = some n) : b = selCode n := by
  unfold levelOfSelCode at h
  split at h
  case isTrue h93 => cases h; exact h93
  split at h
  case isTrue h95 => cases h; exact h95
  split at h
  case isTrue h97 => cases h; exact h97
  case isFalse => cases h

theorem encode_of_decodeAnticoll {b0 b1 : Byte} {i : Instr} (h : decodeAnticoll b0 b1 = .instr i) :
    encode i = ⟨[b0, b1], 16⟩ := by
  unfold decodeAnticoll at h
  split at h
  case isFalse => cases h
  case isTrue hb1 =>
    subst hb1
    cases hlevel : levelOfSelCode b0 with
    | none =>
      rw [hlevel] at h
      cases h
    | some n =>
      rw [hlevel] at h
      rw [selCode_of_levelOfSelCode hlevel]
      cases n <;> cases h <;> rfl

theorem encode_of_decodeHaltRats {b0 b1 c0 c1 : Byte} {i : Instr} (h : decodeHaltRats b0 b1 c0 c1 = .instr i) :
    encode i = ⟨[b0, b1, c0, c1], 32⟩ := by
  unfold decodeHaltRats at h
  split at h
  case isFalse => cases h
  case isTrue hcrc =>
    have hbytes : [b0, b1, c0, c1] = [b0, b1] ++ crcBytes (Machine.crcA [b0, b1]) := by rw [← hcrc]; rfl
    rw [hbytes]
    split at h
    case isTrue hrats => cases h; rw [hrats]; rfl
    split at h
    case isTrue hhalt => cases h; rw [hhalt.1, hhalt.2]; decide
    case isFalse => cases h

theorem encode_of_decodeSelect {b0 b1 u0 u1 u2 u3 bcc c0 c1 : Byte} {i : Instr}
    (h : decodeSelect b0 b1 u0 u1 u2 u3 bcc c0 c1 = .instr i) : encode i = ⟨[b0, b1, u0, u1, u2, u3, bcc, c0, c1], 72⟩ := by
  unfold decodeSelect at h
  split at h
  case isFalse => cases h
  case isTrue hb1 =>
    subst hb1
    split at h
    case isFalse => cases h
    case isTrue hcrc =>
      have hbytes : [b0, 0x70, u0, u1, u2, u3, bcc, c0, c1] =
          [b0, 0x70, u0, u1, u2, u3, bcc] ++ crcBytes (Machine.crcA [b0, 0x70, u0, u1, u2, u3, bcc]) := by rw [← hcrc]; rfl
      rw [hbytes]
      cases hlevel : levelOfSelCode b0 with
      | none =>
        rw [hlevel] at h
        cases h
      | some n =>
        rw [hlevel] at h
        rw [selCode_of_levelOfSelCode hlevel]
        cases n <;> cases h <;> rfl

/-- A frame read as a transmitted row has that row's line bits, whatever its unused bits (70_reset_and_hazards.md R295). -/
theorem frameLine_of_decode_transmit {f : Frame} {i : Instr} (h : decode .transmit f = .instr i) :
    frameLine (encode i) = frameLine f := by
  obtain ⟨bytes, nbits⟩ := f
  simp only [decode, decodeTransmit] at h
  split at h
  case h_1 => exact frameLine_of_decodeShortFrame h
  case h_2 => rw [encode_of_decodeMagic h]
  case h_3 => rw [encode_of_decodeAnticoll h]
  case h_4 => rw [encode_of_decodeHaltRats h]
  case h_5 => rw [encode_of_decodeSelect h]
  case h_6 => cases h

/-! ### Running a transmitted row -/

theorem exec_transmit_noneDue {i : Instr} {s : State} (hk : i.kind = .transmit) (h : dueFrame s = none) :
    exec i s = .refused .noFrameDue := by
  rw [exec_transmit hk, sendFrame, h]

theorem exec_transmit_due {i : Instr} {s : State} {g : Frame} (hk : i.kind = .transmit) (h : dueFrame s = some g) :
    exec i s = if frameLine g = frameLine (encode i) then .next (sendDue s) else .refused .noFrameDue := by
  rw [exec_transmit hk, sendFrame, h]

/-- Settles O31, by whether a frame is due. -/
theorem frameRowRunsOnlyWhenDue : Obligations.FrameRowRunsOnlyWhenDue := by
  unfold Obligations.FrameRowRunsOnlyWhenDue
  exact fun i s hk => ⟨exec_transmit_noneDue hk, fun g => exec_transmit_due hk⟩

/-- The frame that is due is handed over, a row or not. -/
theorem runDueFrame_sends {s : State} {r : Run} {d : Due} (h : Sends s r d) : runDueFrame s = .next (sendDue s) := by
  have hdue := dueFrame_sends h
  cases hdecode : decode .transmit (frameFor r d s) with
  | rejected reject => simp only [runDueFrame, hdue, hdecode]
  | instr i =>
    rw [runDueFrame_decoded hdue hdecode, exec_transmit_due (decode_kind hdecode) hdue,
      if_pos (frameLine_of_decode_transmit hdecode).symm]

/-! ### An answer, read as a row -/

/-- A line frame read as the row awaited is that row's own line frame. -/
theorem frameLine_of_receivedInstr {s : State} {bits : LineBits} {i : Instr} (h : receivedInstr s bits = some i) :
    frameLine (encode i) = bits := by
  cases hk : awaitedKind s with
  | none =>
    rw [receivedInstr, hk] at h
    cases h
  | some k =>
    obtain ⟨f, hf, hi⟩ := (receivedInstr_eq_some hk).mp h
    rw [encode_of_decode_received (receivedKind_of_awaitedKind hk) hi, frameLine_of_lineDecode hf]

theorem answerMove_eq (a : Answer) (s : State) : answerMove a s = .next (answerArrives a s) := by
  cases a with
  | line bits =>
    cases h : receivedInstr s bits with
    | none => simp only [answerMove, h]
    | some i => rw [answerMove_received h, exec_received (receivedInstr_kind h), frameLine_of_receivedInstr h]
  | rfTimeout | framingError | bitCollision | ioError => rfl

/-- Settles O45: an answer, and the frame due. -/
theorem frameRowsAreTheExchange : Obligations.FrameRowsAreTheExchange := by
  unfold Obligations.FrameRowsAreTheExchange
  exact ⟨answerMove_eq, fun s r d => runDueFrame_sends⟩

/-! ### An answer that no exchange awaits -/

theorem answerArrives_late {s : State} (a : Answer) (h : s.xch = none) : answerArrives a s = s := by
  simp only [answerArrives, h]

theorem receivedKind_of_eq {i : Instr}
    (h : i.kind = .atqa ∨ i.kind = .anticollAnswer ∨ i.kind = .sakAnswer ∨ i.kind = .ratsAnswer) :
    receivedKind i.kind = true := by
  rcases h with h | h | h | h <;> rw [h] <;> rfl

/-- Settles O39: the arrival itself finds no exchange, in a step and as a row. -/
theorem lateAnswerIsDiscarded : Obligations.LateAnswerIsDiscarded := by
  unfold Obligations.LateAnswerIsDiscarded
  refine ⟨fun s a rest hx hin hwait => ?step, fun s i hx hk => ?row⟩
  case step =>
    have hnoAbort : (s.abortReq && waiting s) = false := by
      cases habort : s.abortReq with
      | false => rfl
      | true => rw [hwait habort, Bool.and_false]
    rw [step_makeMove hin hnoAbort, makeMove, answerMove_eq]
    exact congrArg _ (answerArrives_late (s := { s with inbox := rest }) a hx)
  case row => rw [exec_received (receivedKind_of_eq hk), answerArrives_late _ hx]

end Sys2Proof.Proofs.FrameRows

/-! The commands XCV_BITS and XCV_BYTES (42_bit_transceive.md R168 to R170, R173): their acceptance, the frame they hand over, and
how they end. -/

namespace Sys2Proof.Proofs.Transceive

open Sys2Proof Sys2Proof.Machine Sys2Proof.Proofs.DecodedSteps Sys2Proof.Proofs.FrameRows
open Sys2Proof.Proofs.WellFormedSteps (txFrame_congr rawFrame_congr FitsBuffer fitsBuffer_decodeAnswer)
open Sys2Proof.Proofs.FrameCodec (rejects_of_raise)

/-! ### Acceptance -/

section Acceptance

variable {s : State}

theorem xcvBitsRule_legal (hlo : 1 ≤ s.txBits.toNat) (hhi : s.txBits.toNat ≤ 2112) :
    xcvBitsRule s = s.beginRun .xcvBits .raw := by
  rw [xcvBitsRule, if_neg (by unfold Config.maxFrameBits; omega)]

theorem xcvBitsRule_illegal (h : s.txBits.toNat = 0 ∨ 2112 < s.txBits.toNat) : xcvBitsRule s = s.raise .invalidParameter :=
  if_pos h

theorem xcvBytesRule_illegal (h : s.txBits.toNat = 0 ∨ 2112 < s.txBits.toNat ∨ s.txBits.toNat % 8 ≠ 0) :
    xcvBytesRule s = s.raise .invalidParameter :=
  if_pos h

variable {n : Nat} (hn : s.txBits.toNat = 8 * n) (hlo : 1 ≤ n) (hhi : n ≤ 264)

include hn hlo hhi

/-- A frame of whole bytes within bounds is left with the check of the room for its CRC (42_bit_transceive.md R169). -/
theorem xcvBytesRule_whole : xcvBytesRule s =
    if s.cfg.handleCrc = true ∧ 264 < n + 2 then s.raise .bufferTooSmall else s.beginRun (.xcvBytes s.cfg.handleCrc) .raw := by
  have hdiv : s.txBits.toNat / 8 = n := by omega
  rw [xcvBytesRule, if_neg (by unfold Config.maxFrameBits; omega), hdiv, Config.maxFrameLen]

theorem xcvBytesRule_legal (hroom : s.cfg.handleCrc = true → n + 2 ≤ 264) :
    xcvBytesRule s = s.beginRun (.xcvBytes s.cfg.handleCrc) .raw := by
  rw [xcvBytesRule_whole hn hlo hhi, if_neg fun h => Nat.not_lt.mpr (hroom h.1) h.2]

theorem xcvBytesRule_noRoom (hcrc : s.cfg.handleCrc = true) (hfull : 264 < n + 2) :
    xcvBytesRule s = s.raise .bufferTooSmall := by
  rw [xcvBytesRule_whole hn hlo hhi, if_pos ⟨hcrc, hfull⟩]

end Acceptance

/-- Settles O21: acceptance changes none of what the rules test. -/
theorem xcvBeginsItsExchange : Obligations.XcvBeginsItsExchange := by
  unfold Obligations.XcvBeginsItsExchange
  intro s n hidle
  refine ⟨fun hlo hhi => ?bits, fun hbad => ?bitsIllegal, fun hn hlo hhi hroom => ?bytes, fun hn hhi hcrc hfull => ?noRoom,
    fun hbad => ?bytesIllegal⟩
  case bits => rw [exec_xcvBits, issue_idle hidle, xcvBitsRule_legal (s := s.accept 0x30) hlo hhi, beginRun_accept]
  case bitsIllegal => exact rejects_of_raise hidle (exec_xcvBits s) (xcvBitsRule_illegal hbad)
  case bytes =>
    rw [exec_xcvBytes, issue_idle hidle, xcvBytesRule_legal (s := s.accept 0x31) hn hlo hhi hroom, beginRun_accept]
    rfl
  case noRoom =>
    rw [exec_xcvBytes, issue_idle hidle, xcvBytesRule_noRoom (s := s.accept 0x31) hn (by omega) hhi hcrc hfull, raise_accept]
  case bytesIllegal => exact rejects_of_raise hidle (exec_xcvBytes s) (xcvBytesRule_illegal hbad)

/-! ### The frame handed over -/

section HandOver

variable {s : State} {r : Run}

theorem sendDue_raw (h : Sends s r .raw) :
    sendDue s = handed r .raw (frameLine (rawFrame r.job s)) (decide (r.job = .xcvBytes true)) s :=
  sendDue_sends h

/-- The row that is the frame of `TXBUF` is handed over as that frame (42_bit_transceive.md R163). -/
theorem exec_raw {i : Instr} (hk : i.kind = .transmit) (h : Sends s r .raw)
    (hline : frameLine (encode i) = frameLine (rawFrame r.job s)) :
    exec i s = .next (handed r .raw (frameLine (rawFrame r.job s)) (decide (r.job = .xcvBytes true)) s) := by
  rw [exec_transmit_due hk (dueFrame_sends h), ← sendDue_raw h]
  exact if_pos hline.symm

theorem rawFrame_plain (hjob : r.job = .xcvBits ∨ r.job = .xcvBytes false) : rawFrame r.job s = txFrame s := by
  rcases hjob with hjob | hjob <;> rw [hjob] <;> rfl

/-- No CRC is checked but for XCV_BYTES with `HANDLE_CRC` (42_bit_transceive.md R168, R169). -/
theorem rxCrc_plain (hjob : r.job = .xcvBits ∨ r.job = .xcvBytes false) : decide (r.job = .xcvBytes true) = false := by
  rcases hjob with hjob | hjob <;> rw [hjob] <;> rfl

/-- A frame of at most one byte stands in `TXBUF[0]`. -/
theorem txFrame_oneByte {n : Nat} (hlo : 1 ≤ n) (hhi : n ≤ 8) (hn : s.txBits.toNat = n) :
    txFrame s = ⟨[s.bufByte 0x100], n⟩ := by
  have hceil : ceil8 n = 1 := by unfold ceil8; omega
  rw [txFrame, hn, hceil]
  rfl

/-- One whole byte, as the host leaves a magic-card frame in `TXBUF` (30_encoding.md R93). -/
theorem txFrame_eightBits {b : Byte} (hbits : s.txBits = 8) (hbyte : s.bufByte 0x100 = b) : txFrame s = ⟨[b], 8⟩ := by
  rw [txFrame_oneByte (n := 8) (by decide) (by decide) (by rw [hbits]; rfl), hbyte]

theorem frameLine_txFrame_partial {n : Nat} {mask c : Byte} (hlo : 1 ≤ n) (hhi : n < 8) (hn : s.txBits.toNat = n)
    (hmask : ∀ k, k < n → mask.getLsbD k = true) (hbyte : s.bufByte 0x100 &&& mask = c &&& mask) :
    frameLine (txFrame s) = (byteBits c).take n := by
  rw [txFrame_oneByte hlo (Nat.le_of_lt hhi) hn, frameLine, lineEncode_partial _ _ _ hhi, take_byteBits_congr hmask hbyte]

/-- As `exec_raw`, for XCV_BITS and a frame whose line bits are known. -/
theorem exec_raw_xcvBits {i : Instr} {line : LineBits} (hk : i.kind = .transmit) (h : Sends s r .raw) (hjob : r.job = .xcvBits)
    (hrow : frameLine (encode i) = line) (htx : frameLine (txFrame s) = line) :
    exec i s = .next (handed r .raw line false s) := by
  have hraw : frameLine (rawFrame r.job s) = line := by rw [rawFrame_plain (.inl hjob), htx]
  rw [exec_raw hk h (hrow.trans hraw.symm), hraw, rxCrc_plain (.inl hjob)]

end HandOver

/-- Settles O22: the row is the frame due; each magic-card frame is one byte of `TXBUF`. -/
theorem rawFrameIsHandedOver : Obligations.RawFrameIsHandedOver := by
  unfold Obligations.RawFrameIsHandedOver
  refine ⟨fun i s r hk h hline => exec_raw hk h hline,
    fun s r h hjob => ⟨fun hbits hbyte => ?wake40, fun hbits hbyte => ?magic43, fun hbits hbyte => ?magic41⟩⟩
  case wake40 =>
    refine exec_raw_xcvBits rfl h hjob rfl ?_
    exact frameLine_txFrame_partial (n := 7) (mask := 0x7F) (c := 0x40) (by decide) (by decide) (by rw [hbits]; rfl) (by decide) hbyte
  case magic43 | magic41 => exact exec_raw_xcvBits rfl h hjob rfl (congrArg frameLine (txFrame_eightBits hbits hbyte))

/-- The block's own move hands over the frame of `TXBUF` (42_bit_transceive.md R163 steps 1 to 3). -/
theorem step_raw {s : State} {r : Run} {rest : List Input} (hin : s.inbox = .proceed :: rest ∨ (s.inbox = [] ∧ rest = []))
    (h : Sends s r .raw) :
    step s = .next (handed r .raw (frameLine (rawFrame r.job s)) (decide (r.job = .xcvBytes true)) { s with inbox := rest }) := by
  have hsends : Sends { s with inbox := rest } r .raw := h
  have hframe : rawFrame r.job { s with inbox := rest } = rawFrame r.job s :=
    rawFrame_congr r.job (txFrame_congr (fun _ => rfl) rfl)
  rw [step_sends hin h, runDueFrame_sends hsends, sendDue_raw hsends, hframe]

/-- The frame of `n` whole bytes followed by its CRC_A (42_bit_transceive.md R169). -/
theorem rawFrame_withCrc {s : State} {n : Nat} (hn : s.txBits.toNat = 8 * n) :
    rawFrame (.xcvBytes true) s = ⟨s.txBytes 0 n ++ crcBytes (crcA (s.txBytes 0 n)), 8 * n + 16⟩ := by
  have hceil : ceil8 (8 * n) = n := by unfold ceil8; omega
  rw [rawFrame, txFrame, hn, hceil]

/-- Settles O23, by the command and whether it adds the CRC_A. -/
theorem handleCrcAddsTheCrcOnTheLine : Obligations.HandleCrcAddsTheCrcOnTheLine := by
  unfold Obligations.HandleCrcAddsTheCrcOnTheLine
  intro s r rest h hin
  have hstep := step_raw hin h
  refine ⟨fun hjob => ?plain, fun hjob hbits hbyte => ?fourBits, fun n c hjob hn hc => ?withCrc⟩
  case plain =>
    rw [hstep, rawFrame_plain hjob, rxCrc_plain hjob]
    rfl
  case fourBits =>
    rw [hstep, rawFrame_plain (.inl hjob), rxCrc_plain (.inl hjob),
      frameLine_txFrame_partial (n := 4) (mask := 0x0F) (c := 0x0A) (by decide) (by decide) (by rw [hbits]; rfl) (by decide) hbyte]
    rfl
  case withCrc =>
    rw [hstep, hjob, rawFrame_withCrc hn, hc]
    rfl

/-! ### The end of the exchange -/

/-- The move that ends an exchange is made with no abort pending, and the command takes the outcome (42_bit_transceive.md R163 steps 5
and 6). -/
theorem step_delivers {s : State} {r : Run} {d : Due} {x : Exchange} {m : Input} {rest : List Input} {o : XResult}
    (h : Awaits s r d x) (habort : s.abortReq = false) (hin : s.inbox = m :: rest) (hm : Delivers m x o) :
    step s = .next (finish r d o { s with inbox := rest, xch := none }) := by
  have hrest : Awaits { s with inbox := rest } r d x := h
  rw [step_makeMove hin (by rw [habort, Bool.false_and])]
  obtain ⟨a, rfl, ha, htimeout, rfl⟩ | ⟨rfl, htimeout, rfl⟩ := hm
  · rw [makeMove, answerMove_eq, answerArrives_delivered hrest.2.2 ha habort htimeout, endExchange_awaits hrest]
  · rw [makeMove, timeoutExpires_finite hrest.2.2 habort htimeout, endExchange_awaits hrest]

/-- What a move delivers fits the receive buffer (20_memory.md R74). -/
theorem fitsBuffer_of_delivers {m : Input} {x : Exchange} {o : XResult} (h : Delivers m x o) : FitsBuffer o := by
  obtain ⟨a, -, -, -, rfl⟩ | ⟨-, -, rfl⟩ := h
  · exact fitsBuffer_decodeAnswer x.rxCrc a
  · trivial

theorem finishRaw_delivered {r : Run} {f : Frame} {s : State} (h : r.job = .xcvBits ∨ f.nbits % 8 = 0) :
    finishRaw r (.ok f) s = (s.landRx f).complete :=
  if_neg fun hne => h.elim hne.1 hne.2

/-- A partial byte is no answer to XCV_BYTES (42_bit_transceive.md R169). -/
theorem finishRaw_partial {r : Run} {f : Frame} {s : State} (hjob : r.job ≠ .xcvBits) (hbits : f.nbits % 8 ≠ 0) :
    finishRaw r (.ok f) s = s.dropRx.raise .bitCountError :=
  if_pos ⟨hjob, hbits⟩

/-- Settles O24, by the outcome: a frame delivered, a partial byte, an error. -/
theorem xcvEndsWithTheAnswer : Obligations.XcvEndsWithTheAnswer := by
  unfold Obligations.XcvEndsWithTheAnswer
  intro s r x m rest o h habort hin hm _
  refine ⟨_, step_delivers h habort hin hm, fun f ho hwhole => ?delivered, fun f ho hjob hbits => ?partialByte, fun e ho => ?error⟩
  case delivered =>
    have hfits := fitsBuffer_of_delivers hm
    subst ho
    rw [finish, finishRaw_delivered hwhole]
    exact ⟨rfl, landRx_lands rfl rfl rfl hfits.2⟩
  case partialByte =>
    subst ho
    rw [finish, finishRaw_partial hjob hbits]
    exact ⟨rfl, dropRx_loses rfl rfl rfl⟩
  case error =>
    subst ho
    exact ⟨rfl, dropRx_loses rfl rfl rfl⟩

end Sys2Proof.Proofs.Transceive

/-! The transitions of `ASM_STATE` (43_activation.md R215). The host commands leave it but for INIT_INITIATOR and DESELECT; the place
where the command in progress stands says which state an exchange is begun in and ends in. -/

namespace Sys2Proof.Proofs.AsmTransitions

open Sys2Proof Sys2Proof.Machine
open Sys2Proof.Proofs.BusyBlock (writeAbort_eq)
open Sys2Proof.Proofs.IdleHostPort (storeByte_eq)
open Sys2Proof.Proofs.WellFormedSteps (runConsistent_transmit runConsistent_await inv_modelFields)

/-- From `s` to `t`, `ASM_STATE` stays or makes a listed transition. -/
def AsmStep (s t : State) : Prop := t.asm = s.asm ∨ AsmTransition s.asm t.asm

theorem AsmStep.stays {s t : State} (h : t.asm = s.asm) : AsmStep s t := .inl h

theorem AsmStep.goes {s t : State} {a b : AsmState} (h : AsmTransition a b) (hs : s.asm = a) (ht : t.asm = b) : AsmStep s t := by
  subst hs ht
  exact .inr h

theorem AsmStep.toIdle {s t : State} (h : t.asm = .idle) : AsmStep s t := .goes (.toIdle s.asm) rfl h

/-! ### Host commands -/

/-- The rule of a command leaves `ASM_STATE`. -/
def LeavesAsm (rule : State → State) : Prop := ∀ a, (rule a).asm = a.asm

/-- What holds of the rule on the accepted state holds of the command, as acceptance leaves `ASM_STATE`. -/
theorem issue_asmStep {op : Byte} {rule : State → State} {s t : State} (hrule : ∀ a, AsmStep a (rule a))
    (h : issue op rule s = .next t) : AsmStep s t := by
  obtain ⟨-, rfl⟩ := issue_next.mp h
  exact hrule (s.accept op)

theorem issue_leavesAsm {op : Byte} {rule : State → State} {s t : State} (hrule : LeavesAsm rule)
    (h : issue op rule s = .next t) : AsmStep s t :=
  issue_asmStep (fun a => .stays (hrule a)) h

theorem configureRule_leavesAsm (option enabled : Byte) : LeavesAsm (configureRule option enabled) := by
  intro a
  unfold configureRule
  split <;> rfl

theorem crcRule_leavesAsm (crc : List Byte → Half) (src : Byte) : LeavesAsm (crcRule crc src) := by
  intro a
  unfold crcRule
  split <;> rfl

theorem crcAppendRule_leavesAsm (crc : List Byte → Half) : LeavesAsm (crcAppendRule crc) := by
  intro a
  unfold crcAppendRule
  split
  · rfl
  · simp only
    split <;> rfl

theorem crcCheckRule_leavesAsm (crc : List Byte → Half) (src : Byte) : LeavesAsm (crcCheckRule crc src) := by
  intro a
  unfold crcCheckRule
  split
  · rfl
  · split <;> rfl

theorem locateHistRule_leavesAsm (src : Byte) : LeavesAsm (locateHistRule src) := by
  intro a
  unfold locateHistRule
  split
  · rfl
  · split <;> rfl

theorem buildFrame_leavesAsm (f : Frame) : LeavesAsm fun s => (s.putTxFrame f).complete := fun _ => rfl

theorem buildCrcFrame_leavesAsm (f : Frame) : LeavesAsm fun s => (s.putCrcFrame f).complete := fun _ => rfl

theorem buildWupaRule_leavesAsm (variant : Byte) : LeavesAsm (buildWupaRule variant) := by
  intro a
  unfold buildWupaRule
  split
  · rfl
  · split <;> rfl

theorem buildAnticollRule_leavesAsm (lvl : Byte) : LeavesAsm (buildAnticollRule lvl) := by
  intro a
  unfold buildAnticollRule
  split <;> rfl

theorem buildSelectInPlace_leavesAsm (n : Level) : LeavesAsm (buildSelectInPlace n) :=
  fun s => buildCrcFrame_leavesAsm _ s

theorem buildSelectRule_leavesAsm (lvl fromRx : Byte) : LeavesAsm (buildSelectRule lvl fromRx) := by
  intro a
  unfold buildSelectRule
  split
  · rfl
  · split
    · split
      · rfl
      · exact buildSelectInPlace_leavesAsm _ (a.writeTx 2 (a.rxBytes 5))
    · split
      · exact buildSelectInPlace_leavesAsm _ a
      · rfl

theorem parseAnticollRule_leavesAsm (lvl src : Byte) : LeavesAsm (parseAnticollRule lvl src) := by
  intro a
  unfold parseAnticollRule
  split
  · rfl
  · split
    · rfl
    · split <;> rfl

theorem parseSakRule_leavesAsm (src : Byte) : LeavesAsm (parseSakRule src) := by
  intro a
  unfold parseSakRule
  split
  · rfl
  · split <;> rfl

theorem assembleUidRule_leavesAsm (levels : Byte) : LeavesAsm (assembleUidRule levels) := by
  intro a
  unfold assembleUidRule
  split <;> rfl

theorem xcvBitsRule_leavesAsm : LeavesAsm xcvBitsRule := by
  intro a
  unfold xcvBitsRule
  split <;> rfl

theorem xcvBytesRule_leavesAsm : LeavesAsm xcvBytesRule := by
  intro a
  unfold xcvBytesRule
  split
  · rfl
  · split <;> rfl

/-- ACTIVATE and POLL enter `ReqSent` as they send, not as they are accepted (43_activation.md R194). -/
theorem activateRule_leavesAsm (wake : Byte) : LeavesAsm (activateRule wake) := by
  intro a
  unfold activateRule
  split
  · rfl
  · split <;> rfl

theorem pollRule_leavesAsm (attempts : Byte) : LeavesAsm (pollRule attempts) := by
  intro a
  unfold pollRule
  split <;> rfl

/-- DESELECT leaves `Activated` to its HALT and ends in `Idle` from any other state (43_activation.md R213). -/
theorem deselectRule_asmStep (a : State) : AsmStep a (deselectRule a) := by
  unfold deselectRule
  split
  · exact .stays rfl
  · exact .toIdle rfl

theorem exec_hostCommand_asmStep {i : Instr} {s t : State} (hk : i.kind = .hostCommand) (h : exec i s = .next t) :
    AsmStep s t := by
  cases i with
  | nop => exact issue_leavesAsm State.complete_asm h
  | initInitiator => exact issue_asmStep (rule := initRule) (fun _ => .toIdle rfl) h
  | configure option enabled => exact issue_leavesAsm (configureRule_leavesAsm option enabled) h
  | crcA src => exact issue_leavesAsm (crcRule_leavesAsm _ src) h
  | crcB src => exact issue_leavesAsm (crcRule_leavesAsm _ src) h
  | crcAAppend => exact issue_leavesAsm (crcAppendRule_leavesAsm _) h
  | crcBAppend => exact issue_leavesAsm (crcAppendRule_leavesAsm _) h
  | crcACheck src => exact issue_leavesAsm (crcCheckRule_leavesAsm _ src) h
  | crcBCheck src => exact issue_leavesAsm (crcCheckRule_leavesAsm _ src) h
  | locateHist src => exact issue_leavesAsm (locateHistRule_leavesAsm src) h
  | buildReqa => exact issue_leavesAsm (buildFrame_leavesAsm reqaFrame) h
  | buildWupa variant => exact issue_leavesAsm (buildWupaRule_leavesAsm variant) h
  | buildAnticoll lvl => exact issue_leavesAsm (buildAnticollRule_leavesAsm lvl) h
  | buildSelect lvl fromRx => exact issue_leavesAsm (buildSelectRule_leavesAsm lvl fromRx) h
  | buildHalt => exact issue_leavesAsm (buildCrcFrame_leavesAsm haltFrame) h
  | buildRats param => exact issue_leavesAsm (buildCrcFrame_leavesAsm (ratsFrame param)) h
  | bccCalc => exact issue_leavesAsm (rule := bccCalcRule) (fun _ => rfl) h
  | parseAnticoll lvl src => exact issue_leavesAsm (parseAnticollRule_leavesAsm lvl src) h
  | parseSak src => exact issue_leavesAsm (parseSakRule_leavesAsm src) h
  | assembleUid levels => exact issue_leavesAsm (assembleUidRule_leavesAsm levels) h
  | xcvBits => exact issue_leavesAsm xcvBitsRule_leavesAsm h
  | xcvBytes => exact issue_leavesAsm xcvBytesRule_leavesAsm h
  | activate wake => exact issue_leavesAsm (activateRule_leavesAsm wake) h
  | deselect => exact issue_asmStep deselectRule_asmStep h
  | poll attempts period => exact issue_leavesAsm (pollRule_leavesAsm attempts) h
  | _ => cases hk

/-! ### The transmit step -/

/-- The frame of an exchange is sent from the state of the exchange before it into its own. -/
theorem prepareSend_asmStep {d : Due} {s : State} (f : Frame) (h : asmBefore d s.asm = true) : AsmStep s (prepareSend d f s) := by
  cases d with
  | raw => exact .stays rfl
  | wake => exact .goes (.wake s.asm) rfl rfl
  | anticoll n =>
    cases n with
    | cl1 => exact .goes .firstLevel (of_decide_eq_true h) rfl
    | cl2 => exact .goes .secondLevel (of_decide_eq_true h) rfl
    | cl3 => exact .goes .thirdLevel (of_decide_eq_true h) rfl
  | select n => exact .goes (.selectLevel n) (of_decide_eq_true h) rfl
  | rats =>
    cases ha : s.asm with
    | selected n => exact .goes (.rats n) ha rfl
    | _ =>
      rw [ha] at h
      cases h
  | halt => exact .stays rfl

theorem sendDue_asmStep {s : State} {r : Run} {d : Due} (h : Inv s) (hs : Sends s r d) : AsmStep s (sendDue s) := by
  obtain ⟨-, -, hbefore⟩ := (runConsistent_transmit hs.1 hs.2).mp h.running
  rw [sendDue_sends hs]
  exact prepareSend_asmStep (frameFor r d s) hbefore

/-! ### The end of an exchange -/

theorem finishRaw_leavesAsm (r : Run) (x : XResult) : LeavesAsm (finishRaw r x) := by
  intro s
  unfold finishRaw
  split
  · rfl
  · split <;> rfl

/-- Silence after the wake-up ends in `NoTag`, in POLL's pause too (43_activation.md R196). -/
theorem wakeSilence_asm (r : Run) (s : State) : (wakeSilence r s).asm = .noTag := by
  unfold wakeSilence
  split
  case h_1 => split <;> rfl
  all_goals rfl

theorem finishWake_asmStep (r : Run) (x : XResult) {s : State} (ha : s.asm = .reqSent) : AsmStep s (finishWake r x s) := by
  unfold finishWake
  split
  · split
    · exact .goes .silence ha (wakeSilence_asm r s)
    · exact .stays rfl
  · split
    · exact .stays rfl
    · exact .stays rfl

theorem finishAnticoll_leavesAsm (n : Level) (r : Run) (x : XResult) : LeavesAsm (finishAnticoll n r x) := by
  intro s
  unfold finishAnticoll
  split
  · rfl
  · split <;> rfl

theorem nextLevel_leavesAsm (n : Level) (r : Run) : LeavesAsm (nextLevel n r) := by
  intro s
  unfold nextLevel
  split <;> rfl

theorem finalLevel_asmStep (n : Level) (r : Run) {s : State} (ha : s.asm = .selected n) : AsmStep s (finalLevel n r s) := by
  unfold finalLevel
  split
  · exact .stays rfl
  · exact .goes (.activatedPlain n) ha rfl

theorem finishSelect_asmStep (n : Level) (r : Run) (x : XResult) {s : State} (ha : s.asm = .selected n) :
    AsmStep s (finishSelect n r x s) := by
  unfold finishSelect
  split
  case h_1 => exact .stays rfl
  case h_2 f =>
    split
    · exact .stays rfl
    · split
      · exact .stays (nextLevel_leavesAsm n r (s.landSak f))
      · exact finalLevel_asmStep n r (s := s.landSak f) ha

theorem finishRats_asmStep (x : XResult) {s : State} (ha : s.asm = .ratsSent) : AsmStep s (finishRats x s) := by
  unfold finishRats
  split
  · exact .stays rfl
  · split
    · exact .stays rfl
    · exact .goes .activatedAts ha rfl

theorem finishHalt_asm (x : XResult) (s : State) : (finishHalt x s).asm = .idle := by
  unfold finishHalt
  split
  · split <;> rfl
  · rfl

theorem finish_asmStep {d : Due} {s : State} (r : Run) (x : XResult) (ha : asmAwaits d s.asm = true) :
    AsmStep s (finish r d x s) := by
  cases d with
  | raw => exact .stays (finishRaw_leavesAsm r x s)
  | wake => exact finishWake_asmStep r x (of_decide_eq_true ha)
  | anticoll n => exact .stays (finishAnticoll_leavesAsm n r x s)
  | select n => exact finishSelect_asmStep n r x (of_decide_eq_true ha)
  | rats => exact finishRats_asmStep x (of_decide_eq_true ha)
  | halt => exact .toIdle (finishHalt_asm x s)

theorem endExchange_asmStep {s : State} (h : Inv s) (x : XResult) : AsmStep s (endExchange x s) := by
  unfold endExchange
  split
  case h_1 hrun =>
    obtain ⟨-, -, hawaits⟩ := (runConsistent_await hrun rfl).mp h.running
    exact finish_asmStep (s := { s with xch := none }) _ x hawaits
  all_goals exact .stays rfl

/-! ### The moves of one step -/

theorem takeAbort_asmStep {s : State} (h : Inv s) : AsmStep s (takeAbort s) := by
  unfold takeAbort
  split
  · exact endExchange_asmStep h _
  · exact .stays rfl

/-- The counter that a free choice uses up is no part of a well-formed state. -/
theorem inv_fresh {s : State} (h : Inv s) : Inv { s with fresh := s.fresh + 1 } :=
  inv_modelFields h s.inbox s.readData (s.fresh + 1)

theorem answerArrives_asmStep {s : State} (h : Inv s) (a : Answer) : AsmStep s (answerArrives a s) := by
  obtain heq | ⟨-, heq⟩ | ⟨x, -, heq⟩ | ⟨x, -, heq⟩ | ⟨-, heq⟩ := answerArrives_cases a s <;> rw [heq]
  · exact .stays rfl
  · exact takeAbort_asmStep h
  · exact endExchange_asmStep h _
  · exact endExchange_asmStep (inv_fresh h) _
  · exact endExchange_asmStep (inv_fresh h) _

theorem timeoutExpires_asmStep {s : State} (h : Inv s) : AsmStep s (timeoutExpires s) := by
  obtain heq | ⟨-, heq⟩ | ⟨-, heq⟩ := timeoutExpires_cases s <;> rw [heq]
  · exact .stays rfl
  · exact takeAbort_asmStep h
  · exact endExchange_asmStep h _

theorem answerAtTimeout_asmStep {s : State} (h : Inv s) (a : Answer) : AsmStep s (answerAtTimeout a s) := by
  unfold answerAtTimeout
  split
  · exact .stays rfl
  · split
    · exact timeoutExpires_asmStep h
    · split
      · exact takeAbort_asmStep h
      · split
        · exact answerArrives_asmStep h a
        · split
          · exact answerArrives_asmStep (inv_fresh h) a
          · exact timeoutExpires_asmStep (inv_fresh h)

theorem moveOf_asmStep {s t : State} (h : Inv s) (hm : MoveOf s t) : AsmStep s t := by
  cases hm with
  | stutter => exact .stays rfl
  | send r d hs => exact sendDue_asmStep h hs
  | resume r hr hp => exact .stays rfl
  | timeout => exact timeoutExpires_asmStep h
  | answer a => exact answerArrives_asmStep h a
  | answerAtTimeout a => exact answerAtTimeout_asmStep h a
  | reset => exact .toIdle rfl
  | store a v hidle => exact .stays (by rw [storeByte_eq])
  | abortWrite => exact .stays (by rw [writeAbort_eq])
  | read v n => exact .stays rfl
  | undefined op hidle => exact .stays rfl
  | command i t hk ht => exact exec_hostCommand_asmStep hk ht

/-- Settles O57, move by move. -/
theorem stepMakesListedTransitions : Obligations.StepMakesListedTransitions := by
  unfold Obligations.StepMakesListedTransitions
  intro s t h ht
  obtain ⟨-, -, rfl⟩ | ⟨rest, hm⟩ := step_move ht
  · exact takeAbort_asmStep h
  · exact moveOf_asmStep (s := { s with inbox := rest }) (inv_modelFields h rest s.readData s.fresh) hm

end Sys2Proof.Proofs.AsmTransitions

/-! The commands ACTIVATE, POLL and DESELECT up to their first exchange, and the frames of the activation sequencer as they go out
(43_activation.md R191 to R214). -/

namespace Sys2Proof.Proofs.ActivationFrames

open Sys2Proof Sys2Proof.Machine
open Sys2Proof.Proofs.FrameCodec (ne_zero_and_ne_one rejects_of_raise selCode_eq frameCrc_frameWithCrcA frameCrc_haltFrame)
open Sys2Proof.Proofs.FrameRows (exec_transmit_due)
open Sys2Proof.Proofs.Transceive (step_delivers)

/-! ### ACTIVATE and POLL -/

theorem activateRule_legal {wake : Byte} (s : State) (h : wake.toNat ≤ 1) :
    activateRule wake s = s.clearTransaction.beginRun (.activate (decide (wake.toNat = 1))) .wake := by
  obtain rfl | rfl : wake = 0 ∨ wake = 1 := by bv_omega
  · rfl
  · rfl

theorem activateRule_illegal {wake : Byte} (s : State) (h : 1 < wake.toNat) :
    activateRule wake s = s.raise .invalidParameter := by
  obtain ⟨hzero, hone⟩ := ne_zero_and_ne_one h
  rw [activateRule, if_neg hzero, if_neg hone]

/-- Settles O25, by whether `P0` names a wake-up frame. -/
theorem activateClearsThenWakes : Obligations.ActivateClearsThenWakes := by
  unfold Obligations.ActivateClearsThenWakes
  refine fun wake s hidle => ⟨fun hlegal => ?legal, fun hillegal => ?illegal⟩
  case legal =>
    rw [exec_activate, issue_idle hidle, activateRule_legal _ hlegal]
    rfl
  case illegal => exact rejects_of_raise hidle (exec_activate wake s) (activateRule_illegal _ hillegal)

theorem pollRule_legal {attempts : Byte} (s : State) (h : attempts ≠ 0) :
    pollRule attempts s = { s.clearTransaction with pollCnt := 1 }.beginRun (.poll attempts) .wake :=
  if_neg h

theorem pollRule_illegal (s : State) : pollRule 0 s = s.raise .invalidParameter := rfl

/-- Settles O26, by whether there is an attempt to make. -/
theorem pollStartsItsFirstAttempt : Obligations.PollStartsItsFirstAttempt := by
  unfold Obligations.PollStartsItsFirstAttempt
  refine fun attempts period s hidle => ⟨fun hsome => ?legal, fun hnone => ?illegal⟩
  case legal =>
    have hne : attempts ≠ 0 := by
      rintro rfl
      exact absurd hsome (by decide)
    rw [exec_poll, issue_idle hidle, pollRule_legal _ hne]
    rfl
  case illegal =>
    obtain rfl : attempts = 0 := BitVec.eq_of_toNat_eq hnone
    exact rejects_of_raise hidle (exec_poll 0 period s) (pollRule_illegal _)

/-! ### DESELECT -/

theorem deselectRule_activated {s : State} (h : s.asm = .activated) : deselectRule s = s.beginRun .deselect .halt := if_pos h

theorem deselectRule_other {s : State} (h : s.asm ≠ .activated) :
    deselectRule s = { s.clearTransaction with asm := .idle }.complete := if_neg h

/-- The one thing the outcome of a HALT decides is the error: the Target is released in every case (43_activation.md R213). -/
theorem finishHalt_released (o : XResult) (s : State) : ∃ e, finishHalt o s = closed e s.released
    ∧ (o = .err .timeout ∨ o = .err .rfTimeout → e = s.err) ∧ (∀ e', o = .err e' → e' ≠ .timeout → e' ≠ .rfTimeout → e = e')
    ∧ ∀ f, o = .ok f → e = .rfProtocolError := by
  cases o with
  | ok f => exact ⟨.rfProtocolError, rfl, nofun, nofun, fun _ _ => rfl⟩
  | err e =>
    by_cases hsilent : e = .timeout ∨ e = .rfTimeout
    · refine ⟨s.err, if_pos hsilent, fun _ => rfl, fun e' he hne hne' => ?_, nofun⟩
      cases he
      exact absurd hsilent (not_or.mpr ⟨hne, hne'⟩)
    · refine ⟨e, if_neg hsilent, fun h => ?_, fun e' he _ _ => XResult.err.inj he, nofun⟩
      exact absurd (h.imp XResult.err.inj XResult.err.inj) hsilent

/-- Settles O27: acceptance by the sequencer state, and the end of the HALT. -/
theorem deselectHaltsAndForgetsTheTarget : Obligations.DeselectHaltsAndForgetsTheTarget := by
  unfold Obligations.DeselectHaltsAndForgetsTheTarget
  refine ⟨fun s hidle => ⟨fun hactivated => ?halt, fun hother => ?atOnce⟩,
    fun s r x m rest o h habort hin hm => ?answered⟩
  case halt => rw [exec_deselect, issue_idle hidle, deselectRule_activated (s := s.accept 0x41) hactivated, beginRun_accept]
  case atOnce =>
    rw [exec_deselect, issue_idle hidle, deselectRule_other (s := s.accept 0x41) hother]
    rfl
  case answered =>
    obtain ⟨e, hend, hsilence, herror, hanswer⟩ := finishHalt_released o { s with inbox := rest, xch := none }
    refine ⟨closed e { s with inbox := rest, xch := none }.released, ?step, dropRx_loses rfl rfl rfl, rfl, hsilence,
      herror, hanswer⟩
    rw [step_delivers h habort hin hm, finish, hend]

/-! ### A frame of the sequencer goes out -/

/-- The row of the frame that is due is handed over, with the registers that the sequencer writes (42_bit_transceive.md R163). -/
theorem exec_due {i : Instr} {s : State} {r : Run} {d : Due} {f : Frame} (hk : i.kind = .transmit) (h : Sends s r d)
    (hrow : encode i = f) (hframe : frameFor r d s = f) :
    exec i s = .next (handed r d (frameLine f) (rxCrcFor r d) (prepareSend d f s)) := by
  rw [exec_transmit_due hk (dueFrame_sends h), hrow, hframe, if_pos rfl, sendDue_sends h, hframe, openExchange_handed]

theorem prepareSend_mem {d : Due} (hd : d ≠ .raw) (f : Frame) (s : State) :
    (prepareSend d f s).mem = Memory.putList s.mem 0x100 f.bytes := by
  cases d with
  | raw => exact absurd rfl hd
  | wake | anticoll | select | rats | halt => rfl

theorem prepareSend_gens (d : Due) (f : Frame) (s : State) : (prepareSend d f s).txGen = s.txGen
    ∧ (prepareSend d f s).rxGen = s.rxGen ∧ (prepareSend d f s).atsGen = s.atsGen := by
  cases d <;> simp [prepareSend]

/-- The frame of the sequencer stands in `TXBUF`, and no other byte has changed (41_frame_codec.md R130). -/
theorem prepareSend_stores (d : Due) (hd : d ≠ .raw) (r : Run) (line : LineBits) (rxCrc : Bool) (f : Frame) (s : State) :
    Stores s (handed r d line rxCrc (prepareSend d f s)) 0x100 f.bytes :=
  have ⟨htx, hrx, hats⟩ := prepareSend_gens d f s
  bufByte_putList (prepareSend_mem hd f s) htx hrx hats

/-- Settles O28, by the frame that the command wakes with. -/
theorem wakeUpFrameIsSent : Obligations.WakeUpFrameIsSent := by
  unfold Obligations.WakeUpFrameIsSent
  refine fun s r h => ⟨fun hjob => ?reqa, fun hjob => ?wupa⟩
  case reqa =>
    have hframe : frameFor r .wake s = reqaFrame := by
      obtain hjob | ⟨attempts, hjob⟩ := hjob <;> rw [frameFor, hjob] <;> rfl
    exact ⟨_, exec_due (i := .reqa) rfl h rfl hframe, prepareSend_stores .wake nofun r _ _ reqaFrame s, rfl⟩
  case wupa =>
    have hframe : frameFor r .wake s = wupaFrame := by rw [frameFor, hjob]; rfl
    exact ⟨_, exec_due (i := .wupa) rfl h rfl hframe, prepareSend_stores .wake nofun r _ _ wupaFrame s, rfl⟩

/-! ### The cascade frames, RATS and HALT -/

/-- The anti-collision row of a level is its two bytes (30_encoding.md R89, R98). -/
theorem encode_anticollOf (n : Level) : encode (anticollOf n) = ⟨[BitVec.ofNat 8 (0x91 + 2 * levelNum n), 0x20], 16⟩ := by
  cases n <;> rfl

/-- The SELECT row of a level is its seven bytes and their CRC_A (30_encoding.md R90, R98). -/
theorem encode_selectOf (u0 u1 u2 u3 b : Byte) (n : Level) : encode (selectOf u0 u1 u2 u3 b n) = selectFrame n u0 u1 u2 u3 b := by
  cases n <;> rfl

theorem kind_anticollOf (n : Level) : (anticollOf n).kind = .transmit := by cases n <;> rfl

theorem kind_selectOf (u0 u1 u2 u3 b : Byte) (n : Level) : (selectOf u0 u1 u2 u3 b n).kind = .transmit := by cases n <;> rfl

/-- The SELECT confirm is made of the level's slices of `RAWUID` and `RAWBCC` (43_activation.md R201). -/
theorem asmSelectFrame_eq {s : State} {n : Level} {u0 u1 u2 u3 b : Byte}
    (huid : [u0, u1, u2, u3] = (s.rawUid.toList.drop (4 * (levelNum n - 1))).take 4)
    (hbcc : b = s.rawBcc.toList.getD (levelNum n - 1) 0) : asmSelectFrame n s = selectFrame n u0 u1 u2 u3 b := by
  rw [asmSelectFrame, rawPart_slice, ← huid, rawBccAt_getD, ← hbcc]
  rfl

/-- A frame with its CRC_A, the two CRC bytes written out. -/
theorem frameWithCrcA_eq {body : List Byte} {crc : Half} (h : crc = crcA body) :
    frameWithCrcA body = ⟨body ++ [loByte crc, hiByte crc], 8 * (body.length + 2)⟩ := by
  rw [h, frameWithCrcA, byteFrame, List.length_append, crcBytes_length]
  rfl

theorem prepareSend_select {f : Frame} {crc : Half} (h : frameCrc f = crc) (n : Level) (s : State) :
    prepareSend (.select n) f s = { s.putTxFrame f with crcRes := crc, asm := .selected n } := by
  rw [prepareSend, State.putCrcFrame, h]

theorem prepareSend_rats {f : Frame} {crc : Half} (h : frameCrc f = crc) (s : State) :
    prepareSend .rats f s = { s.putTxFrame f with crcRes := crc, asm := .ratsSent } := by
  rw [prepareSend, State.putCrcFrame, h]

theorem prepareSend_halt {f : Frame} {crc : Half} (h : frameCrc f = crc) (s : State) :
    prepareSend .halt f s = { s.putTxFrame f with crcRes := crc } := by
  rw [prepareSend, State.putCrcFrame, h]

/-- Settles O29: the anti-collision frame and the SELECT confirm of each level. -/
theorem cascadeFramesAreSent : Obligations.CascadeFramesAreSent := by
  unfold Obligations.CascadeFramesAreSent
  refine ⟨fun s r n bytes h hbytes => ?anticoll, fun s r n u0 u1 u2 u3 b body crc h huid hbcc hbody hcrc => ?select⟩
  case anticoll =>
    have hrow : encode (anticollOf n) = ⟨bytes, 16⟩ := by rw [hbytes, encode_anticollOf]
    have hframe : frameFor r (.anticoll n) s = ⟨bytes, 16⟩ := by
      rw [hbytes, ← selCode_eq]
      rfl
    exact ⟨_, exec_due (kind_anticollOf n) h hrow hframe, prepareSend_stores (.anticoll n) nofun r _ _ ⟨bytes, 16⟩ s, rfl⟩
  case select =>
    have hsent : selectFrame n u0 u1 u2 u3 b = ⟨body ++ [loByte crc, hiByte crc], 72⟩ := by
      rw [selectFrame, selCode_eq, ← hbody, frameWithCrcA_eq hcrc, hbody]
      rfl
    have hres : frameCrc ⟨body ++ [loByte crc, hiByte crc], 72⟩ = crc := by
      rw [← hsent, selectFrame, selCode_eq, ← hbody, frameCrc_frameWithCrcA, hcrc]
    have hrow := (encode_selectOf u0 u1 u2 u3 b n).trans hsent
    have hframe : frameFor r (.select n) s = _ := (asmSelectFrame_eq huid hbcc).trans hsent
    refine ⟨_, exec_due (kind_selectOf u0 u1 u2 u3 b n) h hrow hframe, prepareSend_stores (.select n) nofun r _ _ _ s, ?_⟩
    rw [prepareSend_select hres]
    rfl

/-- Settles O30: RATS with its CRC_A, HALT with the CRC_A of its template. -/
theorem ratsAndHaltFramesAreSent : Obligations.RatsAndHaltFramesAreSent := by
  unfold Obligations.RatsAndHaltFramesAreSent
  refine fun s r crc hcrc => ⟨fun h => ?rats, fun h => ?halt⟩
  case rats =>
    have hsent : ratsFrame r.ratsParam = ⟨[0xE0, r.ratsParam, loByte crc, hiByte crc], 32⟩ := frameWithCrcA_eq hcrc
    have hres : frameCrc ⟨[0xE0, r.ratsParam, loByte crc, hiByte crc], 32⟩ = crc := by
      rw [← hsent, ratsFrame, frameCrc_frameWithCrcA, hcrc]
    refine ⟨_, exec_due (i := .rats r.ratsParam) rfl h hsent hsent, prepareSend_stores .rats nofun r _ _ _ s, ?_⟩
    rw [prepareSend_rats hres]
    rfl
  case halt =>
    refine ⟨_, exec_due (i := .halt) (f := haltFrame) rfl h rfl rfl, prepareSend_stores .halt nofun r _ _ haltFrame s, ?_⟩
    rw [prepareSend_halt frameCrc_haltFrame]
    rfl

end Sys2Proof.Proofs.ActivationFrames

/-! What the activation sequencer does with the outcome of each exchange: an answer of the form that is awaited, silence after the
wake-up, and every failure (43_activation.md R195 to R211, R214). -/

namespace Sys2Proof.Proofs.ActivationAnswers

open Sys2Proof Sys2Proof.Machine
open Sys2Proof.Proofs.Encoding (frameLine_byteFrame_length lineDecode_byteFrame lengthByte_toNat)
open Sys2Proof.Proofs.FrameCodec (uidAssemble_fits)
open Sys2Proof.Proofs.IdleHostPort (inRange_iff)
open Sys2Proof.Proofs.LineCoding (decodeAnswer_line_ok)
open Sys2Proof.Proofs.Transceive (step_delivers fitsBuffer_of_delivers)

/-! ### A received row ends its exchange -/

/-- The CRC_A of a frame is found behind it and removed (42_bit_transceive.md R163). -/
theorem checkCrcA_frameWithCrcA (bytes : List Byte) : checkCrcA (frameWithCrcA bytes) = .ok (byteFrame bytes) := by
  have hlen : (bytes ++ crcBytes (crcA bytes)).length = bytes.length + 2 := by rw [List.length_append, crcBytes_length]
  have hdiv : 8 * (bytes.length + 2) / 8 - 2 = bytes.length := by omega
  simp only [checkCrcA, frameWithCrcA, byteFrame, hlen, hdiv, List.drop_left', List.take_left', if_true]
  rw [if_neg (by omega), if_neg (by omega)]

theorem decodeAnswer_byteFrame {bytes : List Byte} (h : bytes.length ≤ 264) :
    decodeAnswer false (.line (frameLine (byteFrame bytes))) = .ok (byteFrame bytes) :=
  decodeAnswer_line_ok (lineDecode_byteFrame h) false

theorem decodeAnswer_frameWithCrcA {bytes : List Byte} (h : bytes.length ≤ 262) :
    decodeAnswer true (.line (frameLine (frameWithCrcA bytes))) = .ok (byteFrame bytes) := by
  have hfits : (bytes ++ crcBytes (crcA bytes)).length ≤ 264 := by
    rw [List.length_append, crcBytes_length]
    omega
  exact (decodeAnswer_line_ok (lineDecode_byteFrame hfits) true).trans (checkCrcA_frameWithCrcA bytes)

/-- A frame of bytes has line bits, so it is an answer (42_bit_transceive.md R161). -/
theorem line_byteFrame_ne_nil {bytes : List Byte} (h : bytes ≠ []) : Answer.line (frameLine (byteFrame bytes)) ≠ .line [] := by
  have hlen := frameLine_byteFrame_length bytes
  have hpos := List.length_pos_iff.mpr h
  intro hnil
  rw [Answer.line.inj hnil, List.length_nil] at hlen
  omega

section Receives

variable {i : Instr} {s : State} {r : Run} {d : Due} {x : Exchange} {bytes : List Byte} (hk : receivedKind i.kind = true)
  (h : Awaits s r d x) (habort : s.abortReq = false) (htimeout : x.timeout ≠ 0x0000)

include hk h habort htimeout

/-- A row without a CRC_A is delivered as it is. -/
theorem exec_receives (hcrc : x.rxCrc = false) (hrow : encode i = byteFrame bytes) (hne : bytes ≠ []) (hlen : bytes.length ≤ 264) :
    exec i s = .next (finish r d (.ok (byteFrame bytes)) { s with xch := none }) := by
  rw [exec_received hk, hrow, answerArrives_delivered h.2.2 (line_byteFrame_ne_nil hne) habort htimeout, hcrc,
    decodeAnswer_byteFrame hlen, endExchange_awaits h]

/-- A row with its CRC_A is delivered without it. -/
theorem exec_receives_withCrc (hcrc : x.rxCrc = true) (hrow : encode i = frameWithCrcA bytes) (hlen : bytes.length ≤ 262) :
    exec i s = .next (finish r d (.ok (byteFrame bytes)) { s with xch := none }) := by
  have hne : Answer.line (frameLine (frameWithCrcA bytes)) ≠ .line [] :=
    line_byteFrame_ne_nil (List.append_ne_nil_of_right_ne_nil _ (List.cons_ne_nil _ _))
  rw [exec_received hk, hrow, answerArrives_delivered h.2.2 hne habort htimeout, hcrc,
    decodeAnswer_frameWithCrcA hlen, endExchange_awaits h]

end Receives

/-! ### The wake-up and the anti-collision frame -/

theorem finishWake_atqa {f : Frame} (h : f.nbits = 16) (r : Run) (s : State) :
    finishWake r (.ok f) s = (s.landAtqa f).goTo r (.transmit (.anticoll .cl1)) :=
  if_neg (Decidable.not_not.mpr h)

/-- The memory once the bytes of `RXBUF` are unspecified (42_bit_transceive.md R173). -/
def droppedMem (s : State) : Memory := Memory.forget s.mem Config.rxBase Config.maxFrameLen

/-- The memory once a frame has been delivered into `RXBUF` (42_bit_transceive.md R163, R173). -/
def landedMem (s : State) (f : Frame) : Memory := Memory.putList (droppedMem s) Config.rxBase f.bytes

theorem mem_landRx (s : State) (f : Frame) : (s.landRx f).mem = landedMem s f := rfl

theorem mem_dropRx (s : State) : s.dropRx.mem = droppedMem s := rfl

/-- The state after an ATQA, written out. -/
theorem landAtqa_goTo (s : State) (f : Frame) (r : Run) (p : Point) : (State.landAtqa { s with xch := none } f).goTo r p = { s with
    xch := none
    run := some { r with point := p }
    rxBits := BitVec.ofNat 16 f.nbits
    atqa0 := f.bytes.getD 0 0
    atqa1 := f.bytes.getD 1 0
    rxGen := s.rxGen + 1
    mem := landedMem s f } := by
  cases s
  rfl

/-- Two bytes are the form awaited (43_activation.md R197). -/
theorem exec_atqa_lands {s : State} {r : Run} {x : Exchange} (a0 a1 : Byte) (h : Awaits s r .wake x) (habort : s.abortReq = false)
    (htimeout : x.timeout ≠ 0x0000) (hcrc : x.rxCrc = false) : exec (.atqa a0 a1) s =
      .next ((State.landAtqa { s with xch := none } (byteFrame [a0, a1])).goTo r (.transmit (.anticoll .cl1))) := by
  rw [exec_receives (i := .atqa a0 a1) (bytes := [a0, a1]) rfl h habort htimeout hcrc rfl nofun (by simp), finish,
    finishWake_atqa rfl]

/-- Settles O32: the ATQA is of the form awaited. -/
theorem atqaIsStored : Obligations.AtqaIsStored := by
  unfold Obligations.AtqaIsStored
  intro a0 a1 s r x h habort htimeout hcrc
  have hexec := exec_atqa_lands a0 a1 h habort htimeout hcrc
  rw [landAtqa_goTo] at hexec
  exact ⟨_, hexec, landRx_lands (f := byteFrame [a0, a1]) (mem_landRx s _).symm rfl rfl (by simp [byteFrame]), rfl⟩

theorem finishAnticoll_answer {f : Frame} (h : f.nbits = 40) (n : Level) (r : Run) (s : State) :
    finishAnticoll n r (.ok f) s = (s.landAnticoll n f).goTo r (.transmit (.select n)) :=
  if_neg (Decidable.not_not.mpr h)

/-- A BCC that does not match sets the warning bit of its level and no other (43_activation.md R200). -/
theorem landAnticoll_warn_bit (s : State) {n : Level} {k : Nat} (hn : levelNum n = k + 1) (f : Frame) {j : Nat} (hj : j < 8) :
    (warnByte (s.landAnticoll n f).warn).getLsbD j = ((warnByte s.warn).getLsbD j || decide (j = k ∧ bccOk f.bytes = false)) := by
  rw [State.landAnticoll_warn]
  cases hok : bccOk f.bytes with
  | true => simp
  | false =>
    have hbit := setBccWarn_bit s.warn n true j hj
    simp only [hn, Nat.add_right_cancel_iff] at hbit
    simp only [Bool.false_eq_true, if_false, hbit, and_true]
    split <;> simp [*]

/-- The state after an anti-collision answer, written out. -/
theorem landAnticoll_goTo (s : State) (n : Level) (f : Frame) (r : Run) (p : Point) :
    (State.landAnticoll { s with xch := none } n f).goTo r p = { s with
      xch := none
      run := some { r with point := p }
      rxBits := BitVec.ofNat 16 f.nbits
      rawUid := setRawPart s.rawUid n (f.bytes.getD 0 0) (f.bytes.getD 1 0) (f.bytes.getD 2 0) (f.bytes.getD 3 0)
      rawBcc := setRawBcc s.rawBcc n (f.bytes.getD 4 0)
      warn := if bccOk f.bytes then s.warn else setBccWarn s.warn n true
      rxGen := s.rxGen + 1
      mem := landedMem s f } := by
  cases s
  rfl

/-- Five bytes are the form awaited (43_activation.md R199). -/
theorem exec_anticollAnswer_lands {s : State} {r : Run} {x : Exchange} {n : Level} (u0 u1 u2 u3 b : Byte)
    (h : Awaits s r (.anticoll n) x) (habort : s.abortReq = false) (htimeout : x.timeout ≠ 0x0000) (hcrc : x.rxCrc = false) :
    exec (.anticollAnswer u0 u1 u2 u3 b) s =
      .next ((State.landAnticoll { s with xch := none } n (byteFrame [u0, u1, u2, u3, b])).goTo r (.transmit (.select n))) := by
  rw [exec_receives (i := .anticollAnswer u0 u1 u2 u3 b) (bytes := [u0, u1, u2, u3, b]) rfl h habort htimeout hcrc rfl nofun
    (by simp), finish, finishAnticoll_answer rfl]

/-- Settles O33: the answer is of the form awaited; the slices are those of the level. -/
theorem anticollAnswerIsStored : Obligations.AnticollAnswerIsStored := by
  unfold Obligations.AnticollAnswerIsStored
  intro u0 u1 u2 u3 b n k s r x h habort htimeout hcrc hn
  have hexec := exec_anticollAnswer_lands u0 u1 u2 u3 b h habort htimeout hcrc
  rw [landAnticoll_goTo] at hexec
  refine ⟨_, hexec, landRx_lands (f := byteFrame [u0, u1, u2, u3, b]) (mem_landRx s _).symm rfl rfl (by simp [byteFrame]), rfl,
    fun i _ => ?rawUid, fun i hi => ?rawBcc, fun j hj => ?warn⟩
  case rawUid => exact setRawPart_getD s.rawUid n u0 u1 u2 u3 k i hn
  case rawBcc => exact setRawBcc_getD s.rawBcc n b k i hn hi
  case warn =>
    refine (landAnticoll_warn_bit s hn (byteFrame [u0, u1, u2, u3, b]) hj).trans ?_
    have hbcc : bccOk (byteFrame [u0, u1, u2, u3, b]).bytes = false ↔ u0 ^^^ u1 ^^^ u2 ^^^ u3 ≠ b := decide_eq_false_iff_not
    simp only [hbcc]

/-! ### The SAK -/

section Sak

variable {s : State} {r : Run} {n : Level} {x : Exchange} {sak : Byte} (h : Awaits s r (.select n) x) (habort : s.abortReq = false)
  (htimeout : x.timeout ≠ 0x0000) (hcrc : x.rxCrc = true)

include h habort htimeout hcrc

/-- One byte is the form awaited, and bit 2 says whether there is a next level (43_activation.md R202). -/
theorem exec_sakAnswer_lands : exec (.sakAnswer sak) s =
    .next (if cascade sak then nextLevel n r (State.landSak { s with xch := none } (byteFrame [sak]))
      else finalLevel n r (State.landSak { s with xch := none } (byteFrame [sak]))) := by
  rw [exec_receives_withCrc (i := .sakAnswer sak) (bytes := [sak]) rfl h habort htimeout hcrc rfl (by simp)]
  rfl

theorem exec_sakAnswer_cascade (hbit : sak.getLsbD 2 = true) :
    exec (.sakAnswer sak) s = .next (nextLevel n r (State.landSak { s with xch := none } (byteFrame [sak]))) := by
  rw [exec_sakAnswer_lands h habort htimeout hcrc, if_pos (by rwa [cascade_bit])]

theorem exec_sakAnswer_final (hbit : sak.getLsbD 2 = false) :
    exec (.sakAnswer sak) s = .next (finalLevel n r (State.landSak { s with xch := none } (byteFrame [sak]))) := by
  rw [exec_sakAnswer_lands h habort htimeout hcrc, cascade_bit, hbit]
  rfl

end Sak

theorem levelNext_eq_some {n m : Level} (h : levelNum m = levelNum n + 1) : levelNext n = some m := by
  cases n <;> cases m <;> first | rfl | cases h

theorem nextLevel_some {n m : Level} (h : levelNext n = some m) (r : Run) (s : State) :
    nextLevel n r s = (s.checkCascadeTag n).goTo r (.transmit (.anticoll m)) := by
  rw [nextLevel, h]

/-- A first byte that is not the cascade tag sets the warning bit of its level and no other (43_activation.md R204). -/
theorem checkCascadeTag_warn_bit (s : State) {n : Level} (hn : n ≠ .cl3) {j : Nat} (hj : j < 8) :
    (warnByte (s.checkCascadeTag n).warn).getLsbD j = ((warnByte s.warn).getLsbD j
      || decide (j = 2 + levelNum n ∧ s.rawUid.toList.getD (4 * (levelNum n - 1)) 0 ≠ 0x88)) := by
  rw [State.checkCascadeTag_warn, rawFirst_getD, Config.cascadeTag]
  by_cases htag : s.rawUid.toList.getD (4 * (levelNum n - 1)) 0 = 0x88
  · simp only [htag, ne_eq, not_true_eq_false, if_false, and_false, decide_false, Bool.or_false]
  · rw [if_pos htag, setCtWarn_bit s.warn n hn j hj]
    simp only [ne_eq, htag, not_false_eq_true, and_true]
    split <;> simp [*]

theorem nextLevel_last (r : Run) (s : State) : nextLevel .cl3 r s = s.raise .rfProtocolError := rfl

/-- The state after a SAK with the cascade bit, written out: the next level, or the error. -/
theorem landSak_checkCascadeTag_goTo (s : State) (n : Level) (f : Frame) (r : Run) (p : Point) :
    ((State.landSak { s with xch := none } f).checkCascadeTag n).goTo r p = { s with
      xch := none
      run := some { r with point := p }
      rxBits := BitVec.ofNat 16 f.nbits
      sak := f.bytes.getD 0 0
      warn := if rawFirst s.rawUid n ≠ Config.cascadeTag then setCtWarn s.warn n else s.warn
      rxGen := s.rxGen + 1
      mem := landedMem s f } := by
  cases s
  rfl

theorem landSak_raise (s : State) (f : Frame) (e : ErrKind) : (State.landSak { s with xch := none } f).raise e = { s with
    err := e
    busy := false
    done := true
    abortReq := false
    xch := none
    run := none
    rxBits := BitVec.ofNat 16 f.nbits
    sak := f.bytes.getD 0 0
    rxGen := s.rxGen + 1
    mem := landedMem s f } := by
  cases s
  rfl

/-- Settles O34, by whether there is a next level. -/
theorem cascadeSakLeadsToTheNextLevel : Obligations.CascadeSakLeadsToTheNextLevel := by
  unfold Obligations.CascadeSakLeadsToTheNextLevel
  intro sak n s r x h habort htimeout hcrc hcascade
  have hexec := exec_sakAnswer_cascade h habort htimeout hcrc hcascade
  refine ⟨fun m hm => ?next, fun hlast => ?last⟩
  case next =>
    have hnext := levelNext_eq_some hm
    have hn : n ≠ .cl3 := by
      rintro rfl
      cases hnext
    rw [nextLevel_some hnext, landSak_checkCascadeTag_goTo] at hexec
    refine ⟨_, hexec, landRx_lands (f := byteFrame [sak]) (mem_landRx s _).symm rfl rfl (by simp [byteFrame]), rfl, fun j hj => ?_⟩
    exact checkCascadeTag_warn_bit s hn hj
  case last =>
    rw [hlast, nextLevel_last, landSak_raise] at hexec
    exact ⟨_, hexec, landRx_lands (f := byteFrame [sak]) (mem_landRx s _).symm rfl rfl (by simp [byteFrame]), rfl⟩

section Final

variable {f : Frame} {n : Level} {r : Run} {s : State}

theorem finalLevel_landSak_rats (h : (f.bytes.getD 0 0).getLsbD 5 = true) :
    finalLevel n r (s.landSak f) = ((s.landSak f).assembleUid n).goTo r (.transmit .rats) := by
  rw [← atsSupported_bit] at h
  exact if_pos h

theorem finalLevel_landSak_plain (h : (f.bytes.getD 0 0).getLsbD 5 = false) :
    finalLevel n r (s.landSak f) = ((s.landSak f).assembleUid n).clearAts.activated := by
  rw [← atsSupported_bit] at h
  exact if_neg (Bool.eq_false_iff.mp h)

end Final

/-- The state after a SAK without the cascade bit, written out: RATS is next, or the block is `Activated`. -/
theorem landSak_assembleUid_goTo (s : State) (n : Level) (f : Frame) (r : Run) (p : Point) :
    ((State.landSak { s with xch := none } f).assembleUid n).goTo r p = { s with
      xch := none
      run := some { r with point := p }
      rxBits := BitVec.ofNat 16 f.nbits
      sak := f.bytes.getD 0 0
      uid := uidFill (uidAssemble s.rawUid n)
      uidLen := BitVec.ofNat 8 (uidAssemble s.rawUid n).length
      rxGen := s.rxGen + 1
      mem := landedMem s f } := by
  cases s
  rfl

theorem landSak_assembleUid_activated (s : State) (n : Level) (f : Frame) :
    ((State.landSak { s with xch := none } f).assembleUid n).clearAts.activated = { s with
      busy := false
      done := true
      abortReq := false
      xch := none
      run := none
      asm := .activated
      found := true
      rxBits := BitVec.ofNat 16 f.nbits
      sak := f.bytes.getD 0 0
      uid := uidFill (uidAssemble s.rawUid n)
      uidLen := BitVec.ofNat 8 (uidAssemble s.rawUid n).length
      atsLen := 0x0000
      rxGen := s.rxGen + 1
      mem := landedMem s f } := by
  cases s
  rfl

/-- Settles O35, by bit 5 of the SAK; the UID is assembled in both cases. -/
theorem finalSakAssemblesTheUid : Obligations.FinalSakAssemblesTheUid := by
  unfold Obligations.FinalSakAssemblesTheUid
  intro sak n s r x raw u h habort htimeout hcrc hfinal hraw hu
  have hexec := exec_sakAnswer_final h habort htimeout hcrc hfinal
  have hassembled : uidAssemble s.rawUid n = u := by
    rw [hu, hraw]
    cases n <;> exact uidAssemble_slices s.rawUid _
  have huid : (uidFill u).toList = u ++ List.replicate (10 - u.length) 0x00 :=
    uidFill_toList u (hassembled ▸ uidAssemble_fits s.rawUid n)
  cases hats : sak.getLsbD 5 with
  | true =>
    rw [finalLevel_landSak_rats (f := byteFrame [sak]) hats, landSak_assembleUid_goTo, hassembled] at hexec
    refine ⟨_, hexec, landRx_lands (f := byteFrame [sak]) (mem_landRx s _).symm rfl rfl (by simp [byteFrame]), huid,
      fun _ => rfl, nofun⟩
  | false =>
    rw [finalLevel_landSak_plain (f := byteFrame [sak]) hats, landSak_assembleUid_activated, hassembled] at hexec
    refine ⟨_, hexec, landRx_lands (f := byteFrame [sak]) (mem_landRx s _).symm rfl rfl (by simp [byteFrame]), huid,
      nofun, fun _ => rfl⟩

/-! ### The RATS answer -/

theorem finishRats_ats {f : Frame} (hsome : 1 ≤ f.nbits / 8) (hlen : (f.bytes.getD 0 0).toNat = f.nbits / 8) (s : State) :
    finishRats (.ok f) s = ((s.landRx f).landAts (f.bytes.drop 1)).activated :=
  if_neg (not_or.mpr ⟨Nat.not_lt.mpr hsome, Decidable.not_not.mpr hlen⟩)

/-- The ATS stands in `ATSBUF`, and no byte outside it has changed (43_activation.md R209). -/
theorem landAts_bufByte {s t : State} {ats : List Byte} (hmem : t.mem = (s.landAts ats).mem) (htx : t.txGen = s.txGen)
    (hrx : t.rxGen = s.rxGen) (hlen : ats.length ≤ 264) : (∀ i, i < ats.length → t.bufByte (0x500 + i) = ats.getD i 0)
      ∧ ∀ a, inRange a 0x500 264 = false → t.bufByte a = s.bufByte a := by
  refine ⟨bufByte_landed hmem, fun a ha => bufByte_relanded hmem hlen a ?_ ha⟩
  have hats : inRange a Config.atsBase Config.maxFrameLen = false := ha
  simp [State.genAt, htx, hrx, hats]

/-- The state after a RATS answer, written out. -/
theorem landRx_landAts_activated (s : State) (f : Frame) (ats : List Byte) :
    ((State.landRx { s with xch := none } f).landAts ats).activated = { s with
      busy := false
      done := true
      abortReq := false
      xch := none
      run := none
      asm := .activated
      found := true
      rxBits := BitVec.ofNat 16 f.nbits
      atsLen := BitVec.ofNat 16 ats.length
      rxGen := s.rxGen + 1
      atsGen := s.atsGen + 1
      mem := Memory.putList (Memory.forget (landedMem s f) Config.atsBase Config.maxFrameLen) Config.atsBase ats } := by
  cases s
  rfl

/-- The answer stands in `RXBUF`, its ATS in `ATSBUF` too, and no other byte has changed (43_activation.md R209). -/
theorem captured_bufByte {s t : State} {f : Frame} {tl : Byte} {ats : List Byte} (hbytes : f.bytes = tl :: ats)
    (hlen : ats.length ≤ 263)
    (hmem : t.mem = Memory.putList (Memory.forget (landedMem s f) Config.atsBase Config.maxFrameLen) Config.atsBase ats)
    (htx : t.txGen = s.txGen) (hrx : t.rxGen = s.rxGen + 1) : t.bufByte 0x300 = tl
      ∧ (∀ i, i < ats.length → t.bufByte (0x301 + i) = ats.getD i 0 ∧ t.bufByte (0x500 + i) = ats.getD i 0)
      ∧ ∀ a, inRange a 0x300 264 = false → inRange a 0x500 264 = false → t.bufByte a = s.bufByte a := by
  obtain ⟨hats, hkept⟩ := landAts_bufByte (s := s.landRx f) (t := t) hmem htx hrx (by omega)
  obtain ⟨hanswer, hother⟩ := landRx_lands (s := s) (t := s.landRx f) rfl rfl rfl (by rw [hbytes, List.length_cons]; omega)
  rw [hbytes, List.length_cons] at hanswer
  have hread (i : Nat) (hi : i < ats.length + 1) : t.bufByte (0x300 + i) = (tl :: ats).getD i 0 := by
    have hout : inRange (0x300 + i) 0x500 264 = false := by
      rw [Bool.eq_false_iff, ne_eq, inRange_iff]
      omega
    rw [hkept _ hout, hanswer i hi]
  refine ⟨hread 0 (by omega), fun i hi => ⟨?_, hats i hi⟩, fun a hrxbuf hatsbuf => by rw [hkept a hatsbuf, hother a hrxbuf]⟩
  rw [(by omega : 0x301 + i = 0x300 + (i + 1)), hread (i + 1) (by omega), List.getD_cons_succ]

/-- Settles O36: the length byte counts itself and the ATS. -/
theorem ratsAnswerIsCaptured : Obligations.RatsAnswerIsCaptured := by
  unfold Obligations.RatsAnswerIsCaptured
  intro ats s r x h habort htimeout hcrc hlen
  obtain ⟨f, hf⟩ : ∃ f, f = byteFrame (BitVec.ofNat 8 (ats.length + 1) :: ats) := ⟨_, rfl⟩
  have hbytes : f.bytes = BitVec.ofNat 8 (ats.length + 1) :: ats := by rw [hf]; rfl
  have hnbits : f.nbits = 8 * (ats.length + 1) := by rw [hf]; rfl
  have hcount : f.nbits / 8 = ats.length + 1 := by omega
  have hfirst : (f.bytes.getD 0 0).toNat = f.nbits / 8 := by rw [hcount, hbytes]; exact lengthByte_toNat hlen
  have hexec := exec_receives_withCrc (i := .ratsAnswer ats) rfl h habort htimeout hcrc rfl (by rw [List.length_cons]; omega)
  rw [← hf, finish, finishRats_ats (by omega) hfirst, hbytes, List.drop_one, List.tail_cons, landRx_landAts_activated] at hexec
  exact ⟨_, hexec, by rw [hnbits]; rfl, captured_bufByte hbytes (by omega) rfl rfl rfl⟩

/-! ### Silence after the wake-up -/

theorem finishWake_silence {e : ErrKind} (h : e = .timeout ∨ e = .rfTimeout) (r : Run) (s : State) :
    finishWake r (.err e) s = wakeSilence r s := if_pos h

/-- ACTIVATE ends, and POLL with no attempt left (43_activation.md R196, R214). -/
theorem wakeSilence_ends {r : Run} {s : State}
    (h : (∃ w, r.job = .activate w) ∨ ∃ attempts, r.job = .poll attempts ∧ attempts.toNat ≤ s.pollCnt.toNat) :
    wakeSilence r s = s.noTag.complete := by
  obtain ⟨w, hjob⟩ | ⟨attempts, hjob, hnone⟩ := h
  · rw [wakeSilence, hjob]
  · rw [wakeSilence, hjob]
    exact if_neg (Nat.not_lt.mpr hnone)

theorem wakeSilence_pauses {r : Run} {s : State} {attempts : Byte} (hjob : r.job = .poll attempts)
    (hleft : s.pollCnt.toNat < attempts.toNat) : wakeSilence r s = s.noTag.goTo r .pause := by
  rw [wakeSilence, hjob]
  exact if_pos hleft

/-- Whatever the command does next, nothing has been received (42_bit_transceive.md R173). -/
theorem wakeSilence_loses (r : Run) (s : State) : LosesRx s (wakeSilence r s) := by
  unfold wakeSilence
  split
  case h_1 => split <;> exact dropRx_loses rfl rfl rfl
  all_goals exact dropRx_loses rfl rfl rfl

/-- The state after silence, written out: the command has ended, or POLL pauses. -/
theorem noTag_complete (s : State) (rest : List Input) : (State.noTag { s with inbox := rest, xch := none }).complete = { s with
    busy := false
    done := true
    abortReq := false
    xch := none
    run := none
    inbox := rest
    asm := .noTag
    rxBits := 0x0000
    rxGen := s.rxGen + 1
    mem := droppedMem s } := by
  cases s
  rfl

theorem noTag_goTo (s : State) (rest : List Input) (r : Run) (p : Point) :
    (State.noTag { s with inbox := rest, xch := none }).goTo r p = { s with
      xch := none
      run := some { r with point := p }
      inbox := rest
      asm := .noTag
      rxBits := 0x0000
      rxGen := s.rxGen + 1
      mem := droppedMem s } := by
  cases s
  rfl

/-! ### The end of POLL's pause -/

theorem ownMove_pause {s : State} {r : Run} (hr : s.run = some r) (hp : r.point = .pause) :
    ownMove s = .next (nextAttempt r s) := by
  obtain ⟨job, point, timeout, ratsParam⟩ := r
  simp only at hp
  subst hp
  simp only [ownMove, hr]

theorem silentMove_pause {s : State} {r : Run} (hr : s.run = some r) (hp : r.point = .pause) : silentMove s = ownMove s := by
  obtain ⟨job, point, timeout, ratsParam⟩ := r
  simp only at hp
  subst hp
  simp only [silentMove, hr]

/-- The pause ends by an entry of the inbox or, where there is none, by itself (log 5). -/
theorem step_pause {s : State} {r : Run} {rest : List Input} (hr : s.run = some r) (hp : r.point = .pause)
    (habort : s.abortReq = false) (hin : s.inbox = .proceed :: rest ∨ (s.inbox = [] ∧ rest = [])) :
    step s = .next (nextAttempt r { s with inbox := rest }) := by
  have hwait : (s.abortReq && waiting s) = false := by rw [habort, Bool.false_and]
  have hrest : ownMove { s with inbox := rest } = .next (nextAttempt r { s with inbox := rest }) :=
    ownMove_pause (s := { s with inbox := rest }) hr hp
  obtain hproceed | ⟨hempty, rfl⟩ := hin
  · rw [step_makeMove hproceed hwait, makeMove, hrest]
  · have hsame : { s with inbox := [] } = s := by rw [← hempty]
    rw [step_silent hempty hwait, silentMove_pause hr hp, ← hrest, hsame]

/-- Settles O37: the silence, by the command and its attempts, and the end of the pause. -/
theorem silenceAtWakeUpIsNoTag : Obligations.SilenceAtWakeUpIsNoTag := by
  unfold Obligations.SilenceAtWakeUpIsNoTag
  refine ⟨fun s r x m rest o h habort hin hm ho => ?silence, fun s r rest hr hp habort hin => ?pause⟩
  case silence =>
    obtain ⟨e, he, rfl⟩ : ∃ e, (e = .timeout ∨ e = .rfTimeout) ∧ o = .err e := by
      obtain rfl | rfl := ho
      · exact ⟨_, .inl rfl, rfl⟩
      · exact ⟨_, .inr rfl, rfl⟩
    have hstep := step_delivers h habort hin hm
    rw [finish, finishWake_silence he] at hstep
    refine ⟨_, hstep, wakeSilence_loses r { s with inbox := rest, xch := none }, fun hends => ?ends,
      fun attempts hjob hleft => ?pauses⟩
    case ends =>
      rw [wakeSilence_ends (s := { s with inbox := rest, xch := none }) hends, noTag_complete]
      rfl
    case pauses => rw [wakeSilence_pauses (s := { s with inbox := rest, xch := none }) hjob hleft, noTag_goTo]
  case pause =>
    rw [step_pause hr hp habort hin]
    rfl

/-! ### Failures -/

theorem finish_error {d : Due} {e : ErrKind} (r : Run) (s : State) (hraw : d ≠ .raw) (hhalt : d ≠ .halt)
    (hwake : d = .wake → e ≠ .timeout ∧ e ≠ .rfTimeout) : finish r d (.err e) s = s.dropRx.raise e := by
  cases d with
  | raw => exact absurd rfl hraw
  | halt => exact absurd rfl hhalt
  | wake => exact if_neg (not_or.mpr (hwake rfl))
  | anticoll | select | rats => rfl

/-- An answer that is not of the form its exchange awaits (43_activation.md R195, R197, R202, R209). -/
theorem finish_malformed {d : Due} {f : Frame} (r : Run) (s : State)
    (h : (d = .wake ∧ f.nbits ≠ 16) ∨ ((∃ n, d = .anticoll n) ∧ f.nbits ≠ 40) ∨ ((∃ n, d = .select n) ∧ f.nbits ≠ 8)
      ∨ (d = .rats ∧ (f.nbits / 8 = 0 ∨ (f.bytes.getD 0 0).toNat ≠ f.nbits / 8))) :
    finish r d (.ok f) s = (s.landRx f).raise .rfProtocolError := by
  obtain ⟨rfl, hbits⟩ | ⟨⟨n, rfl⟩, hbits⟩ | ⟨⟨n, rfl⟩, hbits⟩ | ⟨rfl, hlen⟩ := h
  · exact if_pos hbits
  · exact if_pos hbits
  · exact if_pos hbits
  · exact if_pos (hlen.imp_left Nat.lt_one_iff.mpr)

/-- The state after a failure, written out: nothing received, or a malformed answer. -/
theorem dropRx_raise (s : State) (rest : List Input) (e : ErrKind) :
    (State.dropRx { s with inbox := rest, xch := none }).raise e = { s with
      err := e
      busy := false
      done := true
      abortReq := false
      xch := none
      run := none
      inbox := rest
      rxBits := 0x0000
      rxGen := s.rxGen + 1
      mem := droppedMem s } := by
  cases s
  rfl

theorem landRx_raise (s : State) (rest : List Input) (f : Frame) (e : ErrKind) :
    (State.landRx { s with inbox := rest, xch := none } f).raise e = { s with
      err := e
      busy := false
      done := true
      abortReq := false
      xch := none
      run := none
      inbox := rest
      rxBits := BitVec.ofNat 16 f.nbits
      rxGen := s.rxGen + 1
      mem := landedMem s f } := by
  cases s
  rfl

/-- Settles O38, by whether an answer was delivered. -/
theorem failureFreezesTheSequencer : Obligations.FailureFreezesTheSequencer := by
  unfold Obligations.FailureFreezesTheSequencer
  intro s r d x m rest o h hraw hhalt habort hin hm
  have hstep := step_delivers h habort hin hm
  refine ⟨fun e he hwake => ?error, fun f hf hmalformed => ?malformed⟩
  case error =>
    rw [he, finish_error r _ hraw hhalt hwake, dropRx_raise] at hstep
    exact ⟨_, hstep, dropRx_loses (mem_dropRx s).symm rfl rfl, rfl⟩
  case malformed =>
    have hfits := fitsBuffer_of_delivers hm
    rw [hf] at hfits
    rw [hf, finish_malformed r _ hmalformed, landRx_raise] at hstep
    exact ⟨_, hstep, landRx_lands (mem_landRx s f).symm rfl rfl hfits.2, rfl⟩

end Sys2Proof.Proofs.ActivationAnswers

/-! A run of ACTIVATE over a tag with a single-size UID (43_activation.md R191): exchange by exchange, what has been gathered and what
the next exchange begins from. -/

namespace Sys2Proof.Proofs.ActivationRun

open Sys2Proof Sys2Proof.Machine
open Sys2Proof.Proofs.BusyBlock (hostWrites_cmd)
open Sys2Proof.Proofs.DecodedSteps (issueCommand_decoded step_sends)
open Sys2Proof.Proofs.FrameRows (answerMove_eq runDueFrame_sends)
open Sys2Proof.Proofs.WellFormedSteps (frameFor_congr txFrame_congr)
open Sys2Proof.Proofs.ActivationFrames Sys2Proof.Proofs.ActivationAnswers

/-! ### One exchange of a run -/

/-- ACTIVATE with REQA, under a timeout other than the poll timeout, is about to perform exchange `d`; it has put `out` on the RF port,
and nothing has failed or warned. -/
structure AboutTo (d : Due) (inbox : List Input) (out : List LineBits) (s : State) : Prop where
  sends : ∃ r, Sends s r d ∧ r.job = .activate false ∧ r.timeout ≠ 0x0000
  noAbort : s.abortReq = false
  noError : s.err = .noError
  noWarning : s.warn = Warn.none
  inbox : s.inbox = inbox
  rfOut : s.rfOut = out

/-- The state in which the frame of exchange `d` has been handed over and the answer to it is being read. -/
def handedOver (r : Run) (d : Due) (rest : List Input) (s : State) : State :=
  { (prepareSend d (frameFor r d s) s).openExchange r d (frameFor r d s) with inbox := rest }

theorem handedOver_awaits (r : Run) (d : Due) (rest : List Input) (s : State) :
    Awaits (handedOver r d rest s) { r with point := .await d } d ⟨frameLine (frameFor r d s), rxCrcFor r d, r.timeout⟩ :=
  ⟨rfl, rfl, rfl⟩

/-- The moves still to come are no part of what is sent. -/
theorem sendDue_inbox {s : State} {r : Run} {d : Due} (h : Sends s r d) (moves rest : List Input) :
    { sendDue { s with inbox := moves } with inbox := rest } = handedOver r d rest s := by
  have hframe : frameFor r d { s with inbox := moves } = frameFor r d s :=
    frameFor_congr r d (txFrame_congr (fun _ => rfl) rfl) rfl rfl
  have hsends : Sends { s with inbox := moves } r d := h
  rw [sendDue_sends hsends, hframe]
  cases d <;> rfl

section Moves

variable {s : State} {r : Run} {d : Due}

theorem sendDue_moves (h : Sends s r d) : (sendDue s).inbox = s.inbox ∧ (sendDue s).abortReq = s.abortReq := by
  rw [sendDue_sends h]
  cases d <;> simp [prepareSend]

theorem step_proceed {rest : List Input} (h : Sends s r d) (hin : s.inbox = .proceed :: rest) :
    step s = .next (sendDue { s with inbox := rest }) := by
  have hsends : Sends { s with inbox := rest } r d := h
  rw [step_sends (.inl hin) h, runDueFrame_sends hsends]

theorem step_answer {i : Instr} {rest : List Input} (habort : s.abortReq = false)
    (hin : s.inbox = .answer (.line (frameLine (encode i))) :: rest) (hk : receivedKind i.kind = true) :
    step s = exec i { s with inbox := rest } := by
  rw [step_makeMove hin (by rw [habort, Bool.false_and]), makeMove, answerMove_eq, exec_received hk]

/-- Two moves of a run: the block sends, and a row answers. -/
theorem run_exchange {i : Instr} {t : State} {rest : List Input} (h : Sends s r d) (habort : s.abortReq = false)
    (hin : s.inbox = .proceed :: .answer (.line (frameLine (encode i))) :: rest) (hk : receivedKind i.kind = true)
    (hexec : exec i (handedOver r d rest s) = .next t) (k : Nat) :
    Host.Core.run Sys2Proof.core (k + 2) s = Host.Core.run Sys2Proof.core k t := by
  obtain ⟨hmoves, hnoAbort⟩ := sendDue_moves (s := { s with inbox := .answer (.line (frameLine (encode i))) :: rest }) h
  rw [← sendDue_inbox h, ← step_answer (hnoAbort.trans habort) hmoves hk] at hexec
  rw [run_next (k + 1) (step_proceed h hin), run_next k hexec]

end Moves

/-! ### What sending leaves -/

section HandedOver

variable (r : Run) (d : Due) (rest : List Input) (s : State)

@[simp] theorem handedOver_inbox : (handedOver r d rest s).inbox = rest := rfl

@[simp] theorem handedOver_abortReq : (handedOver r d rest s).abortReq = s.abortReq := by
  cases d <;> simp [handedOver, prepareSend]

@[simp] theorem handedOver_err : (handedOver r d rest s).err = s.err := by
  cases d <;> simp [handedOver, prepareSend]

@[simp] theorem handedOver_warn : (handedOver r d rest s).warn = s.warn := by
  cases d <;> simp [handedOver, prepareSend]

@[simp] theorem handedOver_rfOut : (handedOver r d rest s).rfOut = s.rfOut ++ [frameLine (frameFor r d s)] := by
  cases d <;> simp [handedOver, prepareSend]

@[simp] theorem handedOver_atqa0 : (handedOver r d rest s).atqa0 = s.atqa0 := by
  cases d <;> simp [handedOver, prepareSend]

@[simp] theorem handedOver_atqa1 : (handedOver r d rest s).atqa1 = s.atqa1 := by
  cases d <;> simp [handedOver, prepareSend]

@[simp] theorem handedOver_rawUid : (handedOver r d rest s).rawUid = s.rawUid := by
  cases d <;> simp [handedOver, prepareSend]

@[simp] theorem handedOver_rawBcc : (handedOver r d rest s).rawBcc = s.rawBcc := by
  cases d <;> simp [handedOver, prepareSend]

@[simp] theorem handedOver_anticoll_cl (n : Level) : (handedOver r (.anticoll n) rest s).cl = some n := by
  simp [handedOver, prepareSend]

@[simp] theorem handedOver_select_cl (n : Level) : (handedOver r (.select n) rest s).cl = s.cl := by
  simp [handedOver, prepareSend]

end HandedOver

/-! ### The three exchanges -/

/-- What is stored in a level's slices is found there (10_state.md R33). -/
theorem rawPart_setRawPart (raw : Vector Byte 12) (n : Level) (u0 u1 u2 u3 : Byte) :
    rawPart (setRawPart raw n u0 u1 u2 u3) n = [u0, u1, u2, u3] := by
  rw [vector12 raw]
  cases n <;> rfl

theorem rawBccAt_setRawBcc (v : Vector Byte 3) (n : Level) (b : Byte) : rawBccAt (setRawBcc v n b) n = b := by
  rw [vector3 v]
  cases n <;> rfl

section Exchanges

variable {s : State} {rest : List Input} {out : List LineBits}

/-- REQA is answered by an ATQA (43_activation.md R194, R197). -/
theorem exchange_wake {a0 a1 : Byte}
    (h : AboutTo .wake (.proceed :: .answer (.line (frameLine (encode (.atqa a0 a1)))) :: rest) out s) :
    ∃ t : State, (∀ k, Host.Core.run Sys2Proof.core (k + 2) s = Host.Core.run Sys2Proof.core k t)
      ∧ AboutTo (.anticoll .cl1) rest (out ++ [frameLine (encode .reqa)]) t ∧ t.atqa0 = a0 ∧ t.atqa1 = a1 := by
  obtain ⟨⟨r, hsends, hjob, htimeout⟩, habort, herr, hwarn, hin, hout⟩ := h
  have hexec := exec_atqa_lands a0 a1 (handedOver_awaits r .wake rest s) (by simpa using habort) htimeout rfl
  have hframe : frameFor r .wake s = reqaFrame := by rw [frameFor, hjob]; rfl
  refine ⟨_, run_exchange hsends habort hin rfl hexec, ⟨⟨_, ⟨rfl, rfl⟩, hjob, htimeout⟩, ?noAbort, ?noError, ?noWarning, ?inbox,
    ?rfOut⟩, rfl, rfl⟩
  all_goals simp [habort, herr, hwarn, hout, hframe, encode]

/-- The anti-collision frame of a level is answered by five bytes whose BCC is right (43_activation.md R197 to R200). -/
theorem exchange_anticoll {n : Level} {u0 u1 u2 u3 : Byte}
    (h : AboutTo (.anticoll n)
      (.proceed :: .answer (.line (frameLine (encode (.anticollAnswer u0 u1 u2 u3 (u0 ^^^ u1 ^^^ u2 ^^^ u3))))) :: rest) out s) :
    ∃ t : State, (∀ k, Host.Core.run Sys2Proof.core (k + 2) s = Host.Core.run Sys2Proof.core k t)
      ∧ AboutTo (.select n) rest (out ++ [frameLine (encode (anticollOf n))]) t ∧ t.atqa0 = s.atqa0 ∧ t.atqa1 = s.atqa1
      ∧ t.cl = some n ∧ rawPart t.rawUid n = [u0, u1, u2, u3] ∧ rawBccAt t.rawBcc n = u0 ^^^ u1 ^^^ u2 ^^^ u3 := by
  obtain ⟨⟨r, hsends, hjob, htimeout⟩, habort, herr, hwarn, hin, hout⟩ := h
  have hexec := exec_anticollAnswer_lands u0 u1 u2 u3 (u0 ^^^ u1 ^^^ u2 ^^^ u3) (handedOver_awaits r (.anticoll n) rest s)
    (by simpa using habort) htimeout rfl
  have hbcc : bccOk (byteFrame [u0, u1, u2, u3, u0 ^^^ u1 ^^^ u2 ^^^ u3]).bytes = true := decide_eq_true rfl
  have hframe : frameFor r (.anticoll n) s = encode (anticollOf n) := by cases n <;> rfl
  refine ⟨_, run_exchange hsends habort hin rfl hexec, ⟨⟨_, ⟨rfl, rfl⟩, hjob, htimeout⟩, ?noAbort, ?noError, ?noWarning, ?inbox,
    ?rfOut⟩, ?atqa0, ?atqa1, ?cl, ?rawUid, ?rawBcc⟩
  case rawUid => exact rawPart_setRawPart ..
  case rawBcc => exact rawBccAt_setRawBcc ..
  all_goals simp [habort, herr, hwarn, hout, hframe, hbcc]

/-- The SELECT confirm is answered by a SAK that ends the cascade and offers no RATS (43_activation.md R201, R206, R210). -/
theorem exchange_select {n : Level} {u0 u1 u2 u3 b sak : Byte} (hcascade : sak.getLsbD 2 = false) (hats : sak.getLsbD 5 = false)
    (huid : rawPart s.rawUid n = [u0, u1, u2, u3]) (hbcc : rawBccAt s.rawBcc n = b)
    (h : AboutTo (.select n) (.proceed :: .answer (.line (frameLine (encode (.sakAnswer sak)))) :: rest) out s) :
    ∃ t : State, (∀ k, Host.Core.run Sys2Proof.core (k + 2) s = Host.Core.run Sys2Proof.core k t)
      ∧ t.asm = .activated ∧ t.found = true ∧ t.busy = false ∧ t.done = true ∧ t.err = .noError
      ∧ t.uid = uidFill (uidAssemble s.rawUid n) ∧ t.uidLen = BitVec.ofNat 8 (uidAssemble s.rawUid n).length ∧ t.sak = sak
      ∧ t.atqa0 = s.atqa0 ∧ t.atqa1 = s.atqa1 ∧ t.atsLen = 0 ∧ t.warn = Warn.none ∧ t.cl = s.cl
      ∧ t.rfOut = out ++ [frameLine (encode (selectOf u0 u1 u2 u3 b n))] := by
  obtain ⟨⟨r, hsends, hjob, htimeout⟩, habort, herr, hwarn, hin, hout⟩ := h
  have hexec := exec_sakAnswer_final (handedOver_awaits r (.select n) rest s) (by simpa using habort) htimeout rfl hcascade
  rw [finalLevel_landSak_plain (f := byteFrame [sak]) hats] at hexec
  have hframe : frameFor r (.select n) s = encode (selectOf u0 u1 u2 u3 b n) := by
    rw [encode_selectOf, frameFor, asmSelectFrame, huid, hbcc]
    rfl
  refine ⟨_, run_exchange hsends habort hin rfl hexec, ?_⟩
  simp [herr, hwarn, hout, hframe, byteFrame]

end Exchanges

/-! ### The run -/

/-- Writing 0x40 to `CMD` with `P0` = 0 accepts ACTIVATE with REQA (30_encoding.md R82, 43_activation.md R191). -/
theorem step_activate {s : State} {rest : List Input} (hidle : s.busy = false) (habort : s.abortReq = false) (hp0 : s.p0 = 0x00)
    (hin : s.inbox = .hostWrite 0x000 0x40 :: rest) :
    step s = .next (targetCleared (begun 0x40 (.activate false) .wake { s with inbox := rest })) := by
  have hdecoded : decode .hostCommand (commandWord 0x40 s.p0 s.p1) = .instr (.activate 0x00) := by rw [hp0]; rfl
  obtain ⟨haccepted, -⟩ := activateClearsThenWakes 0x00 { s with inbox := rest } hidle
  rw [step_makeMove hin (by rw [habort, Bool.false_and]), makeMove, hostWrites_cmd,
    issueCommand_decoded (s := { s with inbox := rest }) hdecoded]
  exact haccepted (by decide)

theorem aboutTo_wake {s : State} {rest : List Input} (htimeout : s.timeout ≠ 0x0000) :
    AboutTo .wake rest s.rfOut (targetCleared (begun 0x40 (.activate false) .wake { s with inbox := rest })) :=
  ⟨⟨_, ⟨rfl, rfl⟩, rfl, htimeout⟩, rfl, rfl, rfl, rfl, rfl⟩

/-- Settles O60: the acceptance, then the three exchanges of level 1. -/
theorem activationOfASingleSizeUid : Obligations.ActivationOfASingleSizeUid := by
  unfold Obligations.ActivationOfASingleSizeUid
  intro s a0 a1 u0 u1 u2 u3 sak hidle habort hp0 htimeout hcascade hats hin
  obtain ⟨v1, hrun1, hready1, ha0, ha1⟩ := exchange_wake (aboutTo_wake htimeout)
  obtain ⟨v2, hrun2, hready2, ha0', ha1', hcl, huid, hbcc⟩ := exchange_anticoll hready1
  obtain ⟨t, hrun3, hasm, hfound, hbusy, hdone, herr, huid', hlen, hsak, ha0'', ha1'', hatsLen, hwarn, hcl', hout⟩ :=
    exchange_select hcascade hats huid hbcc hready2
  have hraw : uidAssemble v2.rawUid .cl1 = [u0, u1, u2, u3] := huid
  rw [hraw] at huid' hlen
  refine ⟨t, ?run, hasm, hfound, hbusy, hdone, herr, by rw [huid']; rfl, hlen, hsak,
    by rw [ha0'', ha0', ha0], by rw [ha1'', ha1', ha1], hatsLen, by rw [hwarn]; rfl, by rw [hcl', hcl],
    by rw [hout]; simp [anticollOf, selectOf]⟩
  rw [run_next 6 (step_activate hidle habort hp0 hin), hrun1 4, hrun2 2, hrun3 0, run_zero t]

end Sys2Proof.Proofs.ActivationRun

/-! The system commands (44_system.md R232 to R234): NOP, INIT_INITIATOR and CONFIGURE. `CFG` is treated as the list of its option
bits, of which CONFIGURE sets one. -/

namespace Sys2Proof.Proofs.SystemCommands

open Sys2Proof Sys2Proof.Machine
open Sys2Proof.Proofs.FrameCodec (rejects_of_raise)

/-! ### The options of CFG -/

/-- The options of `CFG` in the order of their indices, which is the order of their bits (10_state.md R25, 44_system.md R234). -/
def cfgOptions (c : Cfg) : List Bool := [c.handleCrc, c.easyFraming, c.autoIso14443_4, c.infiniteSelect]

theorem cfgOptions_length (c : Cfg) : (cfgOptions c).length = 4 := rfl

theorem cfgByte_bit_eq_option (c : Cfg) {k : Nat} (hk : k < 8) : (cfgByte c).getLsbD k = (cfgOptions c).getD k false :=
  cfgByte_bit c k hk

theorem cfgOptions_setOption (c : Cfg) {option : Byte} (v : Bool) (h : option.toNat ≤ 3) :
    cfgOptions (setOption c option v) = (cfgOptions c).set option.toNat v := by
  rw [setOption]
  match option.toNat, h with
  | 0, _ | 1, _ | 2, _ | 3, _ => rfl

theorem cfgByte_setOption_bit (c : Cfg) {option : Byte} (v : Bool) (h : option.toNat ≤ 3) {k : Nat} (hk : k < 8) :
    (cfgByte (setOption c option v)).getLsbD k = if k = option.toNat then v else (cfgByte c).getLsbD k := by
  have hin : option.toNat < (cfgOptions c).length := by rw [cfgOptions_length]; omega
  rw [cfgByte_bit_eq_option _ hk, cfgByte_bit_eq_option _ hk, cfgOptions_setOption c v h, List.getD_eq_getElem?_getD,
    List.getD_eq_getElem?_getD]
  split
  next hsame => rw [hsame, List.getElem?_set_self hin, Option.getD_some]
  next hother => rw [List.getElem?_set_ne (Ne.symm hother)]

/-! ### CONFIGURE -/

section Configure

variable {option enabled : Byte} {s : State}

theorem configureRule_illegal (h : 3 < option.toNat ∨ 1 < enabled.toNat) :
    configureRule option enabled s = s.raise .invalidParameter :=
  if_pos h

theorem configureRule_legal (hopt : option.toNat ≤ 3) (hen : enabled.toNat ≤ 1) :
    configureRule option enabled s = { s with cfg := setOption s.cfg option (enabled = 1) }.complete :=
  if_neg (by omega)

end Configure

/-- Settles O3: the rule on legal operands assigns one of the options of `CFG`, of which each is one bit. -/
theorem configureAssignsOneOption : Obligations.ConfigureAssignsOneOption := by
  unfold Obligations.ConfigureAssignsOneOption
  intro option enabled s hidle
  refine ⟨fun hopt hen => ⟨{ ended 0x02 .noError s with cfg := setOption s.cfg option (enabled = 1) }, ?next, rfl,
    fun k hk => ?bit⟩, fun hbad => ?illegal⟩
  case next =>
    rw [exec_configure, issue_idle hidle, configureRule_legal hopt hen]
    rfl
  case bit =>
    have hone : enabled = 1 ↔ enabled.toNat = 1 := BitVec.toNat_inj.symm
    rw [← decide_eq_decide.mpr hone]
    exact cfgByte_setOption_bit s.cfg _ hopt hk
  case illegal => exact rejects_of_raise hidle (exec_configure option enabled s) (configureRule_illegal hbad)

/-! ### NOP and INIT_INITIATOR -/

/-- Settles O1: acceptance followed at once by completion touches only the handshake. -/
theorem nopOnlyCompletes : Obligations.NopOnlyCompletes := by
  unfold Obligations.NopOnlyCompletes
  intro s hidle
  rw [exec_nop, issue_idle hidle, complete_accept]

/-- INIT_INITIATOR keeps of the accepted state its `CMD` and what a reset itself keeps (44_system.md R233). -/
theorem initRule_accept (s : State) (op : Byte) :
    initRule (s.accept op) = { s.clearAll with cmd := op, done := true } := rfl

/-- Settles O2: the rule is a reset in which `CMD` and the end of the command are written. -/
theorem initInitiatorRestoresResetValues : Obligations.InitInitiatorRestoresResetValues := by
  unfold Obligations.InitInitiatorRestoresResetValues
  intro s hidle
  refine ⟨{ s.clearAll with cmd := 0x01, done := true }, ?next, rfl⟩
  rw [exec_initInitiator, issue_idle hidle, initRule_accept]

end Sys2Proof.Proofs.SystemCommands

/-! What ends an exchange besides the answer it delivers (60_exceptions.md R252, R262, R278, 70_reset_and_hazards.md R299): a pending
abort, the end of the timeout, and the free choices where an answer meets the timeout. -/

namespace Sys2Proof.Proofs.ExchangeEnds

open Sys2Proof Sys2Proof.Machine
open Sys2Proof.Proofs.FrameRows (answerMove_eq receivedKind_of_eq)
open Sys2Proof.Proofs.ActivationFrames (finishHalt_released)
open Sys2Proof.Proofs.ActivationAnswers (finish_error line_byteFrame_ne_nil)

theorem xch_of_awaits {s : State} {r : Run} {d : Due} {x : Exchange} (h : Awaits s r d x) : s.xch = some x := h.2.2

/-! ### A received row is an answer -/

/-- A received row carries at least one byte (30_encoding.md R94 to R97). -/
theorem encode_received_ne_nil {i : Instr} (hk : receivedKind i.kind = true) :
    ∃ bytes, encode i = byteFrame bytes ∧ bytes ≠ [] := by
  cases i with
  | atqa | anticollAnswer | sakAnswer | ratsAnswer => exact ⟨_, rfl, List.cons_ne_nil _ _⟩
  | _ => cases hk

/-- A line frame of no bits is no answer (log 15); no received row has one. -/
theorem line_received_ne_nil {i : Instr} (hk : receivedKind i.kind = true) :
    Answer.line (frameLine (encode i)) ≠ .line [] := by
  obtain ⟨bytes, hbytes, hne⟩ := encode_received_ne_nil hk
  rw [hbytes]
  exact line_byteFrame_ne_nil hne

/-! ### A pending abort -/

section Abort

variable {s : State}

theorem resetNext_eq_false (h : ∀ rest, s.inbox ≠ .reset :: rest) : resetNext s = false := by
  cases hin : s.inbox with
  | nil => simp [resetNext, hin]
  | cons m rest =>
    have hm : m ≠ .reset := fun hm => h rest (by rw [hin, hm])
    simp [resetNext, hin, hm]

variable {r : Run} {d : Due} {x : Exchange}

theorem takeAbort_awaits (h : Awaits s r d x) : takeAbort s = finish r d (.err .aborted) { s with xch := none } := by
  rw [takeAbort, xch_of_awaits h, endExchange_awaits h]

theorem takeAbort_pause (hx : s.xch = none) : takeAbort s = closed .aborted s := by
  rw [takeAbort, hx, raise_closed]

theorem waiting_pause (hr : s.run = some r) (hp : r.point = .pause) : waiting s = true := by
  obtain ⟨job, point, timeout, ratsParam⟩ := r
  simp only at hp
  subst hp
  simp only [waiting, hr]

/-- An abort wins over the answer that arrives (60_exceptions.md R252 item 3). -/
theorem answerArrives_aborted {a : Answer} (hx : s.xch = some x) (ha : a ≠ .line []) (habort : s.abortReq = true) :
    answerArrives a s = takeAbort s := by
  simp only [answerArrives, hx]
  rw [if_neg ha, if_pos habort]

theorem finish_aborted (r : Run) (s : State) (hhalt : d ≠ .halt) :
    finish r d (.err .aborted) s = s.dropRx.raise .aborted := by
  by_cases hraw : d = .raw
  · rw [hraw, finish, finishRaw]
  · exact finish_error r s hraw hhalt fun _ => ⟨nofun, nofun⟩

/-- An abort is no silence, so the Target is released with the error (43_activation.md R213). -/
theorem finish_halt_aborted (r : Run) (s : State) : finish r .halt (.err .aborted) s = closed .aborted s.released := by
  obtain ⟨e, hend, -, herror, -⟩ := finishHalt_released (.err .aborted) s
  rw [finish, hend, herror .aborted rfl nofun nofun]

/-- Whatever the exchange, an abort leaves nothing received and changes no byte outside `RXBUF` (42_bit_transceive.md R173). -/
theorem finish_aborted_loses (r : Run) (d : Due) (s : State) :
    LosesRx s (finish r d (.err .aborted) { s with xch := none }) := by
  by_cases hhalt : d = .halt
  · rw [hhalt, finish_halt_aborted]
    exact dropRx_loses rfl rfl rfl
  · rw [finish_aborted r _ hhalt]
    exact dropRx_loses rfl rfl rfl

end Abort

/-- Settles O40: the abort is taken in the wait for an answer, where a HALT still releases its Target, and in POLL's pause. -/
theorem abortEndsTheWait : Obligations.AbortEndsTheWait := by
  unfold Obligations.AbortEndsTheWait
  refine ⟨fun s r d x h habort hreset => ⟨takeAbort s, ?step, ?loses, fun hd => ?other, fun hd => ?halt, fun i hk => ?row⟩,
    fun s r hr hp hx habort hreset => ?pause⟩
  case step => exact step_abort habort (waiting_awaits h) (resetNext_eq_false hreset)
  case loses =>
    rw [takeAbort_awaits h]
    exact finish_aborted_loses r d s
  case other =>
    rw [takeAbort_awaits h, finish_aborted r _ hd]
    rfl
  case halt =>
    rw [takeAbort_awaits h, hd, finish_halt_aborted]
    rfl
  case row =>
    have hreceived := receivedKind_of_eq hk
    rw [exec_received hreceived, answerArrives_aborted (xch_of_awaits h) (line_received_ne_nil hreceived) habort]
  case pause => rw [step_abort habort (waiting_pause hr hp) (resetNext_eq_false hreset), takeAbort_pause hx]

/-! ### The poll timeout, and an answer at the end of the timeout -/

section Coincidence

variable {s : State} {x : Exchange} {a : Answer} (hx : s.xch = some x) (habort : s.abortReq = false) (ha : a ≠ .line [])

include hx habort ha

/-- Under the poll timeout the answer is there or the exchange times out (60_exceptions.md R262, U6). -/
theorem answerArrives_poll (htimeout : x.timeout = 0x0000) :
    answerArrives a s = if Config.pollAnswerThere s.fresh
      then endExchange (decodeAnswer x.rxCrc a) { s with fresh := s.fresh + 1 }
      else endExchange (.err .timeout) { s with fresh := s.fresh + 1 } := by
  simp only [answerArrives, hx]
  rw [if_neg ha, if_neg (Bool.eq_false_iff.mp habort), if_pos htimeout]

/-- An answer at the end of the timeout is a race only where the timeout has an end. -/
theorem answerAtTimeout_race : answerAtTimeout a s =
    if x.timeout = Config.foreverTimeout then answerArrives a s
    else if Config.answerBeatsTimeout s.fresh then answerArrives a { s with fresh := s.fresh + 1 }
    else timeoutExpires { s with fresh := s.fresh + 1 } := by
  simp only [answerAtTimeout, hx]
  rw [if_neg ha, if_neg (Bool.eq_false_iff.mp habort)]

/-- Either of an answer and the end of a finite timeout may be taken (60_exceptions.md R252 item 4, U5). -/
theorem answerAtTimeout_finite (hzero : x.timeout ≠ 0x0000) (hforever : x.timeout ≠ 0xFFFF) :
    answerAtTimeout a s = if Config.answerBeatsTimeout s.fresh
      then endExchange (decodeAnswer x.rxCrc a) { s with fresh := s.fresh + 1 }
      else endExchange (.err .timeout) { s with fresh := s.fresh + 1 } := by
  rw [answerAtTimeout_race hx habort ha, if_neg (show x.timeout ≠ Config.foreverTimeout from hforever),
    answerArrives_delivered (s := { s with fresh := s.fresh + 1 }) hx ha habort hzero,
    timeoutExpires_finite (s := { s with fresh := s.fresh + 1 }) hx habort hforever]

/-- The "forever" sentinel has no end to coincide with (60_exceptions.md R262). -/
theorem answerAtTimeout_forever (hforever : x.timeout = 0xFFFF) :
    answerAtTimeout a s = endExchange (decodeAnswer x.rxCrc a) s := by
  have hzero : x.timeout ≠ 0x0000 := by rw [hforever]; decide
  rw [answerAtTimeout_race hx habort ha, if_pos (show x.timeout = Config.foreverTimeout from hforever),
    answerArrives_delivered hx ha habort hzero]

end Coincidence

/-- Settles O42, by the timeout: the poll timeout in a step and for a row, a finite one, and the sentinel. -/
theorem coincidencesAreFreeChoices : Obligations.CoincidencesAreFreeChoices := by
  unfold Obligations.CoincidencesAreFreeChoices
  refine ⟨fun s x hx htimeout habort => ⟨fun a rest ha hin => ?poll, fun i hk => ?pollRow⟩,
    fun s x a rest hx habort ha hin => ?coincidence⟩
  case poll =>
    rw [step_makeMove hin (by rw [habort, Bool.false_and]), makeMove, answerMove_eq]
    exact congrArg _ (answerArrives_poll (s := { s with inbox := rest }) hx habort ha htimeout)
  case pollRow =>
    have hreceived := receivedKind_of_eq hk
    rw [exec_received hreceived, answerArrives_poll hx habort (line_received_ne_nil hreceived) htimeout]
  case coincidence =>
    rw [step_makeMove hin (by rw [habort, Bool.false_and]), makeMove]
    exact ⟨fun hzero hforever => congrArg _ (answerAtTimeout_finite (s := { s with inbox := rest }) hx habort ha hzero hforever),
      fun hforever => congrArg _ (answerAtTimeout_forever (s := { s with inbox := rest }) hx habort ha hforever)⟩

/-! ### Silence -/

/-- Silence after the wake-up opens no exchange, not even where POLL goes on (43_activation.md R196, R214). -/
theorem wakeSilence_xch (r : Run) {s : State} (hx : s.xch = none) : (wakeSilence r s).xch = none := by
  unfold wakeSilence
  split
  case h_1 =>
    split
    · exact hx
    · rfl
  all_goals rfl

/-- An exchange that has timed out is no longer outstanding, whatever the command does next (42_bit_transceive.md R163 step 5). -/
theorem finish_timeout_xch (r : Run) (d : Due) {s : State} (hx : s.xch = none) : (finish r d (.err .timeout) s).xch = none := by
  cases d with
  | wake => exact wakeSilence_xch r hx
  | raw | anticoll | select | rats | halt => rfl

section Silence

variable {s : State} {r : Run} {d : Due} {x : Exchange}

theorem silentMove_awaits (h : Awaits s r d x) : silentMove s = .next (timeoutExpires s) := by
  obtain ⟨hr, hp, -⟩ := h
  obtain ⟨job, point, timeout, ratsParam⟩ := r
  simp only at hp
  subst hp
  simp only [silentMove, hr]

theorem step_silence (h : Awaits s r d x) (habort : s.abortReq = false) (hin : s.inbox = []) :
    step s = .next (timeoutExpires s) := by
  rw [step_silent hin (by rw [habort, Bool.false_and]), silentMove_awaits h]

/-- The "forever" sentinel never runs out (60_exceptions.md R262). -/
theorem timeoutExpires_forever (hx : s.xch = some x) (habort : s.abortReq = false) (hforever : x.timeout = 0xFFFF) :
    timeoutExpires s = s := by
  simp only [timeoutExpires, hx]
  rw [if_neg (Bool.eq_false_iff.mp habort)]
  exact if_pos hforever

end Silence

/-- A step that changes nothing is repeated for ever (70_reset_and_hazards.md R299). -/
theorem run_stuck {s : State} (h : step s = .next s) (k : Nat) : Host.Core.run Sys2Proof.core k s = .next s := by
  induction k with
  | zero => exact run_zero s
  | succ k ih => rw [run_next k h, ih]

/-- Settles O43: the silent step is the end of the timeout, and with the sentinel that changes nothing. -/
theorem finiteTimeoutEndsAnExchange : Obligations.FiniteTimeoutEndsAnExchange := by
  unfold Obligations.FiniteTimeoutEndsAnExchange
  intro s r d x h habort hin
  have hstep := step_silence h habort hin
  refine ⟨fun hfinite => ⟨_, hstep, ?ends⟩, fun hforever => run_stuck ?repeats⟩
  case ends =>
    rw [timeoutExpires_finite (xch_of_awaits h) habort hfinite, endExchange_awaits h]
    exact finish_timeout_xch r d rfl
  case repeats => rw [hstep, timeoutExpires_forever (xch_of_awaits h) habort hforever]

end Sys2Proof.Proofs.ExchangeEnds

/-! Hardware reset (70_reset_and_hazards.md R280, R281) and the upper part of `TXBUF`, which belongs to the host (R293): a
projection of the state to `TXBUF[9..264)`, what each operation on the buffers leaves of it, and one statement for all instructions. -/

namespace Sys2Proof.Proofs.ResetAndHazards

open Sys2Proof Sys2Proof.Machine
open Sys2Proof.Proofs.IdleHostPort (inRange_iff)
open Sys2Proof.Proofs.WellFormedSteps (dataOk_update frameFor_length anticollFrame_length ratsFrame_length selectFrame_length)

/-! ### Reset -/

/-- Settles O53: the values are the ones `State.reset` is written with. -/
theorem resetValues : Obligations.ResetValues := by
  unfold Obligations.ResetValues
  rfl

/-- A reset leaves no bit of `STATUS` set (10_state.md R22). -/
theorem statusByte_clearAll (s : State) : statusByte s.clearAll = 0x00 := by
  have hreset : statusByte s.clearAll = statusByte State.reset := rfl
  rw [hreset]
  decide

/-- Settles O54: a step that finds a reset next clears every element. -/
theorem hardwareResetAtAnyMoment : Obligations.HardwareResetAtAnyMoment := by
  unfold Obligations.HardwareResetAtAnyMoment
  intro s rest hin
  refine ⟨State.clearAll { s with inbox := rest }, step_reset hin, rfl, rfl, statusByte_clearAll _, ?registers⟩
  case registers => exact ⟨rfl, rfl, rfl, rfl, rfl, rfl, rfl, rfl, rfl⟩

/-- Settles O55: the data are those of a block that a reset has cleared, and no command is in progress. -/
theorem resetIsWellFormed : Obligations.ResetIsWellFormed := by
  unfold Obligations.ResetIsWellFormed
  have hdata : DataOk State.reset := dataOk_update (DataOk.clearAll State.reset)
  exact hdata.inv_idle rfl rfl rfl rfl

/-! ### `TXBUF[9..264)` and the operations on the buffers -/

/-- `TXBUF[9..264)`. -/
def upperTx (s : State) : Fin 255 → Byte := fun k => s.txByte (9 + k)

theorem txByte_of_upperTx {s t : State} (h : upperTx t = upperTx s) {k : Nat} (hlow : 9 ≤ k) (hhigh : k < 264) :
    t.txByte k = s.txByte k := by
  have hk : 9 + (k - 9) = k := by omega
  have hbyte : t.txByte (9 + (k - 9)) = s.txByte (9 + (k - 9)) := congrFun h ⟨k - 9, by omega⟩
  rwa [hk] at hbyte

/-- `TXBUF[9..264)` stands at the host addresses from 0x109 to below 0x208 (20_memory.md R62). -/
theorem upperTx_of_get {s t : State} (htx : t.txGen = s.txGen)
    (hget : ∀ a, 0x109 ≤ a → a < 0x208 → Memory.get t.mem a = Memory.get s.mem a) : upperTx t = upperTx s := by
  funext k
  have hk := k.isLt
  have hin : inRange (Config.txBase + (9 + k)) Config.txBase Config.maxFrameLen = true := by
    rw [inRange_iff]
    unfold Config.txBase Config.maxFrameLen
    omega
  have hgen : t.genAt (Config.txBase + (9 + k)) = s.genAt (Config.txBase + (9 + k)) := by
    simp only [State.genAt, hin, if_true, htx]
  have hheld := hget (Config.txBase + (9 + k)) (by unfold Config.txBase; omega) (by unfold Config.txBase; omega)
  simp only [upperTx, State.txByte, State.bufByte, hheld, hgen]

theorem upperTx_congr {s t : State} (hmem : t.mem = s.mem) (htx : t.txGen = s.txGen) : upperTx t = upperTx s :=
  upperTx_of_get htx fun _ _ _ => by rw [hmem]

/-- A store into `TXBUF[0..9)`. -/
theorem upperTx_writeTx (s : State) {i : Nat} {bytes : List Byte} (h : i + bytes.length ≤ 9) :
    upperTx (s.writeTx i bytes) = upperTx s := by
  refine upperTx_of_get rfl fun a hlow _ => ?_
  have hout : ¬(Config.txBase + i ≤ a ∧ a < Config.txBase + i + bytes.length) := by unfold Config.txBase; omega
  rw [State.writeTx, Memory.get_putList, if_neg hout]

theorem upperTx_putTxFrame (s : State) {f : Frame} (h : f.bytes.length ≤ 9) : upperTx (s.putTxFrame f) = upperTx s :=
  upperTx_writeTx s (i := 0) (by omega)

theorem upperTx_putCrcFrame (s : State) {f : Frame} (h : f.bytes.length ≤ 9) : upperTx (s.putCrcFrame f) = upperTx s :=
  upperTx_putTxFrame s h

/-- What happens at the addresses above `TXBUF` does not reach it. -/
theorem get_putList_forget_below (m : Memory) {a lo : Nat} (h : a < lo) (n : Nat) (bytes : List Byte) :
    Memory.get (Memory.putList (Memory.forget m lo n) lo bytes) a = Memory.get m a := by
  rw [Memory.get_putList, if_neg (by omega), Memory.get_forget, if_neg (by omega)]

theorem upperTx_landRx (s : State) (f : Frame) : upperTx (s.landRx f) = upperTx s :=
  upperTx_of_get rfl fun _ _ ha => get_putList_forget_below s.mem (by unfold Config.rxBase; omega) _ f.bytes

theorem upperTx_dropRx (s : State) : upperTx s.dropRx = upperTx s :=
  upperTx_of_get rfl fun _ _ ha => get_putList_forget_below s.mem (by unfold Config.rxBase; omega) _ []

theorem upperTx_landAts (s : State) (ats : List Byte) : upperTx (s.landAts ats) = upperTx s :=
  upperTx_of_get rfl fun _ _ ha => get_putList_forget_below s.mem (by unfold Config.atsBase; omega) _ ats

/-! ### The rules of the host commands -/

/-- A host command whose rule leaves `TXBUF[9..264)` leaves it. -/
theorem upperTx_issue {op : Byte} {rule : State → State} {s t : State} (hrule : ∀ a, upperTx (rule a) = upperTx a)
    (h : issue op rule s = .next t) : upperTx t = upperTx s := by
  obtain ⟨-, rfl⟩ := issue_next.mp h
  exact hrule (s.accept op)

theorem upperTx_buildFrame {f : Frame} (h : f.bytes.length ≤ 9) (s : State) : upperTx (s.putTxFrame f).complete = upperTx s :=
  upperTx_putTxFrame s h

theorem upperTx_buildCrcFrame {f : Frame} (h : f.bytes.length ≤ 9) (s : State) :
    upperTx (s.putCrcFrame f).complete = upperTx s := upperTx_putCrcFrame s h

theorem upperTx_configureRule (option enabled : Byte) (s : State) : upperTx (configureRule option enabled s) = upperTx s := by
  unfold configureRule
  split <;> rfl

theorem upperTx_crcRule (crc : List Byte → Half) (src : Byte) (s : State) : upperTx (crcRule crc src s) = upperTx s := by
  unfold crcRule
  split <;> rfl

theorem upperTx_crcCheckRule (crc : List Byte → Half) (src : Byte) (s : State) :
    upperTx (crcCheckRule crc src s) = upperTx s := by
  unfold crcCheckRule
  split
  · rfl
  · split <;> rfl

theorem upperTx_locateHistRule (src : Byte) (s : State) : upperTx (locateHistRule src s) = upperTx s := by
  unfold locateHistRule
  split
  · rfl
  · split <;> rfl

theorem upperTx_buildWupaRule (variant : Byte) (s : State) : upperTx (buildWupaRule variant s) = upperTx s := by
  unfold buildWupaRule
  split
  · exact upperTx_buildFrame (by decide) s
  · split
    · exact upperTx_buildFrame (by decide) s
    · rfl

theorem upperTx_buildAnticollRule (lvl : Byte) (s : State) : upperTx (buildAnticollRule lvl s) = upperTx s := by
  unfold buildAnticollRule
  split
  · rfl
  case h_2 n _ => exact upperTx_buildFrame (by rw [anticollFrame_length]; decide) s

theorem upperTx_buildSelectInPlace (n : Level) (s : State) : upperTx (buildSelectInPlace n s) = upperTx s :=
  upperTx_buildCrcFrame (Nat.le_of_eq (selectFrame_length ..)) s

theorem upperTx_buildSelectRule (lvl fromRx : Byte) (s : State) : upperTx (buildSelectRule lvl fromRx s) = upperTx s := by
  unfold buildSelectRule
  split
  · rfl
  · split
    · split
      · rfl
      · rw [upperTx_buildSelectInPlace]
        exact upperTx_writeTx s (by simp [State.rxBytes])
    · split
      · exact upperTx_buildSelectInPlace _ s
      · rfl

/-- BCC_CALC stores one byte at index 6 (41_frame_codec.md R139). -/
theorem upperTx_bccCalcRule (s : State) : upperTx (bccCalcRule s) = upperTx s := upperTx_writeTx s (by simp)

theorem upperTx_parseAnticollRule (lvl src : Byte) (s : State) : upperTx (parseAnticollRule lvl src s) = upperTx s := by
  unfold parseAnticollRule
  split
  · rfl
  · split
    · rfl
    · split <;> rfl

theorem upperTx_parseSakRule (src : Byte) (s : State) : upperTx (parseSakRule src s) = upperTx s := by
  unfold parseSakRule
  split
  · rfl
  · split <;> rfl

theorem upperTx_assembleUidRule (levels : Byte) (s : State) : upperTx (assembleUidRule levels s) = upperTx s := by
  unfold assembleUidRule
  split <;> rfl

theorem upperTx_xcvBitsRule (s : State) : upperTx (xcvBitsRule s) = upperTx s := by
  unfold xcvBitsRule
  split <;> rfl

theorem upperTx_xcvBytesRule (s : State) : upperTx (xcvBytesRule s) = upperTx s := by
  unfold xcvBytesRule
  split
  · rfl
  · split <;> rfl

theorem upperTx_activateRule (wake : Byte) (s : State) : upperTx (activateRule wake s) = upperTx s := by
  unfold activateRule
  split
  · rfl
  · split <;> rfl

theorem upperTx_deselectRule (s : State) : upperTx (deselectRule s) = upperTx s := by
  unfold deselectRule
  split <;> rfl

theorem upperTx_pollRule (attempts : Byte) (s : State) : upperTx (pollRule attempts s) = upperTx s := by
  unfold pollRule
  split <;> rfl

theorem upperTx_hostCommand {i : Instr} {s t : State} (hk : i.kind = .hostCommand) (hinit : i ≠ .initInitiator)
    (hcrcA : i ≠ .crcAAppend) (hcrcB : i ≠ .crcBAppend) (h : exec i s = .next t) : upperTx t = upperTx s := by
  cases i with
  | nop => exact upperTx_issue (rule := State.complete) (fun _ => rfl) h
  | initInitiator => exact absurd rfl hinit
  | configure option enabled => exact upperTx_issue (upperTx_configureRule option enabled) h
  | crcA src => exact upperTx_issue (upperTx_crcRule _ src) h
  | crcB src => exact upperTx_issue (upperTx_crcRule _ src) h
  | crcAAppend => exact absurd rfl hcrcA
  | crcBAppend => exact absurd rfl hcrcB
  | crcACheck src => exact upperTx_issue (upperTx_crcCheckRule _ src) h
  | crcBCheck src => exact upperTx_issue (upperTx_crcCheckRule _ src) h
  | locateHist src => exact upperTx_issue (upperTx_locateHistRule src) h
  | buildReqa => exact upperTx_issue (upperTx_buildFrame (by decide)) h
  | buildWupa variant => exact upperTx_issue (upperTx_buildWupaRule variant) h
  | buildAnticoll lvl => exact upperTx_issue (upperTx_buildAnticollRule lvl) h
  | buildSelect lvl fromRx => exact upperTx_issue (upperTx_buildSelectRule lvl fromRx) h
  | buildHalt => exact upperTx_issue (upperTx_buildCrcFrame (by decide)) h
  | buildRats param => exact upperTx_issue (upperTx_buildCrcFrame (by rw [ratsFrame_length]; decide)) h
  | bccCalc => exact upperTx_issue upperTx_bccCalcRule h
  | parseAnticoll lvl src => exact upperTx_issue (upperTx_parseAnticollRule lvl src) h
  | parseSak src => exact upperTx_issue (upperTx_parseSakRule src) h
  | assembleUid levels => exact upperTx_issue (upperTx_assembleUidRule levels) h
  | xcvBits => exact upperTx_issue upperTx_xcvBitsRule h
  | xcvBytes => exact upperTx_issue upperTx_xcvBytesRule h
  | activate wake => exact upperTx_issue (upperTx_activateRule wake) h
  | deselect => exact upperTx_issue upperTx_deselectRule h
  | poll attempts period => exact upperTx_issue (upperTx_pollRule attempts) h
  | _ => cases hk

/-! ### The transmit step -/

/-- What the sequencer puts in `TXBUF` has at most nine bytes; XCV_BITS and XCV_BYTES put nothing there. -/
theorem upperTx_prepareSend {d : Due} {f : Frame} (h : d ≠ .raw → f.bytes.length ≤ 9) (s : State) :
    upperTx (prepareSend d f s) = upperTx s := by
  cases d with
  | raw => rfl
  | wake | anticoll => exact (upperTx_congr (s := s.putTxFrame f) rfl rfl).trans (upperTx_putTxFrame s (h nofun))
  | select | rats | halt => exact (upperTx_congr (s := s.putCrcFrame f) rfl rfl).trans (upperTx_putCrcFrame s (h nofun))

theorem upperTx_transmit {i : Instr} {s t : State} (hk : i.kind = .transmit) (h : exec i s = .next t) :
    upperTx t = upperTx s := by
  rw [exec_transmit hk, sendFrame_next] at h
  obtain ⟨⟨g, hdue, -⟩, rfl⟩ := h
  obtain ⟨r, d, hs⟩ := dueFrame_some hdue
  rw [sendDue_sends hs]
  exact upperTx_prepareSend frameFor_length s

/-! ### The end of an exchange -/

theorem upperTx_finishRaw (r : Run) (x : XResult) (s : State) : upperTx (finishRaw r x s) = upperTx s := by
  unfold finishRaw
  split
  · exact upperTx_dropRx s
  · split
    · exact upperTx_dropRx s
    · exact upperTx_landRx s _

theorem upperTx_wakeSilence (r : Run) (s : State) : upperTx (wakeSilence r s) = upperTx s := by
  unfold wakeSilence
  split
  case h_1 => split <;> exact upperTx_dropRx s
  all_goals exact upperTx_dropRx s

theorem upperTx_finishWake (r : Run) (x : XResult) (s : State) : upperTx (finishWake r x s) = upperTx s := by
  unfold finishWake
  split
  · split
    · exact upperTx_wakeSilence r s
    · exact upperTx_dropRx s
  · split <;> exact upperTx_landRx s _

theorem upperTx_finishAnticoll (n : Level) (r : Run) (x : XResult) (s : State) :
    upperTx (finishAnticoll n r x s) = upperTx s := by
  unfold finishAnticoll
  split
  · exact upperTx_dropRx s
  case h_2 f =>
    have hland : upperTx (s.landAnticoll n f) = upperTx s :=
      (upperTx_congr (s := s.landRx f) rfl rfl).trans (upperTx_landRx s f)
    split
    · exact upperTx_landRx s f
    · exact hland

theorem upperTx_nextLevel (n : Level) (r : Run) (s : State) : upperTx (nextLevel n r s) = upperTx s := by
  unfold nextLevel
  split <;> rfl

theorem upperTx_finalLevel (n : Level) (r : Run) (s : State) : upperTx (finalLevel n r s) = upperTx s := by
  unfold finalLevel
  split <;> rfl

theorem upperTx_finishSelect (n : Level) (r : Run) (x : XResult) (s : State) : upperTx (finishSelect n r x s) = upperTx s := by
  unfold finishSelect
  split
  case h_1 => exact upperTx_dropRx s
  case h_2 f =>
    have hland : upperTx (s.landSak f) = upperTx s := upperTx_landRx s f
    split
    · exact upperTx_landRx s f
    · split
      · rw [upperTx_nextLevel, hland]
      · rw [upperTx_finalLevel, hland]

theorem upperTx_finishRats (x : XResult) (s : State) : upperTx (finishRats x s) = upperTx s := by
  unfold finishRats
  split
  case h_1 => exact upperTx_dropRx s
  case h_2 f =>
    split
    · exact upperTx_landRx s f
    · calc
        _ = upperTx ((s.landRx f).landAts (f.bytes.drop 1)) := rfl
        _ = upperTx (s.landRx f) := upperTx_landAts _ _
        _ = upperTx s := upperTx_landRx s f

theorem upperTx_finishHalt (x : XResult) (s : State) : upperTx (finishHalt x s) = upperTx s := by
  unfold finishHalt
  split
  · split <;> exact upperTx_dropRx s
  · exact upperTx_dropRx s

theorem upperTx_finish (r : Run) (d : Due) (x : XResult) (s : State) : upperTx (finish r d x s) = upperTx s := by
  cases d with
  | raw => exact upperTx_finishRaw r x s
  | wake => exact upperTx_finishWake r x s
  | anticoll n => exact upperTx_finishAnticoll n r x s
  | select n => exact upperTx_finishSelect n r x s
  | rats => exact upperTx_finishRats x s
  | halt => exact upperTx_finishHalt x s

theorem upperTx_endExchange (x : XResult) (s : State) : upperTx (endExchange x s) = upperTx s := by
  unfold endExchange
  split
  case h_1 => exact upperTx_finish _ _ x { s with xch := none }
  all_goals rfl

theorem upperTx_takeAbort (s : State) : upperTx (takeAbort s) = upperTx s := by
  unfold takeAbort
  split
  · exact upperTx_endExchange _ s
  · rfl

theorem upperTx_answerArrives (a : Answer) (s : State) : upperTx (answerArrives a s) = upperTx s := by
  obtain heq | ⟨-, heq⟩ | ⟨x, -, heq⟩ | ⟨x, -, heq⟩ | ⟨-, heq⟩ := answerArrives_cases a s <;> rw [heq]
  · exact upperTx_takeAbort s
  · exact upperTx_endExchange _ s
  · exact upperTx_endExchange _ { s with fresh := s.fresh + 1 }
  · exact upperTx_endExchange _ { s with fresh := s.fresh + 1 }

theorem upperTx_received {i : Instr} {s t : State} (hk : receivedKind i.kind = true) (h : exec i s = .next t) :
    upperTx t = upperTx s := by
  rw [exec_received hk] at h
  cases h
  exact upperTx_answerArrives _ s

/-! ### All instructions -/

/-- Settles O59, by the kind of the instruction: a rule, the transmit step, or the arrival of an answer. -/
theorem upperTxBufIsTheHosts : Obligations.UpperTxBufIsTheHosts := by
  unfold Obligations.UpperTxBufIsTheHosts
  intro i s t k h hinit hcrcA hcrcB hlow hhigh
  refine txByte_of_upperTx ?_ hlow hhigh
  cases hk : i.kind with
  | hostCommand => exact upperTx_hostCommand hk hinit hcrcA hcrcB h
  | transmit => exact upperTx_transmit hk h
  | atqa | anticollAnswer | sakAnswer | ratsAnswer => exact upperTx_received (by rw [hk]; rfl) h

end Sys2Proof.Proofs.ResetAndHazards
